-- ==== Sys2Proof/Word.lean ====
section
/-! DEFINITION. The widths of the machine: words, bytes, instruction words, register numbers (00_scope.md R6, R7). -/

namespace Sys2Proof

/-- A register value or an address: 32 bits (`XLEN`, 00_scope.md R5). -/
abbrev Word := BitVec 32

/-- A byte of memory (20_memory.md R50). -/
abbrev Byte := BitVec 8

/-- One instruction: 16 bits (`ILEN`, 00_scope.md R5; 30_encoding.md R80). -/
abbrev InstrWord := BitVec 16

/-- A register number of a 3-bit field: R0 to R7 (30_encoding.md R83). -/
abbrev LowReg := Fin 8

/-- A register number: R0 to R15 (10_state.md R20; 30_encoding.md R84). -/
abbrev Reg := Fin 16

/-- The low register `Ri` under its four-bit number. -/
def lo (i : LowReg) : Reg := ⟨i.val, by omega⟩

/-- The Stack Pointer is R13 (10_state.md R22). PRESUMED by the spec itself (entry 14). -/
def spReg : Reg := 13

/-- The Link Register is R14 (10_state.md R23). -/
def lrReg : Reg := 14

/-- The Program Counter, as an operand, is register 15 (10_state.md R24). PRESUMED by the spec itself (entry 14). -/
def pcReg : Reg := 15

end Sys2Proof
end

