-- ==== Sys2Proof/Config.lean ====
section
/-! DEFINITION. The implementation parameters of 00_scope.md R5. They are fixed at launch and no step changes them;
State holds them (entry 1) so that a statement can name them or hold for all of them. -/

namespace Sys2Proof

/-- Which of the two machines of the source this is (00_scope.md R3). -/
inductive Profile where
  | arch
  | hdl
deriving DecidableEq, Repr

/-- `TVARIANT`, the architecture version (00_scope.md R5; 30_encoding.md R108). -/
inductive TVariant where
  | v4
  | v5
deriving DecidableEq, Repr

/-- `ENDIAN`, the byte order of data and of fetch (20_memory.md R52). -/
inductive Endian where
  | little
  | big
deriving DecidableEq, Repr

/-- `BL_LOW_EXT`, how the low half of a BL offset is extended (43_branch.md R193; 90_conflicts.md C10). -/
inductive LowExt where
  | zero
  | sign
deriving DecidableEq, Repr

/-- `COND_1110`, what B_1 does with the condition code 1110 (43_branch.md R190; D29). -/
inductive Cond1110 where
  | always
  | undefined
deriving DecidableEq, Repr

/-- `SMC`, what a fetch of a byte stored to since launch does (20_memory.md R66; D23). -/
inductive SelfMod where
  | fault
  | coherent
deriving DecidableEq, Repr

/-- A range of byte addresses that exist: `base` to `base + size - 1`. -/
structure Region where
  base : Nat
  size : Nat
deriving DecidableEq, Repr

/-- Whether the byte address `a` lies in the range. -/
def Region.holds (r : Region) (a : Nat) : Bool := r.base ≤ a && a < r.base + r.size

/-- The launch parameters of 00_scope.md R5 with its defaults. `admitted` is the domain of `MEM` (20_memory.md R61);
its default, the whole address space, is a DESIGN CHOICE (entry 7). `MISALIGNED` has one value and no field (entry 31);
`ENTRY` and the contents of `MEM` are launch values of the state itself. -/
structure Config where
  profile : Profile := .arch
  tvariant : TVariant := .v5
  endian : Endian := .little
  pcReadOffset : Word := 4
  blLowExt : LowExt := .zero
  cond1110 : Cond1110 := .always
  smc : SelfMod := .fault
  admitted : List Region := [⟨0, 4294967296⟩]
deriving DecidableEq, Repr

/-- Whether the byte address `a` is in the domain of `MEM` (20_memory.md R61). -/
def Config.admits (c : Config) (a : Nat) : Bool := c.admitted.any (·.holds a)

/-- The values 00_scope.md R5 allows the parameters: `PC_READ_OFFSET` is a multiple of 2, and `MEM` maps 32-bit
addresses only. -/
abbrev Config.wf (c : Config) : Prop :=
  c.pcReadOffset.getLsbD 0 = false ∧ ∀ r ∈ c.admitted, r.base + r.size ≤ 4294967296

end Sys2Proof
end

