-- ==== Sys2Proof/Syntax.lean ====
section
/-! DEFINITION. The instructions: one constructor per row of spec/opcode_table.json, in the table's order. -/

namespace Sys2Proof

/-- The fifteen conditions of Table A.1, codes 0000 to 1110 in order (00_scope.md R12). The code 1111 is no condition:
that word is SWI (30_encoding.md R87, R101). -/
inductive Cond where
  | eq | ne | cs | cc | mi | pl | vs | vc | hi | ls | ge | lt | gt | le | al
deriving DecidableEq, Repr

/-- The instruction set. Fields carry the names of 30_encoding.md R82; a register named by `H1:Rd`, `H1:Rn` or `H2:Rm`
is a four-bit number (R84). -/
inductive Instr where
  | lsl1 (immed5 : BitVec 5) (rm rd : LowReg)
  | lsr1 (immed5 : BitVec 5) (rm rd : LowReg)
  | asr1 (immed5 : BitVec 5) (rm rd : LowReg)
  | add3 (rm rn rd : LowReg)
  | sub3 (rm rn rd : LowReg)
  /-- With `immed3 = 000` the word is read as MOV_2 (entry 12). -/
  | add1 (immed3 : BitVec 3) (rn rd : LowReg)
  /-- The words of ADD_1 with `immed3 = 000` (30_encoding.md R101; entry 12). -/
  | mov2 (rn rd : LowReg)
  | sub1 (immed3 : BitVec 3) (rn rd : LowReg)
  | mov1 (rd : LowReg) (immed8 : BitVec 8)
  | cmp1 (rn : LowReg) (immed8 : BitVec 8)
  | add2 (rd : LowReg) (immed8 : BitVec 8)
  | sub2 (rd : LowReg) (immed8 : BitVec 8)
  | and (rm rd : LowReg)
  | eor (rm rd : LowReg)
  | lsl2 (rs rd : LowReg)
  | lsr2 (rs rd : LowReg)
  | asr2 (rs rd : LowReg)
  | adc (rm rd : LowReg)
  | sbc (rm rd : LowReg)
  | ror (rs rd : LowReg)
  | tst (rm rn : LowReg)
  | neg (rm rd : LowReg)
  | cmp2 (rm rn : LowReg)
  | cmn (rm rn : LowReg)
  | orr (rm rd : LowReg)
  | mul (rm rd : LowReg)
  | bic (rm rd : LowReg)
  | mvn (rm rd : LowReg)
  | add4 (rm rd : Reg)
  | cmp3 (rm rn : Reg)
  | mov3 (rm rd : Reg)
  | bx (rm : Reg) (sbz : BitVec 3)
  | blx2 (rm : Reg) (sbz : BitVec 3)
  | ldr3 (rd : LowReg) (immed8 : BitVec 8)
  | str2 (rm rn rd : LowReg)
  | strh2 (rm rn rd : LowReg)
  | strb2 (rm rn rd : LowReg)
  | ldrsb (rm rn rd : LowReg)
  | ldr2 (rm rn rd : LowReg)
  | ldrh2 (rm rn rd : LowReg)
  | ldrb2 (rm rn rd : LowReg)
  | ldrsh (rm rn rd : LowReg)
  | str1 (immed5 : BitVec 5) (rn rd : LowReg)
  | ldr1 (immed5 : BitVec 5) (rn rd : LowReg)
  | strb1 (immed5 : BitVec 5) (rn rd : LowReg)
  | ldrb1 (immed5 : BitVec 5) (rn rd : LowReg)
  | strh1 (immed5 : BitVec 5) (rn rd : LowReg)
  | ldrh1 (immed5 : BitVec 5) (rn rd : LowReg)
  | str3 (rd : LowReg) (immed8 : BitVec 8)
  | ldr4 (rd : LowReg) (immed8 : BitVec 8)
  | add5 (rd : LowReg) (immed8 : BitVec 8)
  | add6 (rd : LowReg) (immed8 : BitVec 8)
  | add7 (immed7 : BitVec 7)
  | sub4 (immed7 : BitVec 7)
  | push (r : Bool) (list : BitVec 8)
  | pop (r : Bool) (list : BitVec 8)
  | bkpt (immed8 : BitVec 8)
  | stmia (rn : LowReg) (list : BitVec 8)
  | ldmia (rn : LowReg) (list : BitVec 8)
  | b1 (cond : Cond) (simmed8 : BitVec 8)
  | swi (immed8 : BitVec 8)
  | b2 (simmed11 : BitVec 11)
  | blxH01 (offset11 : BitVec 11)
  | blH10 (offset11 : BitVec 11)
  | blH11 (offset11 : BitVec 11)
deriving DecidableEq, Repr

end Sys2Proof
end

