-- ==== Sys2Proof/WellFormed.lean ====
section
/-! DEFINITION. Which instruction terms stand for a word of their own row, and which words the source permits
(30_encoding.md R99 to R101). -/

namespace Sys2Proof

/-- The term is the decoder's reading of its own word. Only ADD_1 with `immed3 = 000` is not: that word is listed a
second time as MOV_2 (30_encoding.md R101), and the decoder answers the more particular row (entry 12). -/
def Instr.encodable : Instr → Bool
  | .add1 immed3 _ _ => immed3 != 0#3
  | _ => true

/-- Whether bit `i` of a register list is set: register `Ri` takes part (30_encoding.md R86). -/
def listed (list : BitVec 8) (i : LowReg) : Bool := list.getLsbD i.val

/-- Whether a register of lower number than `i` takes part. -/
def listedBelow (list : BitVec 8) (i : LowReg) : Bool :=
  (List.range i.val).any (fun j => list.getLsbD j)

/-- The constraints of 30_encoding.md R100 that depend on the word alone: SBZ bits zero, a high register in CMP_3 and
MOV_3, a non-empty list, no base in an LDMIA list, only as its lowest member in an STMIA list, not LR in BLX_2. -/
def Instr.permitted : Instr → Bool
  | .cmp3 rm rn => decide (8 ≤ rm.val) || decide (8 ≤ rn.val)
  | .mov3 rm rd => decide (8 ≤ rm.val) || decide (8 ≤ rd.val)
  | .bx _ sbz => sbz == 0#3
  | .blx2 rm sbz => sbz == 0#3 && rm != lrReg
  | .push r list => r || list != 0#8
  | .pop r list => r || list != 0#8
  | .ldmia rn list => list != 0#8 && !listed list rn
  | .stmia rn list => list != 0#8 && !(listed list rn && listedBelow list rn)
  | _ => true

/-- An instruction as the source lets it be written: the reading of its own word, within the source's constraints. -/
def Instr.wellFormed (i : Instr) : Bool := i.encodable && i.permitted

end Sys2Proof
end

