-- ==== Sys2Proof/Decode.lean ====
section
/-! DEFINITION. The decoder, row by row of spec/opcode_table.json (30_encoding.md R82 to R102), and the encoder. -/

namespace Sys2Proof

/-- Why the decoder gives no instruction. -/
inductive DecodeReject where
  /-- The word matches no row of the table (30_encoding.md R98). -/
  | unallocated (w : InstrWord)
deriving DecidableEq, Repr

/-- The three-bit register field whose lowest bit is bit `lsb`. -/
def lowField (w : InstrWord) (lsb : Nat) : LowReg := (w.extractLsb' lsb 3).toFin

/-- The register number `H1:Rd` (or `H1:Rn`): bit 7 above bits 2 to 0 (30_encoding.md R84). -/
def h1Field (w : InstrWord) : Reg := (w.extractLsb' 7 1 ++ w.extractLsb' 0 3 : BitVec 4).toFin

/-- The register number `H2:Rm`: bits 6 to 3 (30_encoding.md R84). -/
def h2Field (w : InstrWord) : Reg := (w.extractLsb' 6 1 ++ w.extractLsb' 3 3 : BitVec 4).toFin

/-- The condition of a four-bit code (Table A.1, 00_scope.md R12); 1111 is none. -/
def Cond.ofCode (c : BitVec 4) : Option Cond :=
  [Cond.eq, .ne, .cs, .cc, .mi, .pl, .vs, .vc, .hi, .ls, .ge, .lt, .gt, .le, .al][c.toNat]?

/-- The four-bit code of a condition (Table A.1). -/
def Cond.code : Cond → BitVec 4
  | .eq => 0b0000#4
  | .ne => 0b0001#4
  | .cs => 0b0010#4
  | .cc => 0b0011#4
  | .mi => 0b0100#4
  | .pl => 0b0101#4
  | .vs => 0b0110#4
  | .vc => 0b0111#4
  | .hi => 0b1000#4
  | .ls => 0b1001#4
  | .ge => 0b1010#4
  | .lt => 0b1011#4
  | .gt => 0b1100#4
  | .le => 0b1101#4
  | .al => 0b1110#4

/-- One row of the opcode table: a word is the row's when `word AND mask = pattern` and it is no word of an excluded
pair (30_encoding.md R102). `build` reads the fields. -/
structure Row where
  mnemonic : String
  mask : InstrWord
  pattern : InstrWord
  exclude : List (InstrWord × InstrWord) := []
  build : InstrWord → Option Instr

/-- Whether the word `w` matches the row (30_encoding.md R102). -/
def Row.covers (r : Row) (w : InstrWord) : Bool :=
  w &&& r.mask == r.pattern && r.exclude.all (fun e => w &&& e.1 != e.2)

/-- Format `SHI` (30_encoding.md R82). -/
def readSHI (f : BitVec 5 → LowReg → LowReg → Instr) (w : InstrWord) : Option Instr :=
  some (f (w.extractLsb' 6 5) (lowField w 3) (lowField w 0))

/-- Formats `AS3R` and `LSR` (30_encoding.md R82). -/
def readRRR (f : LowReg → LowReg → LowReg → Instr) (w : InstrWord) : Option Instr :=
  some (f (lowField w 6) (lowField w 3) (lowField w 0))

/-- Format `AS3I` (30_encoding.md R82). -/
def readAS3I (f : BitVec 3 → LowReg → LowReg → Instr) (w : InstrWord) : Option Instr :=
  some (f (w.extractLsb' 6 3) (lowField w 3) (lowField w 0))

/-- Format `RI8`, and `LSM` with its register list for the immediate (30_encoding.md R82). -/
def readRI8 (f : LowReg → BitVec 8 → Instr) (w : InstrWord) : Option Instr :=
  some (f (lowField w 8) (w.extractLsb' 0 8))

/-- Format `ALU`, and MOV_2's two fields (30_encoding.md R82). -/
def readALU (f : LowReg → LowReg → Instr) (w : InstrWord) : Option Instr :=
  some (f (lowField w 3) (lowField w 0))

/-- Format `HI` (30_encoding.md R82, R84). -/
def readHI (f : Reg → Reg → Instr) (w : InstrWord) : Option Instr :=
  some (f (h2Field w) (h1Field w))

/-- Format `BXF` (30_encoding.md R82, R84). -/
def readBXF (f : Reg → BitVec 3 → Instr) (w : InstrWord) : Option Instr :=
  some (f (h2Field w) (w.extractLsb' 0 3))

/-- Format `SP7` (30_encoding.md R82). -/
def readSP7 (f : BitVec 7 → Instr) (w : InstrWord) : Option Instr := some (f (w.extractLsb' 0 7))

/-- Format `PP` (30_encoding.md R82, R86). -/
def readPP (f : Bool → BitVec 8 → Instr) (w : InstrWord) : Option Instr :=
  some (f (w.getLsbD 8) (w.extractLsb' 0 8))

/-- Format `I8` (30_encoding.md R82). -/
def readI8 (f : BitVec 8 → Instr) (w : InstrWord) : Option Instr := some (f (w.extractLsb' 0 8))

/-- Format `BC` (30_encoding.md R82, R87). -/
def readBC (f : Cond → BitVec 8 → Instr) (w : InstrWord) : Option Instr :=
  (Cond.ofCode (w.extractLsb' 8 4)).map (fun c => f c (w.extractLsb' 0 8))

/-- Format `B11` (30_encoding.md R82, R88). -/
def readB11 (f : BitVec 11 → Instr) (w : InstrWord) : Option Instr := some (f (w.extractLsb' 0 11))

/-- [15:11] = 00011, by bits [10:9], MOV_2 apart from ADD_1 (30_encoding.md R89, R101; entry 12). -/
def addSubRows : List Row := [
  { mnemonic := "ADD_3", mask := 0xFE00#16, pattern := 0x1800#16, build := readRRR .add3 },
  { mnemonic := "SUB_3", mask := 0xFE00#16, pattern := 0x1A00#16, build := readRRR .sub3 },
  { mnemonic := "ADD_1", mask := 0xFE00#16, pattern := 0x1C00#16, exclude := [(0xFFC0#16, 0x1C00#16)],
    build := readAS3I .add1 },
  { mnemonic := "MOV_2", mask := 0xFFC0#16, pattern := 0x1C00#16, build := readALU .mov2 },
  { mnemonic := "SUB_1", mask := 0xFE00#16, pattern := 0x1E00#16, build := readAS3I .sub1 }]

/-- The `ALU` group, [15:10] = 010000 (30_encoding.md R90). -/
def aluRows : List Row := [
  { mnemonic := "AND", mask := 0xFFC0#16, pattern := 0x4000#16, build := readALU .and },
  { mnemonic := "EOR", mask := 0xFFC0#16, pattern := 0x4040#16, build := readALU .eor },
  { mnemonic := "LSL_2", mask := 0xFFC0#16, pattern := 0x4080#16, build := readALU .lsl2 },
  { mnemonic := "LSR_2", mask := 0xFFC0#16, pattern := 0x40C0#16, build := readALU .lsr2 },
  { mnemonic := "ASR_2", mask := 0xFFC0#16, pattern := 0x4100#16, build := readALU .asr2 },
  { mnemonic := "ADC", mask := 0xFFC0#16, pattern := 0x4140#16, build := readALU .adc },
  { mnemonic := "SBC", mask := 0xFFC0#16, pattern := 0x4180#16, build := readALU .sbc },
  { mnemonic := "ROR", mask := 0xFFC0#16, pattern := 0x41C0#16, build := readALU .ror },
  { mnemonic := "TST", mask := 0xFFC0#16, pattern := 0x4200#16, build := readALU .tst },
  { mnemonic := "NEG", mask := 0xFFC0#16, pattern := 0x4240#16, build := readALU .neg },
  { mnemonic := "CMP_2", mask := 0xFFC0#16, pattern := 0x4280#16, build := readALU .cmp2 },
  { mnemonic := "CMN", mask := 0xFFC0#16, pattern := 0x42C0#16, build := readALU .cmn },
  { mnemonic := "ORR", mask := 0xFFC0#16, pattern := 0x4300#16, build := readALU .orr },
  { mnemonic := "MUL", mask := 0xFFC0#16, pattern := 0x4340#16, build := readALU .mul },
  { mnemonic := "BIC", mask := 0xFFC0#16, pattern := 0x4380#16, build := readALU .bic },
  { mnemonic := "MVN", mask := 0xFFC0#16, pattern := 0x43C0#16, build := readALU .mvn }]

/-- The `HI` and `BXF` group, [15:10] = 010001 (30_encoding.md R91). -/
def highRows : List Row := [
  { mnemonic := "ADD_4", mask := 0xFF00#16, pattern := 0x4400#16, build := readHI .add4 },
  { mnemonic := "CMP_3", mask := 0xFF00#16, pattern := 0x4500#16, build := readHI .cmp3 },
  { mnemonic := "MOV_3", mask := 0xFF00#16, pattern := 0x4600#16, build := readHI .mov3 },
  { mnemonic := "BX", mask := 0xFF80#16, pattern := 0x4700#16, build := readBXF .bx },
  { mnemonic := "BLX_2", mask := 0xFF80#16, pattern := 0x4780#16, build := readBXF .blx2 }]

/-- The `LSR` group with [11] = 0 (30_encoding.md R92). -/
def storeOffsetRows : List Row := [
  { mnemonic := "STR_2", mask := 0xFE00#16, pattern := 0x5000#16, build := readRRR .str2 },
  { mnemonic := "STRH_2", mask := 0xFE00#16, pattern := 0x5200#16, build := readRRR .strh2 },
  { mnemonic := "STRB_2", mask := 0xFE00#16, pattern := 0x5400#16, build := readRRR .strb2 },
  { mnemonic := "LDRSB", mask := 0xFE00#16, pattern := 0x5600#16, build := readRRR .ldrsb }]

/-- The `LSR` group with [11] = 1 (30_encoding.md R92). -/
def loadOffsetRows : List Row := [
  { mnemonic := "LDR_2", mask := 0xFE00#16, pattern := 0x5800#16, build := readRRR .ldr2 },
  { mnemonic := "LDRH_2", mask := 0xFE00#16, pattern := 0x5A00#16, build := readRRR .ldrh2 },
  { mnemonic := "LDRB_2", mask := 0xFE00#16, pattern := 0x5C00#16, build := readRRR .ldrb2 },
  { mnemonic := "LDRSH", mask := 0xFE00#16, pattern := 0x5E00#16, build := readRRR .ldrsh }]

/-- The miscellaneous group with [11] = 0 (30_encoding.md R93). -/
def stackRows : List Row := [
  { mnemonic := "ADD_7", mask := 0xFF80#16, pattern := 0xB000#16, build := readSP7 .add7 },
  { mnemonic := "SUB_4", mask := 0xFF80#16, pattern := 0xB080#16, build := readSP7 .sub4 },
  { mnemonic := "PUSH", mask := 0xFE00#16, pattern := 0xB400#16, build := readPP .push }]

/-- The miscellaneous group with [11] = 1 (30_encoding.md R93). -/
def popRows : List Row := [
  { mnemonic := "POP", mask := 0xFE00#16, pattern := 0xBC00#16, build := readPP .pop },
  { mnemonic := "BKPT", mask := 0xFF00#16, pattern := 0xBE00#16, build := readI8 .bkpt }]

/-- B_1, less the words of SWI (30_encoding.md R87, R97, R101). -/
def conditionalRow : Row :=
  { mnemonic := "B_1", mask := 0xF000#16, pattern := 0xD000#16, exclude := [(0xFF00#16, 0xDF00#16)],
    build := readBC .b1 }

/-- SWI (30_encoding.md R101). -/
def swiRow : Row :=
  { mnemonic := "SWI", mask := 0xFF00#16, pattern := 0xDF00#16, build := readI8 .swi }

/-- The top-level map of 30_encoding.md R89: the rows of spec/opcode_table.json that words with bits [15:11] = `top`
can match. -/
def rowsAt (top : Nat) : List Row :=
  match top with
  | 0 => [{ mnemonic := "LSL_1", mask := 0xF800#16, pattern := 0x0000#16, build := readSHI .lsl1 }]
  | 1 => [{ mnemonic := "LSR_1", mask := 0xF800#16, pattern := 0x0800#16, build := readSHI .lsr1 }]
  | 2 => [{ mnemonic := "ASR_1", mask := 0xF800#16, pattern := 0x1000#16, build := readSHI .asr1 }]
  | 3 => addSubRows
  | 4 => [{ mnemonic := "MOV_1", mask := 0xF800#16, pattern := 0x2000#16, build := readRI8 .mov1 }]
  | 5 => [{ mnemonic := "CMP_1", mask := 0xF800#16, pattern := 0x2800#16, build := readRI8 .cmp1 }]
  | 6 => [{ mnemonic := "ADD_2", mask := 0xF800#16, pattern := 0x3000#16, build := readRI8 .add2 }]
  | 7 => [{ mnemonic := "SUB_2", mask := 0xF800#16, pattern := 0x3800#16, build := readRI8 .sub2 }]
  | 8 => aluRows ++ highRows
  | 9 => [{ mnemonic := "LDR_3", mask := 0xF800#16, pattern := 0x4800#16, build := readRI8 .ldr3 }]
  | 10 => storeOffsetRows
  | 11 => loadOffsetRows
  | 12 => [{ mnemonic := "STR_1", mask := 0xF800#16, pattern := 0x6000#16, build := readSHI .str1 }]
  | 13 => [{ mnemonic := "LDR_1", mask := 0xF800#16, pattern := 0x6800#16, build := readSHI .ldr1 }]
  | 14 => [{ mnemonic := "STRB_1", mask := 0xF800#16, pattern := 0x7000#16, build := readSHI .strb1 }]
  | 15 => [{ mnemonic := "LDRB_1", mask := 0xF800#16, pattern := 0x7800#16, build := readSHI .ldrb1 }]
  | 16 => [{ mnemonic := "STRH_1", mask := 0xF800#16, pattern := 0x8000#16, build := readSHI .strh1 }]
  | 17 => [{ mnemonic := "LDRH_1", mask := 0xF800#16, pattern := 0x8800#16, build := readSHI .ldrh1 }]
  | 18 => [{ mnemonic := "STR_3", mask := 0xF800#16, pattern := 0x9000#16, build := readRI8 .str3 }]
  | 19 => [{ mnemonic := "LDR_4", mask := 0xF800#16, pattern := 0x9800#16, build := readRI8 .ldr4 }]
  | 20 => [{ mnemonic := "ADD_5", mask := 0xF800#16, pattern := 0xA000#16, build := readRI8 .add5 }]
  | 21 => [{ mnemonic := "ADD_6", mask := 0xF800#16, pattern := 0xA800#16, build := readRI8 .add6 }]
  | 22 => stackRows
  | 23 => popRows
  | 24 => [{ mnemonic := "STMIA", mask := 0xF800#16, pattern := 0xC000#16, build := readRI8 .stmia }]
  | 25 => [{ mnemonic := "LDMIA", mask := 0xF800#16, pattern := 0xC800#16, build := readRI8 .ldmia }]
  | 26 => [conditionalRow]
  | 27 => [conditionalRow, swiRow]
  | 28 => [{ mnemonic := "B_2", mask := 0xF800#16, pattern := 0xE000#16, build := readB11 .b2 }]
  | 29 => [{ mnemonic := "BLX_H01", mask := 0xF800#16, pattern := 0xE800#16, build := readB11 .blxH01 }]
  | 30 => [{ mnemonic := "BL_H10", mask := 0xF800#16, pattern := 0xF000#16, build := readB11 .blH10 }]
  | 31 => [{ mnemonic := "BL_H11", mask := 0xF800#16, pattern := 0xF800#16, build := readB11 .blH11 }]
  | _ => []

/-- The decoding procedure of 30_encoding.md R102, steps 1 to 3: the row that covers the word reads its fields; a word
no row covers is rejected as unallocated (R98). Steps 4 and 5 (the parameters and the constraints) are in the meanings. -/
def decode (w : InstrWord) : Except DecodeReject Instr :=
  match (rowsAt (w.extractLsb' 11 5).toNat).find? (·.covers w) with
  | some r =>
    match r.build w with
    | some i => .ok i
    | none => .error (.unallocated w)
  | none => .error (.unallocated w)

/-- The instruction word of the bytes at `pc` and `pc + 1` (30_encoding.md R81; 20_memory.md R52). -/
def wordOfBytes (e : Endian) (b0 b1 : Byte) : InstrWord :=
  match e with
  | .little => b1 ++ b0
  | .big => b0 ++ b1

/-- The decoder over the two bytes of an instruction as memory holds them. -/
def decodeBytes (e : Endian) (b0 b1 : Byte) : Except DecodeReject Instr := decode (wordOfBytes e b0 b1)

/-- The instruction the decoder reads from the opcode table's number `w` of `nbits` bits, laid out in the default byte
order (20_memory.md R52); bits of `w` above `nbits` do not count. -/
def decodeTableWord (nbits w : Nat) : Option Instr :=
  let v := w % 2 ^ nbits
  if v < 65536 then
    match decodeBytes .little (BitVec.ofNat 8 v) (BitVec.ofNat 8 (v / 256)) with
    | .ok i => some i
    | .error _ => none
  else none

/-! ## The encoder -/

/-- A low register number as its three-bit field (30_encoding.md R83). -/
def bits3 (r : LowReg) : BitVec 3 := BitVec.ofFin r

/-- The high bit of a register number: H1 or H2 (30_encoding.md R84). -/
def highBit (r : Reg) : BitVec 1 := (BitVec.ofFin r : BitVec 4).extractLsb' 3 1

/-- The low three bits of a register number. -/
def lowBits (r : Reg) : BitVec 3 := (BitVec.ofFin r : BitVec 4).extractLsb' 0 3

/-- The `R` bit of PUSH and POP (30_encoding.md R86). -/
def bit1 (b : Bool) : BitVec 1 := BitVec.ofBool b

/-- The word of an instruction: the fixed bits and the fields of its format, from bit 15 down (30_encoding.md R82). -/
def encode : Instr → InstrWord
  | .lsl1 immed5 rm rd => 0b00000#5 ++ immed5 ++ bits3 rm ++ bits3 rd
  | .lsr1 immed5 rm rd => 0b00001#5 ++ immed5 ++ bits3 rm ++ bits3 rd
  | .asr1 immed5 rm rd => 0b00010#5 ++ immed5 ++ bits3 rm ++ bits3 rd
  | .add3 rm rn rd => 0b0001100#7 ++ bits3 rm ++ bits3 rn ++ bits3 rd
  | .sub3 rm rn rd => 0b0001101#7 ++ bits3 rm ++ bits3 rn ++ bits3 rd
  | .add1 immed3 rn rd => 0b0001110#7 ++ immed3 ++ bits3 rn ++ bits3 rd
  | .mov2 rn rd => 0b0001110000#10 ++ bits3 rn ++ bits3 rd
  | .sub1 immed3 rn rd => 0b0001111#7 ++ immed3 ++ bits3 rn ++ bits3 rd
  | .mov1 rd immed8 => 0b00100#5 ++ bits3 rd ++ immed8
  | .cmp1 rn immed8 => 0b00101#5 ++ bits3 rn ++ immed8
  | .add2 rd immed8 => 0b00110#5 ++ bits3 rd ++ immed8
  | .sub2 rd immed8 => 0b00111#5 ++ bits3 rd ++ immed8
  | .and rm rd => 0b0100000000#10 ++ bits3 rm ++ bits3 rd
  | .eor rm rd => 0b0100000001#10 ++ bits3 rm ++ bits3 rd
  | .lsl2 rs rd => 0b0100000010#10 ++ bits3 rs ++ bits3 rd
  | .lsr2 rs rd => 0b0100000011#10 ++ bits3 rs ++ bits3 rd
  | .asr2 rs rd => 0b0100000100#10 ++ bits3 rs ++ bits3 rd
  | .adc rm rd => 0b0100000101#10 ++ bits3 rm ++ bits3 rd
  | .sbc rm rd => 0b0100000110#10 ++ bits3 rm ++ bits3 rd
  | .ror rs rd => 0b0100000111#10 ++ bits3 rs ++ bits3 rd
  | .tst rm rn => 0b0100001000#10 ++ bits3 rm ++ bits3 rn
  | .neg rm rd => 0b0100001001#10 ++ bits3 rm ++ bits3 rd
  | .cmp2 rm rn => 0b0100001010#10 ++ bits3 rm ++ bits3 rn
  | .cmn rm rn => 0b0100001011#10 ++ bits3 rm ++ bits3 rn
  | .orr rm rd => 0b0100001100#10 ++ bits3 rm ++ bits3 rd
  | .mul rm rd => 0b0100001101#10 ++ bits3 rm ++ bits3 rd
  | .bic rm rd => 0b0100001110#10 ++ bits3 rm ++ bits3 rd
  | .mvn rm rd => 0b0100001111#10 ++ bits3 rm ++ bits3 rd
  | .add4 rm rd => 0b01000100#8 ++ highBit rd ++ highBit rm ++ lowBits rm ++ lowBits rd
  | .cmp3 rm rn => 0b01000101#8 ++ highBit rn ++ highBit rm ++ lowBits rm ++ lowBits rn
  | .mov3 rm rd => 0b01000110#8 ++ highBit rd ++ highBit rm ++ lowBits rm ++ lowBits rd
  | .bx rm sbz => 0b010001110#9 ++ highBit rm ++ lowBits rm ++ sbz
  | .blx2 rm sbz => 0b010001111#9 ++ highBit rm ++ lowBits rm ++ sbz
  | .ldr3 rd immed8 => 0b01001#5 ++ bits3 rd ++ immed8
  | .str2 rm rn rd => 0b0101000#7 ++ bits3 rm ++ bits3 rn ++ bits3 rd
  | .strh2 rm rn rd => 0b0101001#7 ++ bits3 rm ++ bits3 rn ++ bits3 rd
  | .strb2 rm rn rd => 0b0101010#7 ++ bits3 rm ++ bits3 rn ++ bits3 rd
  | .ldrsb rm rn rd => 0b0101011#7 ++ bits3 rm ++ bits3 rn ++ bits3 rd
  | .ldr2 rm rn rd => 0b0101100#7 ++ bits3 rm ++ bits3 rn ++ bits3 rd
  | .ldrh2 rm rn rd => 0b0101101#7 ++ bits3 rm ++ bits3 rn ++ bits3 rd
  | .ldrb2 rm rn rd => 0b0101110#7 ++ bits3 rm ++ bits3 rn ++ bits3 rd
  | .ldrsh rm rn rd => 0b0101111#7 ++ bits3 rm ++ bits3 rn ++ bits3 rd
  | .str1 immed5 rn rd => 0b01100#5 ++ immed5 ++ bits3 rn ++ bits3 rd
  | .ldr1 immed5 rn rd => 0b01101#5 ++ immed5 ++ bits3 rn ++ bits3 rd
  | .strb1 immed5 rn rd => 0b01110#5 ++ immed5 ++ bits3 rn ++ bits3 rd
  | .ldrb1 immed5 rn rd => 0b01111#5 ++ immed5 ++ bits3 rn ++ bits3 rd
  | .strh1 immed5 rn rd => 0b10000#5 ++ immed5 ++ bits3 rn ++ bits3 rd
  | .ldrh1 immed5 rn rd => 0b10001#5 ++ immed5 ++ bits3 rn ++ bits3 rd
  | .str3 rd immed8 => 0b10010#5 ++ bits3 rd ++ immed8
  | .ldr4 rd immed8 => 0b10011#5 ++ bits3 rd ++ immed8
  | .add5 rd immed8 => 0b10100#5 ++ bits3 rd ++ immed8
  | .add6 rd immed8 => 0b10101#5 ++ bits3 rd ++ immed8
  | .add7 immed7 => 0b101100000#9 ++ immed7
  | .sub4 immed7 => 0b101100001#9 ++ immed7
  | .push r list => 0b1011010#7 ++ bit1 r ++ list
  | .pop r list => 0b1011110#7 ++ bit1 r ++ list
  | .bkpt immed8 => 0b10111110#8 ++ immed8
  | .stmia rn list => 0b11000#5 ++ bits3 rn ++ list
  | .ldmia rn list => 0b11001#5 ++ bits3 rn ++ list
  | .b1 cond simmed8 => 0b1101#4 ++ cond.code ++ simmed8
  | .swi immed8 => 0b11011111#8 ++ immed8
  | .b2 simmed11 => 0b11100#5 ++ simmed11
  | .blxH01 offset11 => 0b11101#5 ++ offset11
  | .blH10 offset11 => 0b11110#5 ++ offset11
  | .blH11 offset11 => 0b11111#5 ++ offset11

end Sys2Proof
end

