-- ==== Sys2Proof/Machine/State.lean ====
section
/-! DEFINITION. The state of the machine (10_state.md), the ways a step can stop (00_scope.md R13; 60_exceptions.md
R271), the launch state and the state after reset (10_state.md R40; 70_reset_and_hazards.md R301). -/

namespace Sys2Proof.Machine

open Sys2Proof

/-- The width of a memory access (20_memory.md R51). -/
inductive Width where
  | byte
  | half
  | word
deriving DecidableEq, Repr

/-- The number of bytes of an access. -/
def Width.bytes : Width → Nat
  | .byte => 1
  | .half => 2
  | .word => 4

/-- The two traps (60_exceptions.md R271). -/
inductive TrapKind where
  | softwareInterrupt
  | breakpoint
deriving DecidableEq, Repr

/-- What a trap hands to the environment: `Trap(kind, imm8, ret)` (60_exceptions.md R271, R274). -/
structure Trap where
  kind : TrapKind
  imm8 : BitVec 8
  ret : Word
deriving DecidableEq, Repr

/-- The four condition-code flags (10_state.md R29). -/
structure Flags where
  n : Bool := false
  z : Bool := false
  c : Bool := false
  v : Bool := false
deriving DecidableEq, Repr

/-- Memory contents: the bytes that differ from what an unlisted address reads as, by rising address (10_state.md R39;
entry 7). Which addresses exist is `Config.admitted`. -/
abbrev Memory := List Host.Cell

/-- The state: everything 10_state.md lists, the launch parameters, and the model's own field `trap` (entries 1, 8). -/
structure State where
  /-- R0 to R14 (10_state.md R20 to R23); register 15 is `pc`. -/
  regs : Vector Word 15
  /-- The address of the instruction to execute next (10_state.md R24). -/
  pc : Word
  /-- N, Z, C and V (10_state.md R29 to R32). -/
  flags : Flags
  /-- The T flag: true while THUMB code is executed (10_state.md R33). -/
  t : Bool
  /-- The halt of the HDL profile (10_state.md R38). -/
  halted : Bool
  /-- Memory contents (10_state.md R39). -/
  mem : Memory
  /-- The byte addresses stored to since launch, rising; kept with `SMC = fault` only (10_state.md R38; 20_memory.md
  R66). -/
  stored : List Nat
  /-- The MODEL's own: what SWI or BKPT handed to the environment (60_exceptions.md R274; entry 8). -/
  trap : Option Trap
  /-- The launch parameters, which no step changes (00_scope.md R5; entry 1). -/
  cfg : Config
deriving DecidableEq, Repr

/-- The reasons of `Unpredictable` (60_exceptions.md R271). -/
inductive Reason where
  | cmp3LowLow
  | mov3LowLow
  | emptyList
  | sbz
  | ldmiaBaseInList
  | stmiaBaseInList
  | popPcBit0
  | blxLr
  | pcWrap
  | addressWrap
deriving DecidableEq, Repr

/-- The ways the machine stops with a fault (00_scope.md R13). Each is safe: the hardware may go on where the model
stops. -/
inductive Fault where
  /-- A step at `halted = true`: no step is taken (10_state.md R38). Raised by `step`. Safe. -/
  | halted
  /-- The word is no instruction for these parameters (30_encoding.md R98, R108; 43_branch.md R190). Raised by `step`
  on a word the decoder rejects, by BLX_H01, BLX_2 and BKPT with `TVARIANT = 4`, and by B_1 with condition 1110 under
  `COND_1110 = undefined`. Safe. -/
  | undefinedInstruction (word : InstrWord)
  /-- A 2- or 4-byte access at an address that is no multiple of its size (20_memory.md R54). Raised by loads, stores
  and block transfers. Safe. -/
  | alignmentFault (addr : Word) (n : Width)
  /-- An access, fetch included, that touches a byte outside `MEM` (20_memory.md R61). Raised by `step`, loads, stores
  and block transfers. Safe. -/
  | memoryNotAdmitted (addr : Word) (n : Width)
  /-- With `SMC = fault`, a fetch of a byte stored to since launch (20_memory.md R66). Raised by `step`. Safe. -/
  | selfModifyingCode (addr : Word)
deriving DecidableEq, Repr

/-- The ways a step has no meaning (00_scope.md R13). Each is safe: nothing can be proved of what follows. -/
inductive Refusal where
  /-- The instruction has no meaning in this model yet. Raised by `exec`. Safe. -/
  | notModelled (mnemonic : String)
  /-- An encoding or operand combination the source forbids or leaves undecided (30_encoding.md R100; 10_state.md R28;
  20_memory.md R68). Raised by the meanings. Safe. -/
  | unpredictable (reason : Reason)
  /-- An instruction the HDL profile lacks (30_encoding.md R109). Raised by the meanings. Safe. -/
  | notImplementedInHDL (mnemonic : String)
  /-- A step at `T = 0`: ARM code is to be executed at `target`, which the spec does not describe (60_exceptions.md
  R276; entry 9). Raised by `step`. Safe. -/
  | leftThumbState (target : Word)
  /-- A step after SWI or BKPT: the environment has the trap, and the spec describes no handler (60_exceptions.md R274;
  entry 8). Raised by `step`. Safe. -/
  | trapped (trap : Trap)
deriving DecidableEq, Repr

/-- What a step or a meaning answers. -/
abbrev Result := Host.Outcome State Fault Refusal

/-- A check that failed: a fault or a refusal. -/
inductive Stop where
  | fault (f : Fault)
  | refusal (r : Refusal)
deriving DecidableEq, Repr

/-- A launch state (70_reset_and_hazards.md R301): `pc = ENTRY`, `T = 1`, not halted, nothing stored to, no trap; the
parameters, the registers, the flags and the contents of memory are the launch's to choose. -/
def State.launch (cfg : Config) (entry : Word) (regs : Vector Word 15) (flags : Flags) (mem : Memory) : State :=
  { regs := regs, pc := entry, flags := flags, t := true, halted := false, mem := mem, stored := [], trap := none,
    cfg := cfg }

/-- The registers at reset. The spec gives them no value (10_state.md R40). DESIGN CHOICE: zero (entry 3), and SP at
0x3000, a multiple of 4 with room below it, as 70_reset_and_hazards.md R302 asks (entry 4). -/
def State.resetRegs : Vector Word 15 := #v[0, 0, 0, 0, 0, 0, 0, 0, 0, 0, 0, 0, 0, 0x3000, 0]

/-- The machine after reset: the launch with the default parameters of 00_scope.md R5. The spec leaves ENTRY, the flags
and MEM to the launch (10_state.md R40). DESIGN CHOICE: ENTRY = 0, flags false, every byte present and 0 (entries 2, 5,
7). -/
def State.reset : State := State.launch {} 0 State.resetRegs {} []

end Sys2Proof.Machine
end

