-- ==== Sys2Proof/Machine/Ops.lean ====
section
/-! DEFINITION. The named operations over registers, the pc and memory (00_scope.md R8; 20_memory.md), the order in
which an instruction ends (60_exceptions.md R273), and the exits to the environment (60_exceptions.md R274 to R276). -/

namespace Sys2Proof.Machine

open Sys2Proof

/-! ## Registers and the pc -/

/-- `v[31:1]:0`. -/
def clearBit0 (v : Word) : Word := v &&& 0xFFFFFFFE#32

/-- `v[31:2]:00`. -/
def clearLow2 (v : Word) : Word := v &&& 0xFFFFFFFC#32

/-- `PCval`, what an instruction that reads the PC reads (00_scope.md R9; 10_state.md R25). -/
def State.pcValue (s : State) : Word := s.pc + s.cfg.pcReadOffset

/-- The address of the next instruction, `pc + 2` (10_state.md R25, R26). -/
def State.nextPc (s : State) : Word := s.pc + 2#32

/-- `x[i]` as a source: R0 to R14, or `PCval` for 15 (00_scope.md R8). -/
def State.reg (s : State) (i : Reg) : Word :=
  if h : i.val < 15 then s.regs[i.val] else s.pcValue

/-- `x[i] <- v`. For 15 it is a branch: bit 0 is dropped and T is unchanged (10_state.md R27). -/
def State.setReg (s : State) (i : Reg) (v : Word) : State :=
  if h : i.val < 15 then { s with regs := s.regs.set i.val v } else { s with pc := clearBit0 v }

/-- Write registers one after the other. -/
def State.setRegs (s : State) : List (Reg × Word) → State
  | [] => s
  | (i, v) :: rest => (s.setReg i v).setRegs rest

/-! ## How a step ends -/

/-- The outcome of a failed check. -/
def Stop.result : Stop → Result
  | .fault f => .fault f
  | .refusal r => .refused r

/-- A refusal for a reason of 60_exceptions.md R271. -/
def unpredictable (r : Reason) : Result := .refused (.unpredictable r)

/-- Go on if no check failed (60_exceptions.md R273). -/
def afterCheck (check : Option Stop) (k : Result) : Result :=
  match check with
  | none => k
  | some stop => stop.result

/-- The last check of an instruction that does not branch: refused at 0xFFFFFFFE, where the next instruction's address
would wrap (10_state.md R28; 60_exceptions.md R273, line 11). -/
def State.unlessTop (s : State) (k : Result) : Result :=
  if s.pc = 0xFFFFFFFE#32 then unpredictable .pcWrap else k

/-- The end of an instruction that does not branch: `pc <- pc + 2` after the last check (10_state.md R26, R28). `s` is the
state with the instruction's other writes done; none of them is to `pc`. -/
def State.retire (s : State) : Result := s.unlessTop (.next { s with pc := s.nextPc })

/-- The end of an instruction that writes register `i` and does nothing else: a branch for 15, else as `retire`
(10_state.md R26, R27). -/
def State.writeBack (s : State) (i : Reg) (v : Word) : Result :=
  if i = pcReg then .next (s.setReg i v) else (s.setReg i v).retire

/-- The end of a branch within THUMB code. -/
def State.branchTo (s : State) (target : Word) : Result := .next { s with pc := target }

/-- An instruction the HDL profile lacks (30_encoding.md R109). -/
def State.archOnly (s : State) (mnemonic : String) (k : Result) : Result :=
  match s.cfg.profile with
  | .arch => k
  | .hdl => .refused (.notImplementedInHDL mnemonic)

/-- An instruction that needs `TVARIANT >= 5`: with 4 its word is no instruction (30_encoding.md R108). -/
def State.fromV5 (s : State) (word : InstrWord) (k : Result) : Result :=
  match s.cfg.tvariant with
  | .v5 => k
  | .v4 => .fault (.undefinedInstruction word)

/-! ## Memory contents -/

/-- What an address that is not listed reads as. DESIGN CHOICE: 0 (entry 7). -/
def Memory.unlisted : Byte := 0

/-- The canonical form: addresses below 2^32, strictly rising, and no byte that an unlisted address reads as. -/
abbrev Memory.wf (m : Memory) : Prop :=
  m.Pairwise (fun p q => p.1 < q.1) ∧ ∀ c ∈ m, c.1 < 4294967296 ∧ c.2 ≠ Memory.unlisted

/-- The byte at address `a`. -/
def Memory.byteAt (m : Memory) (a : Nat) : Byte :=
  match m.find? (fun c => c.1 == a) with
  | some c => c.2
  | none => Memory.unlisted

/-- `m` with the cell `(a, b)` before the first cell of a higher address. -/
def Memory.insert (m : Memory) (a : Nat) (b : Byte) : Memory :=
  match m with
  | [] => [(a, b)]
  | c :: rest => if a < c.1 then (a, b) :: c :: rest else c :: Memory.insert rest a b

/-- `m` with byte `b` at address `a`, in canonical form. -/
def Memory.setByte (m : Memory) (a : Nat) (b : Byte) : Memory :=
  let others := m.filter (fun c => c.1 != a)
  if b = Memory.unlisted then others else Memory.insert others a b

/-- `m` with the bytes `bs` at `a`, `a + 1`, ... -/
def Memory.setBytes (m : Memory) (a : Nat) : List Byte → Memory
  | [] => m
  | b :: bs => Memory.setBytes (Memory.setByte m a b) (a + 1) bs

/-- The bytes at `a`, `a + 1`, ..., `a + n - 1`. -/
def Memory.bytesAt (m : Memory) (a : Nat) : Nat → List Byte
  | 0 => []
  | n + 1 => Memory.byteAt m a :: Memory.bytesAt m (a + 1) n

/-- A set of addresses as a strictly rising list, with `a` in it. -/
def addAddress (l : List Nat) (a : Nat) : List Nat :=
  match l with
  | [] => [a]
  | x :: rest => if a < x then a :: x :: rest else if a = x then x :: rest else x :: addAddress rest a

/-- The set with `a`, `a + 1`, ..., `a + n - 1` in it. -/
def addAddresses (l : List Nat) (a : Nat) : Nat → List Nat
  | 0 => l
  | n + 1 => addAddresses (addAddress l a) (a + 1) n

/-! ## Byte order (20_memory.md R52) -/

/-- The number whose bytes are `bs`, least significant first. -/
def joinBytes : List Byte → Nat
  | [] => 0
  | b :: bs => b.toNat + 256 * joinBytes bs

/-- The lowest `n` bytes of `v`, least significant first. -/
def splitBytes (v : Word) : Nat → List Byte
  | 0 => []
  | n + 1 => v.setWidth 8 :: splitBytes (v >>> 8) n

/-- The value of bytes in address order (20_memory.md R56). -/
def joinOrdered (e : Endian) (bs : List Byte) : Word :=
  match e with
  | .little => BitVec.ofNat 32 (joinBytes bs)
  | .big => BitVec.ofNat 32 (joinBytes bs.reverse)

/-- The low `n` bytes of `v` in address order (20_memory.md R57). -/
def splitOrdered (e : Endian) (v : Word) (n : Nat) : List Byte :=
  match e with
  | .little => splitBytes v n
  | .big => (splitBytes v n).reverse

/-! ## Accesses (20_memory.md R54 to R57) -/

/-- Whether all `n` bytes at `a` are in `MEM` (20_memory.md R61). -/
def State.admitsAll (s : State) (a : Word) (n : Width) : Bool :=
  (List.range n.bytes).all (fun i => s.cfg.admits (a.toNat + i))

/-- The checks of an access, alignment then admission (20_memory.md R56, R57). -/
def State.accessFault (s : State) (a : Word) (n : Width) : Option Fault :=
  if a.toNat % n.bytes ≠ 0 then some (.alignmentFault a n)
  else if s.admitsAll a n then none
  else some (.memoryNotAdmitted a n)

/-- The value at `a`, unchecked: `8n` bits, zero-extended (20_memory.md R56). -/
def State.peek (s : State) (a : Word) (n : Width) : Word :=
  joinOrdered s.cfg.endian (Memory.bytesAt s.mem a.toNat n.bytes)

/-- The low `8n` bits of `v` stored at `a`, unchecked (20_memory.md R57), the addresses noted under `SMC = fault`
(20_memory.md R66). -/
def State.poke (s : State) (a : Word) (n : Width) (v : Word) : State :=
  { s with
    mem := Memory.setBytes s.mem a.toNat (splitOrdered s.cfg.endian v n.bytes)
    stored := match s.cfg.smc with
      | .fault => addAddresses s.stored a.toNat n.bytes
      | .coherent => s.stored }

/-- `MemRead(addr, n)` (20_memory.md R56). -/
def State.memRead (s : State) (a : Word) (n : Width) : Except Fault Word :=
  match s.accessFault a n with
  | some f => .error f
  | none => .ok (s.peek a n)

/-- `MemWrite(addr, n, v)` (20_memory.md R57). -/
def State.memWrite (s : State) (a : Word) (n : Width) (v : Word) : Except Fault State :=
  match s.accessFault a n with
  | some f => .error f
  | none => .ok (s.poke a n v)

/-- A load of width `n` at `a`, widened by `widen`, into `rd` (46_load_store.md R240). -/
def State.loadInto (s : State) (rd : LowReg) (a : Word) (n : Width) (widen : Word → Word) : Result :=
  match s.memRead a n with
  | .error f => .fault f
  | .ok v => (s.setReg (lo rd) (widen v)).retire

/-- A store of the low `8n` bits of `rd` at `a` (46_load_store.md R240). -/
def State.storeFrom (s : State) (rd : LowReg) (a : Word) (n : Width) : Result :=
  match s.memWrite a n (s.reg (lo rd)) with
  | .error f => .fault f
  | .ok s' => s'.retire

/-! ## Block transfers (45_load_store_multiple.md R220) -/

/-- The address of word `j` of a block. -/
def wordAddr (start : Word) (j : Nat) : Word := start + BitVec.ofNat 32 (4 * j)

/-- `CheckBlock(start, k)` (45_load_store_multiple.md R220). -/
def State.checkBlock (s : State) (start : Word) (k : Nat) : Option Stop :=
  if k = 0 then some (.refusal (.unpredictable .emptyList))
  else if start.toNat % 4 ≠ 0 then some (.fault (.alignmentFault start .word))
  else if 4294967296 < start.toNat + 4 * k then some (.refusal (.unpredictable .addressWrap))
  else match (List.range k).find? (fun j => !s.admitsAll (wordAddr start j) .word) with
    | some j => some (.fault (.memoryNotAdmitted (wordAddr start j) .word))
    | none => none

/-- The `k` words of a block, unchecked. -/
def State.peekWords (s : State) (start : Word) (k : Nat) : List Word :=
  (List.range k).map (fun j => s.peek (wordAddr start j) .word)

/-- The words `vs` stored at `a`, `a + 4`, ..., unchecked. -/
def State.pokeWords (s : State) (a : Word) : List Word → State
  | [] => s
  | v :: vs => (s.poke a .word v).pokeWords (a + 4#32) vs

/-! ## Fetch (20_memory.md R55, R66) -/

/-- Whether a fetch at `pc` touches a byte stored to since launch (20_memory.md R66). -/
def State.fetchesStored (s : State) : Bool :=
  s.cfg.smc == .fault && (s.stored.contains s.pc.toNat || s.stored.contains (s.pc.toNat + 1))

/-- The instruction word at `pc`, or why there is none (60_exceptions.md R273, lines 3 and 4). -/
def State.fetch (s : State) : Except Fault InstrWord :=
  match s.memRead s.pc .half with
  | .error f => .error f
  | .ok v => if s.fetchesStored then .error (.selfModifyingCode s.pc) else .ok (v.setWidth 16)

/-! ## Exits to the environment, and the way back -/

/-- Take a trap: the environment is handed `kind`, `imm8` and the address of the next instruction, and no register,
flag or memory byte changes, the pc included (60_exceptions.md R274). It is refused at 0xFFFFFFFE like any step that does
not branch (10_state.md R28; 60_exceptions.md R273, line 11; entry 11). The next `step` stops (entry 8). -/
def State.takeTrap (s : State) (kind : TrapKind) (imm8 : BitVec 8) : Result :=
  s.unlessTop (.next { s with trap := some { kind := kind, imm8 := imm8, ret := s.nextPc } })

/-- What 60_exceptions.md R275 fixes of a return from a trap, which no instruction makes: the environment resumes at
`ret`. What else its handler changed is for the environment to say (entry 32). -/
def State.resumeFromTrap (s : State) : State :=
  match s.trap with
  | some e => { s with pc := e.ret, trap := none }
  | none => s

/-- Branch and exchange: T takes bit 0 of the value and the pc the rest (43_branch.md R196, R197). With bit 0 clear the
machine leaves THUMB state, and the next `step` stops (60_exceptions.md R276; entry 9). -/
def State.branchExchange (s : State) (v : Word) : Result :=
  .next { s with t := v.getLsbD 0, pc := clearBit0 v }

/-- The halt of the HDL profile, at the next instruction's address (44_system.md R211), refused at 0xFFFFFFFE like any
step that does not branch (10_state.md R28). The next `step` stops (entry 10). -/
def State.halt (s : State) : Result := ({ s with halted := true } : State).retire

/-- The link value: the address of the next instruction, with bit 0 set (43_branch.md R193). -/
def State.linkValue (s : State) : Word := s.nextPc ||| 1#32

end Sys2Proof.Machine
end

