-- ==== Sys2Proof/Machine/Flags.lean ====
section
/-! DEFINITION. The results and flags of the arithmetic and the shifts (00_scope.md R10, R11), the flag writes
(10_state.md R30 to R32; 40_arithmetic.md R120; 42_shift_rotate.md R170) and the conditions (00_scope.md R12). -/

namespace Sys2Proof.Machine

open Sys2Proof

/-- The triple `(result, carry, overflow)` of 00_scope.md R10. -/
structure Sum where
  result : Word
  carry : Bool
  overflow : Bool
deriving DecidableEq, Repr

/-- `AddWithCarry(a, b, cin)` (00_scope.md R10): the unbounded unsigned and signed sums, narrowed. -/
def addWithCarry (a b : Word) (cin : Bool) : Sum :=
  let usum : Nat := a.toNat + b.toNat + cin.toNat
  let ssum : Int := a.toInt + b.toInt + cin.toNat
  { result := BitVec.ofNat 32 usum
    carry := decide (4294967296 ≤ usum)
    overflow := decide (ssum < -2147483648 ∨ 2147483647 < ssum) }

/-- The addition `a + b` (00_scope.md R10). -/
def addition (a b : Word) : Sum := addWithCarry a b false

/-- The subtraction `a - b` (00_scope.md R10). -/
def subtraction (a b : Word) : Sum := addWithCarry a (~~~b) true

/-- The pair `(result, carry)` of 00_scope.md R11; no carry stands for `unchanged`. -/
structure Shifted where
  result : Word
  carry : Option Bool
deriving DecidableEq, Repr

/-- `LSL_C(v, n)` (00_scope.md R11). -/
def lslC (v : Word) (n : Nat) : Shifted :=
  if n = 0 then ⟨v, none⟩
  else if n ≤ 31 then ⟨v <<< n, some (v.getLsbD (32 - n))⟩
  else if n = 32 then ⟨0, some (v.getLsbD 0)⟩
  else ⟨0, some false⟩

/-- `LSR_C(v, n)` (00_scope.md R11). -/
def lsrC (v : Word) (n : Nat) : Shifted :=
  if n = 0 then ⟨v, none⟩
  else if n ≤ 31 then ⟨v >>> n, some (v.getLsbD (n - 1))⟩
  else if n = 32 then ⟨0, some (v.getLsbD 31)⟩
  else ⟨0, some false⟩

/-- `ASR_C(v, n)` (00_scope.md R11). -/
def asrC (v : Word) (n : Nat) : Shifted :=
  if n = 0 then ⟨v, none⟩
  else if n ≤ 31 then ⟨v.sshiftRight n, some (v.getLsbD (n - 1))⟩
  else ⟨if v.getLsbD 31 then 0xFFFFFFFF#32 else 0x00000000#32, some (v.getLsbD 31)⟩

/-- `ROR_C(v, n)` (00_scope.md R11). -/
def rorC (v : Word) (n : Nat) : Shifted :=
  if n = 0 then ⟨v, none⟩
  else if n % 32 = 0 then ⟨v, some (v.getLsbD 31)⟩
  else ⟨(v >>> (n % 32)) ||| (v <<< (32 - n % 32)), some (v.getLsbD (n % 32 - 1))⟩

/-- `SetNZ(r)` (40_arithmetic.md R120; 10_state.md R30). -/
def State.setNZ (s : State) (r : Word) : State :=
  { s with flags := { s.flags with n := r.getLsbD 31, z := r == 0#32 } }

/-- `SetNZCV(r, c, v)` (40_arithmetic.md R120). -/
def State.setNZCV (s : State) (r : Sum) : State :=
  { s with flags := { n := r.result.getLsbD 31, z := r.result == 0#32, c := r.carry, v := r.overflow } }

/-- `SetNZC(r, c)` (42_shift_rotate.md R170). -/
def State.setNZC (s : State) (r : Shifted) : State :=
  { s with flags := { s.flags with
      n := r.result.getLsbD 31, z := r.result == 0#32, c := r.carry.getD s.flags.c } }

/-- `ConditionPassed(cond)`, Table A.1 (00_scope.md R12). -/
def conditionPassed (cond : Cond) (f : Flags) : Bool :=
  match cond with
  | .eq => f.z
  | .ne => !f.z
  | .cs => f.c
  | .cc => !f.c
  | .mi => f.n
  | .pl => !f.n
  | .vs => f.v
  | .vc => !f.v
  | .hi => f.c && !f.z
  | .ls => !f.c || f.z
  | .ge => f.n == f.v
  | .lt => f.n != f.v
  | .gt => !f.z && f.n == f.v
  | .le => f.z || f.n != f.v
  | .al => true

end Sys2Proof.Machine
end

