-- ==== Sys2Proof/Machine/Operands.lean ====
section
/-! DEFINITION. How the fields of an instruction become operands: immediates (30_encoding.md R85), shift amounts
(42_shift_rotate.md R170), register lists (30_encoding.md R86), addresses (46_load_store.md R240) and branch
displacements (43_branch.md). -/

namespace Sys2Proof.Machine

open Sys2Proof

/-! ## Immediates and shift amounts -/

/-- An unsigned immediate, zero-extended (30_encoding.md R85). -/
def immediate {w : Nat} (v : BitVec w) : Word := v.setWidth 32

/-- An unsigned immediate times a scale of 1, 2 or 4 (30_encoding.md R85). -/
def scaled {w : Nat} (v : BitVec w) (scale : Nat) : Word := immediate v * BitVec.ofNat 32 scale

/-- The amount of LSR_1 and ASR_1: `immed5 = 00000` denotes 32 (30_encoding.md R85). -/
def rightAmount (immed5 : BitVec 5) : Nat := if immed5 = 0#5 then 32 else immed5.toNat

/-- The amount of a register shift: the least significant byte of Rs (42_shift_rotate.md R170). -/
def registerAmount (rs : Word) : Nat := (rs.extractLsb' 0 8).toNat

/-! ## Register lists -/

/-- The low registers in ascending order. -/
def lowRegs : List LowReg := [0, 1, 2, 3, 4, 5, 6, 7]

/-- The registers of a list, ascending (45_load_store_multiple.md R220). -/
def listRegs (list : BitVec 8) : List Reg := (lowRegs.filter (listed list)).map lo

/-- The registers of a list followed by LR or PC when the `R` bit is set (45_load_store_multiple.md R220). -/
def listRegsWith (list : BitVec 8) (r : Bool) (extra : Reg) : List Reg :=
  listRegs list ++ (if r then [extra] else [])

/-! ## Addresses (46_load_store.md R240) -/

/-- Register plus scaled 5-bit immediate. -/
def State.addrImmediate (s : State) (rn : LowReg) (immed5 : BitVec 5) (scale : Nat) : Word :=
  s.reg (lo rn) + scaled immed5 scale

/-- Register plus register. -/
def State.addrRegister (s : State) (rn rm : LowReg) : Word := s.reg (lo rn) + s.reg (lo rm)

/-- PC-relative: `PCval` with bits 1 and 0 cleared, plus `immed8 * 4`. -/
def State.addrPc (s : State) (immed8 : BitVec 8) : Word := clearLow2 s.pcValue + scaled immed8 4

/-- SP-relative. -/
def State.addrSp (s : State) (immed8 : BitVec 8) : Word := s.reg spReg + scaled immed8 4

/-! ## Widening of loaded data (20_memory.md R58) -/

/-- A word, or narrower data zero-extended: memory reads are so already. -/
def widenZero (v : Word) : Word := v

/-- A byte, sign-extended. -/
def widenByte (v : Word) : Word := (v.setWidth 8).signExtend 32

/-- A halfword, sign-extended. -/
def widenHalf (v : Word) : Word := (v.setWidth 16).signExtend 32

/-! ## Branch displacements -/

/-- `sext_32(imm : 0)` (43_branch.md R190, R191). -/
def branchOffset {w : Nat} (v : BitVec w) : Word := (v ++ 0#1).signExtend 32

/-- The high part of a BL offset, `sext_32(offset11 : 000000000000)` (43_branch.md R192). -/
def blHigh (offset11 : BitVec 11) : Word := (offset11 ++ 0#12).signExtend 32

/-- The low part of a BL offset, by `BL_LOW_EXT` (43_branch.md R193). -/
def State.blLow (s : State) (offset11 : BitVec 11) : Word :=
  match s.cfg.blLowExt with
  | .zero => (offset11 ++ 0#1).setWidth 32
  | .sign => (offset11 ++ 0#1).signExtend 32

end Sys2Proof.Machine
end

