-- ==== Sys2Proof/Machine/Arithmetic.lean ====
section
/-! DEFINITION. Arithmetic and compare instructions (40_arithmetic.md R121 to R139). -/

namespace Sys2Proof.Machine

open Sys2Proof

/-- `x[Rd] <- r; SetNZCV(r, c, v)`, then the next instruction (40_arithmetic.md R120). -/
def State.writeSum (s : State) (rd : LowReg) (r : Sum) : Result :=
  ((s.setReg (lo rd) r.result).setNZCV r).retire

/-- `SetNZCV(r, c, v)` with the result not stored, then the next instruction. -/
def State.compareSum (s : State) (r : Sum) : Result := (s.setNZCV r).retire

/-- ADC (40_arithmetic.md R121). -/
def execAdc (rm rd : LowReg) (s : State) : Result :=
  s.writeSum rd (addWithCarry (s.reg (lo rd)) (s.reg (lo rm)) s.flags.c)

/-- ADD_1 (40_arithmetic.md R122). -/
def execAdd1 (immed3 : BitVec 3) (rn rd : LowReg) (s : State) : Result :=
  s.writeSum rd (addition (s.reg (lo rn)) (immediate immed3))

/-- ADD_2 (40_arithmetic.md R123). -/
def execAdd2 (rd : LowReg) (immed8 : BitVec 8) (s : State) : Result :=
  s.writeSum rd (addition (s.reg (lo rd)) (immediate immed8))

/-- ADD_3 (40_arithmetic.md R124). -/
def execAdd3 (rm rn rd : LowReg) (s : State) : Result :=
  s.writeSum rd (addition (s.reg (lo rn)) (s.reg (lo rm)))

/-- ADD_4 (40_arithmetic.md R125). -/
def execAdd4 (rm rd : Reg) (s : State) : Result :=
  s.archOnly "ADD_4" (s.writeBack rd (s.reg rd + s.reg rm))

/-- ADD_5 (40_arithmetic.md R126). -/
def execAdd5 (rd : LowReg) (immed8 : BitVec 8) (s : State) : Result :=
  s.writeBack (lo rd) (clearLow2 s.pcValue + scaled immed8 4)

/-- ADD_6 (40_arithmetic.md R127). -/
def execAdd6 (rd : LowReg) (immed8 : BitVec 8) (s : State) : Result :=
  s.writeBack (lo rd) (s.reg spReg + scaled immed8 4)

/-- ADD_7 (40_arithmetic.md R128). -/
def execAdd7 (immed7 : BitVec 7) (s : State) : Result :=
  s.writeBack spReg (s.reg spReg + scaled immed7 4)

/-- CMN (40_arithmetic.md R129). -/
def execCmn (rm rn : LowReg) (s : State) : Result :=
  s.compareSum (addition (s.reg (lo rn)) (s.reg (lo rm)))

/-- CMP_1 (40_arithmetic.md R130). -/
def execCmp1 (rn : LowReg) (immed8 : BitVec 8) (s : State) : Result :=
  s.compareSum (subtraction (s.reg (lo rn)) (immediate immed8))

/-- CMP_2 (40_arithmetic.md R131). -/
def execCmp2 (rm rn : LowReg) (s : State) : Result :=
  s.compareSum (subtraction (s.reg (lo rn)) (s.reg (lo rm)))

/-- CMP_3 (40_arithmetic.md R132): refused when both registers are low. -/
def execCmp3 (rm rn : Reg) (s : State) : Result :=
  s.archOnly "CMP_3" (
    if rn.val < 8 ∧ rm.val < 8 then unpredictable .cmp3LowLow
    else s.compareSum (subtraction (s.reg rn) (s.reg rm)))

/-- MUL (40_arithmetic.md R133): the low 32 bits of the unbounded product; C and V unchanged. -/
def execMul (rm rd : LowReg) (s : State) : Result :=
  let r := BitVec.ofNat 32 ((s.reg (lo rm)).toNat * (s.reg (lo rd)).toNat)
  ((s.setReg (lo rd) r).setNZ r).retire

/-- NEG (40_arithmetic.md R134). -/
def execNeg (rm rd : LowReg) (s : State) : Result :=
  s.writeSum rd (subtraction 0x00000000#32 (s.reg (lo rm)))

/-- SBC (40_arithmetic.md R135). -/
def execSbc (rm rd : LowReg) (s : State) : Result :=
  s.writeSum rd (addWithCarry (s.reg (lo rd)) (~~~(s.reg (lo rm))) s.flags.c)

/-- SUB_1 (40_arithmetic.md R136). -/
def execSub1 (immed3 : BitVec 3) (rn rd : LowReg) (s : State) : Result :=
  s.writeSum rd (subtraction (s.reg (lo rn)) (immediate immed3))

/-- SUB_2 (40_arithmetic.md R137). -/
def execSub2 (rd : LowReg) (immed8 : BitVec 8) (s : State) : Result :=
  s.writeSum rd (subtraction (s.reg (lo rd)) (immediate immed8))

/-- SUB_3 (40_arithmetic.md R138). -/
def execSub3 (rm rn rd : LowReg) (s : State) : Result :=
  s.writeSum rd (subtraction (s.reg (lo rn)) (s.reg (lo rm)))

/-- SUB_4 (40_arithmetic.md R139). -/
def execSub4 (immed7 : BitVec 7) (s : State) : Result :=
  s.writeBack spReg (s.reg spReg - scaled immed7 4)

end Sys2Proof.Machine
end

