-- ==== Sys2Proof/Machine/Branch.lean ====
section
/-! DEFINITION. Branch, call and exchange instructions (43_branch.md R190 to R197). -/

namespace Sys2Proof.Machine

open Sys2Proof

/-- The target of BL_H11 and BLX_H01 before its low bits are cleared: LR plus the low part (43_branch.md R193). -/
def State.blTarget (s : State) (offset11 : BitVec 11) : Word := s.reg lrReg + s.blLow offset11

/-- B_1 (43_branch.md R190). With condition 1110 under `COND_1110 = undefined` the word is no instruction. -/
def execB1 (cond : Cond) (simmed8 : BitVec 8) (s : State) : Result :=
  if cond = .al ∧ s.cfg.cond1110 = .undefined then .fault (.undefinedInstruction (encode (.b1 cond simmed8)))
  else if conditionPassed cond s.flags then s.branchTo (s.pcValue + branchOffset simmed8)
  else s.retire

/-- B_2 (43_branch.md R191, R199). -/
def execB2 (simmed11 : BitVec 11) (s : State) : Result := s.branchTo (s.pcValue + branchOffset simmed11)

/-- BL_H10 (43_branch.md R192). -/
def execBlH10 (offset11 : BitVec 11) (s : State) : Result := s.writeBack lrReg (s.pcValue + blHigh offset11)

/-- BL_H11 (43_branch.md R193). -/
def execBlH11 (offset11 : BitVec 11) (s : State) : Result :=
  (s.setReg lrReg s.linkValue).branchTo (clearBit0 (s.blTarget offset11))

/-- BLX_H01 (43_branch.md R194): as BL_H11, with T cleared and the target made a multiple of 4. -/
def execBlxH01 (offset11 : BitVec 11) (s : State) : Result :=
  s.fromV5 (encode (.blxH01 offset11)) (
    s.archOnly "BLX_H01" (
      (s.setReg lrReg s.linkValue).branchExchange (clearLow2 (s.blTarget offset11))))

/-- BLX_2 (43_branch.md R196): Rm is read before LR is written, and is not LR. -/
def execBlx2 (rm : Reg) (sbz : BitVec 3) (s : State) : Result :=
  s.fromV5 (encode (.blx2 rm sbz)) (
    s.archOnly "BLX_2" (
      if sbz ≠ 0#3 then unpredictable .sbz
      else if rm = lrReg then unpredictable .blxLr
      else (s.setReg lrReg s.linkValue).branchExchange (s.reg rm)))

/-- BX (43_branch.md R197). -/
def execBx (rm : Reg) (sbz : BitVec 3) (s : State) : Result :=
  s.archOnly "BX" (
    if sbz ≠ 0#3 then unpredictable .sbz
    else s.branchExchange (s.reg rm))

end Sys2Proof.Machine
end

