-- ==== Sys2Proof/Machine/LoadStore.lean ====
section
/-! DEFINITION. Single-register loads and stores (46_load_store.md R241 to R257). -/

namespace Sys2Proof.Machine

open Sys2Proof

/-- LDR_1 (46_load_store.md R241). -/
def execLdr1 (immed5 : BitVec 5) (rn rd : LowReg) (s : State) : Result :=
  s.loadInto rd (s.addrImmediate rn immed5 4) .word widenZero

/-- LDR_2 (46_load_store.md R242). -/
def execLdr2 (rm rn rd : LowReg) (s : State) : Result :=
  s.loadInto rd (s.addrRegister rn rm) .word widenZero

/-- LDR_3 (46_load_store.md R243). -/
def execLdr3 (rd : LowReg) (immed8 : BitVec 8) (s : State) : Result :=
  s.loadInto rd (s.addrPc immed8) .word widenZero

/-- LDR_4 (46_load_store.md R244). -/
def execLdr4 (rd : LowReg) (immed8 : BitVec 8) (s : State) : Result :=
  s.loadInto rd (s.addrSp immed8) .word widenZero

/-- LDRB_1 (46_load_store.md R245). -/
def execLdrb1 (immed5 : BitVec 5) (rn rd : LowReg) (s : State) : Result :=
  s.loadInto rd (s.addrImmediate rn immed5 1) .byte widenZero

/-- LDRB_2 (46_load_store.md R246). -/
def execLdrb2 (rm rn rd : LowReg) (s : State) : Result :=
  s.loadInto rd (s.addrRegister rn rm) .byte widenZero

/-- LDRH_1 (46_load_store.md R247). -/
def execLdrh1 (immed5 : BitVec 5) (rn rd : LowReg) (s : State) : Result :=
  s.loadInto rd (s.addrImmediate rn immed5 2) .half widenZero

/-- LDRH_2 (46_load_store.md R248). -/
def execLdrh2 (rm rn rd : LowReg) (s : State) : Result :=
  s.loadInto rd (s.addrRegister rn rm) .half widenZero

/-- LDRSB (46_load_store.md R249). -/
def execLdrsb (rm rn rd : LowReg) (s : State) : Result :=
  s.loadInto rd (s.addrRegister rn rm) .byte widenByte

/-- LDRSH (46_load_store.md R250). -/
def execLdrsh (rm rn rd : LowReg) (s : State) : Result :=
  s.loadInto rd (s.addrRegister rn rm) .half widenHalf

/-- STR_1 (46_load_store.md R251). -/
def execStr1 (immed5 : BitVec 5) (rn rd : LowReg) (s : State) : Result :=
  s.storeFrom rd (s.addrImmediate rn immed5 4) .word

/-- STR_2 (46_load_store.md R252). -/
def execStr2 (rm rn rd : LowReg) (s : State) : Result :=
  s.storeFrom rd (s.addrRegister rn rm) .word

/-- STR_3 (46_load_store.md R253). -/
def execStr3 (rd : LowReg) (immed8 : BitVec 8) (s : State) : Result :=
  s.storeFrom rd (s.addrSp immed8) .word

/-- STRB_1 (46_load_store.md R254). -/
def execStrb1 (immed5 : BitVec 5) (rn rd : LowReg) (s : State) : Result :=
  s.storeFrom rd (s.addrImmediate rn immed5 1) .byte

/-- STRB_2 (46_load_store.md R255). -/
def execStrb2 (rm rn rd : LowReg) (s : State) : Result :=
  s.storeFrom rd (s.addrRegister rn rm) .byte

/-- STRH_1 (46_load_store.md R256). -/
def execStrh1 (immed5 : BitVec 5) (rn rd : LowReg) (s : State) : Result :=
  s.storeFrom rd (s.addrImmediate rn immed5 2) .half

/-- STRH_2 (46_load_store.md R257). -/
def execStrh2 (rm rn rd : LowReg) (s : State) : Result :=
  s.storeFrom rd (s.addrRegister rn rm) .half

end Sys2Proof.Machine
end

