-- ==== Sys2Proof/Machine/LoadStoreMultiple.lean ====
section
/-! DEFINITION. Load and store multiple, push and pop (45_load_store_multiple.md R220 to R224). -/

namespace Sys2Proof.Machine

open Sys2Proof

/-- The size of a block of `k` words in bytes. -/
def blockBytes (k : Nat) : Word := BitVec.ofNat 32 (4 * k)

/-- The lowest register of a list, for the HDL profile's single transfer (45_load_store_multiple.md R222, R223). -/
def firstListed (list : BitVec 8) : Option Reg := (listRegs list).head?

/-- LDMIA (45_load_store_multiple.md R221): refused with an empty list or the base in the list. -/
def execLdmia (rn : LowReg) (list : BitVec 8) (s : State) : Result :=
  s.archOnly "LDMIA" (
    let regs := listRegs list
    let k := regs.length
    let start := s.reg (lo rn)
    if k = 0 then unpredictable .emptyList
    else if listed list rn then unpredictable .ldmiaBaseInList
    else afterCheck (s.checkBlock start k)
      ((s.setRegs (regs.zip (s.peekWords start k))).setReg (lo rn) (start + blockBytes k)).retire)

/-- STMIA (45_load_store_multiple.md R224): a listed base stores its old value, and must be the lowest listed. -/
def execStmia (rn : LowReg) (list : BitVec 8) (s : State) : Result :=
  s.archOnly "STMIA" (
    let regs := listRegs list
    let k := regs.length
    let start := s.reg (lo rn)
    if k = 0 then unpredictable .emptyList
    else if listed list rn ∧ regs.head? ≠ some (lo rn) then unpredictable .stmiaBaseInList
    else afterCheck (s.checkBlock start k)
      ((s.pokeWords start (regs.map s.reg)).setReg (lo rn) (start + blockBytes k)).retire)

/-- POP in the ARCH profile (45_load_store_multiple.md R222): with `R = 1` the last word goes to the pc, and is refused
if its bit 0 is clear. -/
def State.popBlock (s : State) (r : Bool) (list : BitVec 8) : Result :=
  let regs := listRegs list
  let k := (listRegsWith list r pcReg).length
  let start := s.reg spReg
  let loaded := (s.setRegs (regs.zip (s.peekWords start k))).setReg spReg (start + blockBytes k)
  let target := s.peek (wordAddr start (k - 1)) .word
  afterCheck (s.checkBlock start k)
    (if r then
      if target.getLsbD 0 then loaded.branchTo (clearBit0 target) else unpredictable .popPcBit0
    else loaded.retire)

/-- POP in the HDL profile (45_load_store_multiple.md R222): the lowest listed register alone; R is ignored. -/
def State.popSingle (s : State) (list : BitVec 8) : Result :=
  match firstListed list with
  | none => unpredictable .emptyList
  | some i =>
    let start := s.reg spReg
    afterCheck (s.checkBlock start 1)
      ((s.setReg i (s.peek start .word)).setReg spReg (start + blockBytes 1)).retire

/-- POP (45_load_store_multiple.md R222). -/
def execPop (r : Bool) (list : BitVec 8) (s : State) : Result :=
  match s.cfg.profile with
  | .arch => s.popBlock r list
  | .hdl => s.popSingle list

/-- The checks of PUSH for `k` words below SP: not below address 0, then the block (45_load_store_multiple.md R223). -/
def State.checkPush (s : State) (k : Nat) : Option Stop :=
  if k = 0 then some (.refusal (.unpredictable .emptyList))
  else if (s.reg spReg).toNat < 4 * k then some (.refusal (.unpredictable .addressWrap))
  else s.checkBlock (s.reg spReg - blockBytes k) k

/-- PUSH of the registers `regs` (45_load_store_multiple.md R223). -/
def State.pushRegs (s : State) (regs : List Reg) : Result :=
  let start := s.reg spReg - blockBytes regs.length
  afterCheck (s.checkPush regs.length)
    ((s.pokeWords start (regs.map s.reg)).setReg spReg start).retire

/-- PUSH (45_load_store_multiple.md R223): in the HDL profile the lowest listed register alone, R ignored. -/
def execPush (r : Bool) (list : BitVec 8) (s : State) : Result :=
  match s.cfg.profile with
  | .arch => s.pushRegs (listRegsWith list r lrReg)
  | .hdl => s.pushRegs (firstListed list).toList

end Sys2Proof.Machine
end

