-- ==== Sys2Proof/Machine/Logical.lean ====
section
/-! DEFINITION. Logical, test and move instructions (41_logical_move.md R151 to R159). -/

namespace Sys2Proof.Machine

open Sys2Proof

/-- `x[Rd] <- r; SetNZ(r)`, then the next instruction (41_logical_move.md R150). -/
def State.writeLogical (s : State) (rd : LowReg) (r : Word) : Result :=
  ((s.setReg (lo rd) r).setNZ r).retire

/-- AND (41_logical_move.md R151). -/
def execAnd (rm rd : LowReg) (s : State) : Result := s.writeLogical rd (s.reg (lo rd) &&& s.reg (lo rm))

/-- BIC (41_logical_move.md R152). -/
def execBic (rm rd : LowReg) (s : State) : Result := s.writeLogical rd (s.reg (lo rd) &&& ~~~(s.reg (lo rm)))

/-- EOR (41_logical_move.md R153). -/
def execEor (rm rd : LowReg) (s : State) : Result := s.writeLogical rd (s.reg (lo rd) ^^^ s.reg (lo rm))

/-- MOV_1 (41_logical_move.md R154). -/
def execMov1 (rd : LowReg) (immed8 : BitVec 8) (s : State) : Result := s.writeLogical rd (immediate immed8)

/-- MOV_2 (41_logical_move.md R155): ADD_1 with `immed3 = 000`, so C and V are written too (90_conflicts.md C8). -/
def execMov2 (rn rd : LowReg) (s : State) : Result :=
  let r := addition (s.reg (lo rn)) 0x00000000#32
  ((s.setReg (lo rd) r.result).setNZCV r).retire

/-- MOV_3 (41_logical_move.md R156): refused when both registers are low. -/
def execMov3 (rm rd : Reg) (s : State) : Result :=
  s.archOnly "MOV_3" (
    if rd.val < 8 ∧ rm.val < 8 then unpredictable .mov3LowLow
    else s.writeBack rd (s.reg rm))

/-- MVN (41_logical_move.md R157). -/
def execMvn (rm rd : LowReg) (s : State) : Result := s.writeLogical rd (~~~(s.reg (lo rm)))

/-- ORR (41_logical_move.md R158). -/
def execOrr (rm rd : LowReg) (s : State) : Result := s.writeLogical rd (s.reg (lo rd) ||| s.reg (lo rm))

/-- TST (41_logical_move.md R159). -/
def execTst (rm rn : LowReg) (s : State) : Result :=
  (s.setNZ (s.reg (lo rn) &&& s.reg (lo rm))).retire

end Sys2Proof.Machine
end

