-- ==== Sys2Proof/Machine/Shift.lean ====
section
/-! DEFINITION. Shift and rotate instructions (42_shift_rotate.md R171 to R177). -/

namespace Sys2Proof.Machine

open Sys2Proof

/-- `x[Rd] <- r; SetNZC(r, c)`, then the next instruction (42_shift_rotate.md R170). -/
def State.writeShifted (s : State) (rd : LowReg) (r : Shifted) : Result :=
  ((s.setReg (lo rd) r.result).setNZC r).retire

/-- ASR_1 (42_shift_rotate.md R171). -/
def execAsr1 (immed5 : BitVec 5) (rm rd : LowReg) (s : State) : Result :=
  s.writeShifted rd (asrC (s.reg (lo rm)) (rightAmount immed5))

/-- ASR_2 (42_shift_rotate.md R172; the low byte of Rs, 90_conflicts.md C9). -/
def execAsr2 (rs rd : LowReg) (s : State) : Result :=
  s.writeShifted rd (asrC (s.reg (lo rd)) (registerAmount (s.reg (lo rs))))

/-- LSL_1 (42_shift_rotate.md R173): `immed5 = 0` is a shift by zero. -/
def execLsl1 (immed5 : BitVec 5) (rm rd : LowReg) (s : State) : Result :=
  s.writeShifted rd (lslC (s.reg (lo rm)) immed5.toNat)

/-- LSL_2 (42_shift_rotate.md R174). -/
def execLsl2 (rs rd : LowReg) (s : State) : Result :=
  s.writeShifted rd (lslC (s.reg (lo rd)) (registerAmount (s.reg (lo rs))))

/-- LSR_1 (42_shift_rotate.md R175). -/
def execLsr1 (immed5 : BitVec 5) (rm rd : LowReg) (s : State) : Result :=
  s.writeShifted rd (lsrC (s.reg (lo rm)) (rightAmount immed5))

/-- LSR_2 (42_shift_rotate.md R176). -/
def execLsr2 (rs rd : LowReg) (s : State) : Result :=
  s.writeShifted rd (lsrC (s.reg (lo rd)) (registerAmount (s.reg (lo rs))))

/-- ROR (42_shift_rotate.md R177). -/
def execRor (rs rd : LowReg) (s : State) : Result :=
  s.writeShifted rd (rorC (s.reg (lo rd)) (registerAmount (s.reg (lo rs))))

end Sys2Proof.Machine
end

