-- ==== Sys2Proof/Machine/System.lean ====
section
/-! DEFINITION. System instructions (44_system.md R210, R211). -/

namespace Sys2Proof.Machine

open Sys2Proof

/-- BKPT (44_system.md R210). -/
def execBkpt (immed8 : BitVec 8) (s : State) : Result :=
  s.fromV5 (encode (.bkpt immed8)) (s.archOnly "BKPT" (s.takeTrap .breakpoint immed8))

/-- SWI (44_system.md R211): a trap in the ARCH profile, the halt in the HDL profile. -/
def execSwi (immed8 : BitVec 8) (s : State) : Result :=
  match s.cfg.profile with
  | .arch => s.takeTrap .softwareInterrupt immed8
  | .hdl => s.halt

end Sys2Proof.Machine
end

