-- ==== Sys2Proof/Machine/Dispatch.lean ====
section
/-! DEFINITION. The dispatch: one arm per constructor of Instr, in the order of spec/opcode_table.json. -/

namespace Sys2Proof.Machine

open Sys2Proof

/-- What the instruction `i` does to the state `s`. -/
def exec (i : Instr) (s : State) : Host.Outcome State Fault Refusal :=
  match i with
  | .lsl1 immed5 rm rd => Sys2Proof.Machine.execLsl1 immed5 rm rd s
  | .lsr1 immed5 rm rd => Sys2Proof.Machine.execLsr1 immed5 rm rd s
  | .asr1 immed5 rm rd => Sys2Proof.Machine.execAsr1 immed5 rm rd s
  | .add3 rm rn rd => Sys2Proof.Machine.execAdd3 rm rn rd s
  | .sub3 rm rn rd => Sys2Proof.Machine.execSub3 rm rn rd s
  | .add1 immed3 rn rd => Sys2Proof.Machine.execAdd1 immed3 rn rd s
  | .mov2 rn rd => Sys2Proof.Machine.execMov2 rn rd s
  | .sub1 immed3 rn rd => Sys2Proof.Machine.execSub1 immed3 rn rd s
  | .mov1 rd immed8 => Sys2Proof.Machine.execMov1 rd immed8 s
  | .cmp1 rn immed8 => Sys2Proof.Machine.execCmp1 rn immed8 s
  | .add2 rd immed8 => Sys2Proof.Machine.execAdd2 rd immed8 s
  | .sub2 rd immed8 => Sys2Proof.Machine.execSub2 rd immed8 s
  | .and rm rd => Sys2Proof.Machine.execAnd rm rd s
  | .eor rm rd => Sys2Proof.Machine.execEor rm rd s
  | .lsl2 rs rd => Sys2Proof.Machine.execLsl2 rs rd s
  | .lsr2 rs rd => Sys2Proof.Machine.execLsr2 rs rd s
  | .asr2 rs rd => Sys2Proof.Machine.execAsr2 rs rd s
  | .adc rm rd => Sys2Proof.Machine.execAdc rm rd s
  | .sbc rm rd => Sys2Proof.Machine.execSbc rm rd s
  | .ror rs rd => Sys2Proof.Machine.execRor rs rd s
  | .tst rm rn => Sys2Proof.Machine.execTst rm rn s
  | .neg rm rd => Sys2Proof.Machine.execNeg rm rd s
  | .cmp2 rm rn => Sys2Proof.Machine.execCmp2 rm rn s
  | .cmn rm rn => Sys2Proof.Machine.execCmn rm rn s
  | .orr rm rd => Sys2Proof.Machine.execOrr rm rd s
  | .mul rm rd => Sys2Proof.Machine.execMul rm rd s
  | .bic rm rd => Sys2Proof.Machine.execBic rm rd s
  | .mvn rm rd => Sys2Proof.Machine.execMvn rm rd s
  | .add4 rm rd => Sys2Proof.Machine.execAdd4 rm rd s
  | .cmp3 rm rn => Sys2Proof.Machine.execCmp3 rm rn s
  | .mov3 rm rd => Sys2Proof.Machine.execMov3 rm rd s
  | .bx rm sbz => Sys2Proof.Machine.execBx rm sbz s
  | .blx2 rm sbz => Sys2Proof.Machine.execBlx2 rm sbz s
  | .ldr3 rd immed8 => Sys2Proof.Machine.execLdr3 rd immed8 s
  | .str2 rm rn rd => Sys2Proof.Machine.execStr2 rm rn rd s
  | .strh2 rm rn rd => Sys2Proof.Machine.execStrh2 rm rn rd s
  | .strb2 rm rn rd => Sys2Proof.Machine.execStrb2 rm rn rd s
  | .ldrsb rm rn rd => Sys2Proof.Machine.execLdrsb rm rn rd s
  | .ldr2 rm rn rd => Sys2Proof.Machine.execLdr2 rm rn rd s
  | .ldrh2 rm rn rd => Sys2Proof.Machine.execLdrh2 rm rn rd s
  | .ldrb2 rm rn rd => Sys2Proof.Machine.execLdrb2 rm rn rd s
  | .ldrsh rm rn rd => Sys2Proof.Machine.execLdrsh rm rn rd s
  | .str1 immed5 rn rd => Sys2Proof.Machine.execStr1 immed5 rn rd s
  | .ldr1 immed5 rn rd => Sys2Proof.Machine.execLdr1 immed5 rn rd s
  | .strb1 immed5 rn rd => Sys2Proof.Machine.execStrb1 immed5 rn rd s
  | .ldrb1 immed5 rn rd => Sys2Proof.Machine.execLdrb1 immed5 rn rd s
  | .strh1 immed5 rn rd => Sys2Proof.Machine.execStrh1 immed5 rn rd s
  | .ldrh1 immed5 rn rd => Sys2Proof.Machine.execLdrh1 immed5 rn rd s
  | .str3 rd immed8 => Sys2Proof.Machine.execStr3 rd immed8 s
  | .ldr4 rd immed8 => Sys2Proof.Machine.execLdr4 rd immed8 s
  | .add5 rd immed8 => Sys2Proof.Machine.execAdd5 rd immed8 s
  | .add6 rd immed8 => Sys2Proof.Machine.execAdd6 rd immed8 s
  | .add7 immed7 => Sys2Proof.Machine.execAdd7 immed7 s
  | .sub4 immed7 => Sys2Proof.Machine.execSub4 immed7 s
  | .push r list => Sys2Proof.Machine.execPush r list s
  | .pop r list => Sys2Proof.Machine.execPop r list s
  | .bkpt immed8 => Sys2Proof.Machine.execBkpt immed8 s
  | .stmia rn list => Sys2Proof.Machine.execStmia rn list s
  | .ldmia rn list => Sys2Proof.Machine.execLdmia rn list s
  | .b1 cond simmed8 => Sys2Proof.Machine.execB1 cond simmed8 s
  | .swi immed8 => Sys2Proof.Machine.execSwi immed8 s
  | .b2 simmed11 => Sys2Proof.Machine.execB2 simmed11 s
  | .blxH01 offset11 => Sys2Proof.Machine.execBlxH01 offset11 s
  | .blH10 offset11 => Sys2Proof.Machine.execBlH10 offset11 s
  | .blH11 offset11 => Sys2Proof.Machine.execBlH11 offset11 s

end Sys2Proof.Machine
end

