-- ==== Sys2Proof/Machine/Step.lean ====
section
/-! DEFINITION. One step of the machine (00_scope.md R13; 60_exceptions.md R273), and the placing of one instruction
where the next step fetches it. -/

namespace Sys2Proof.Machine

open Sys2Proof

/-- One step, its checks in the order of 60_exceptions.md R273: no step when halted, no step at `T = 0`, none after a
trap (entry 8), then fetch, decode and the instruction's own meaning. -/
def step (s : State) : Host.Outcome State Fault Refusal :=
  if s.halted then .fault .halted
  else if !s.t then .refused (.leftThumbState s.pc)
  else match s.trap with
    | some e => .refused (.trapped e)
    | none =>
      match s.fetch with
      | .error f => .fault f
      | .ok w =>
        match decode w with
        | .error _ => .fault (.undefinedInstruction w)
        | .ok i => exec i s

/-- The domain of `MEM` with the two bytes at `a` in it. -/
def withCodeAdmitted (c : Config) (a : Nat) : Config :=
  if c.admits a && c.admits (a + 1) then c else { c with admitted := ⟨a, 2⟩ :: c.admitted }

/-- `s` with the instruction `w` of `nbits` bits at `pc`, in the byte order of `s`, so that the next step fetches and
runs it (entry 30): the two bytes exist and count as not stored to, and the machine runs THUMB code. Nothing else
changes. -/
def State.withFetchWord (s : State) (nbits w : Nat) : State :=
  { s with
    mem := Memory.setBytes s.mem s.pc.toNat
      (splitOrdered s.cfg.endian (BitVec.ofNat 32 (w % 2 ^ nbits % 65536)) 2)
    stored := s.stored.filter (fun a => a != s.pc.toNat && a != s.pc.toNat + 1)
    cfg := withCodeAdmitted s.cfg s.pc.toNat
    t := true
    halted := false
    trap := none }

end Sys2Proof.Machine
end

