-- ==== Sys2Proof/Safety.lean ====
section
/-! DEFINITION. What counts as a good end of a run (70_reset_and_hazards.md R306), and the states a run can be in. -/

namespace Sys2Proof.Machine

open Sys2Proof

/-- The good ends of a run (70_reset_and_hazards.md R306): the environment was called, ARM code was reached, or the HDL
machine halted. -/
def goodEnd : Result → Bool
  | .fault .halted => true
  | .refused (.leftThumbState _) => true
  | .refused (.trapped _) => true
  | _ => false

/-- The bad ends of a run (70_reset_and_hazards.md R306): every other stop. -/
def badEnd : Result → Bool
  | .next _ => false
  | r => !goodEnd r

/-- No bad end within `n` steps of `s`. -/
def safeFor : Nat → State → Prop
  | 0, _ => True
  | n + 1, s => badEnd (step s) = false ∧ ∀ t, step s = .next t → safeFor n t

/-- What every state of a run satisfies: the parameters are legal (00_scope.md R5), the pc is even (10_state.md R24),
memory and the stored set are in canonical form and inside `MEM` (20_memory.md R57, R61, R66), and each exit belongs to
its profile and carries the address it must (10_state.md R38; 60_exceptions.md R274). -/
structure State.Inv (s : State) : Prop where
  cfg_wf : s.cfg.wf
  pc_even : s.pc.getLsbD 0 = false
  mem_wf : Memory.wf s.mem
  mem_admitted : ∀ c ∈ s.mem, s.cfg.admits c.1 = true
  stored_rising : s.stored.Pairwise (· < ·)
  stored_admitted : ∀ a ∈ s.stored, s.cfg.admits a = true
  stored_coherent : s.cfg.smc = .coherent → s.stored = []
  halted_hdl : s.halted = true → s.cfg.profile = .hdl
  arm_arch : s.t = false → s.cfg.profile = .arch
  trap_arch : s.trap ≠ none → s.cfg.profile = .arch
  trap_ret : ∀ e, s.trap = some e → e.ret = s.nextPc

end Sys2Proof.Machine
end

