-- ==== Sys2Proof/Certificates/Slice0/Obligations.lean ====
section
/-! DEFINITION. What is claimed of the machine: one def Obligations.<Name> per statement, and the words they are said
in. A word after `decode` is written from the fixed bits and fields of the rule's own encoding line. -/

namespace Sys2Proof.Claims

open Sys2Proof Sys2Proof.Machine

/-! ## The words of the statements -/

/-- The address of the last instruction of the address space, whose sequential successor would wrap (10_state.md R28). -/
def topPc : Word := 0xFFFFFFFE#32

/-- The instruction `i` completes in `s`, and the next state satisfies `P`. -/
def Gives (i : Instr) (s : State) (P : State → Prop) : Prop := ∃ t, exec i s = .next t ∧ P t

/-- Every register but those of `dests` holds what it held; the pc, register 15, is said apart. -/
def SameRegs (s t : State) (dests : List Reg) : Prop := ∀ i : Reg, i ≠ pcReg → i ∉ dests → t.reg i = s.reg i

/-- Every byte of memory reads as before, and no address was stored to. -/
def SameMemory (s t : State) : Prop := (∀ a, Memory.byteAt t.mem a = Memory.byteAt s.mem a) ∧ t.stored = s.stored

/-- No exit was taken and the launch parameters are as they were. -/
def SameRest (s t : State) : Prop := t.halted = s.halted ∧ t.trap = s.trap ∧ t.cfg = s.cfg

/-- The frame of an instruction that stores nothing and stays in THUMB code: only `dests`, flags and pc may differ. -/
def Keeps (s t : State) (dests : List Reg) : Prop :=
  SameRegs s t dests ∧ SameMemory s t ∧ t.t = s.t ∧ SameRest s t

/-- The frame of an instruction that stores `n` bytes at `a` and stays in THUMB code: every byte outside them reads as
before, and under `SMC = fault` exactly they join the stored set (20_memory.md R66). -/
def KeepsBut (s t : State) (dests : List Reg) (a n : Nat) : Prop :=
  SameRegs s t dests ∧ t.t = s.t ∧ SameRest s t ∧
  (∀ x, (x < a ∨ a + n ≤ x) → Memory.byteAt t.mem x = Memory.byteAt s.mem x) ∧
  (s.cfg.smc = .fault → ∀ x, x ∈ t.stored ↔ x ∈ s.stored ∨ (a ≤ x ∧ x < a + n)) ∧
  (s.cfg.smc = .coherent → t.stored = s.stored)

/-- N and Z of a result (10_state.md R30). -/
def NZOf (r : Word) (f : Flags) : Prop := f.n = r.msb ∧ (f.z = true ↔ r = 0#32)

/-- The flags of the addition `a + b + cin` (00_scope.md R10): carry out of bit 31, signed overflow. -/
def AddFlags (a b : Word) (cin : Nat) (f : Flags) : Prop :=
  NZOf (a + b + BitVec.ofNat 32 cin) f ∧
  (f.c = true ↔ 2 ^ 32 ≤ a.toNat + b.toNat + cin) ∧
  (f.v = true ↔ a.toInt + b.toInt + cin < -2 ^ 31 ∨ 2 ^ 31 ≤ a.toInt + b.toInt + cin)

/-- The flags of the subtraction `a - b - borrow` (00_scope.md R10): C is the complement of the borrow. -/
def SubFlags (a b : Word) (borrow : Nat) (f : Flags) : Prop :=
  NZOf (a - b - BitVec.ofNat 32 borrow) f ∧
  (f.c = true ↔ b.toNat + borrow ≤ a.toNat) ∧
  (f.v = true ↔ a.toInt - b.toInt - borrow < -2 ^ 31 ∨ 2 ^ 31 ≤ a.toInt - b.toInt - borrow)

/-- `t` follows `s` with `r` in Rd, the flags of the sum, and the next instruction. -/
def AddInto (s : State) (rd : LowReg) (a b : Word) (cin : Nat) (t : State) : Prop :=
  t.reg (lo rd) = a + b + BitVec.ofNat 32 cin ∧ AddFlags a b cin t.flags ∧ t.pc = s.pc + 2#32 ∧ Keeps s t [lo rd]

/-- `t` follows `s` with the difference in Rd, its flags, and the next instruction. -/
def SubInto (s : State) (rd : LowReg) (a b : Word) (borrow : Nat) (t : State) : Prop :=
  t.reg (lo rd) = a - b - BitVec.ofNat 32 borrow ∧ SubFlags a b borrow t.flags ∧ t.pc = s.pc + 2#32 ∧
  Keeps s t [lo rd]

/-- `t` follows `s` with `r` in register `d`, no flag changed, and the next instruction. -/
def MoveInto (s : State) (d : Reg) (r : Word) (t : State) : Prop :=
  t.reg d = r ∧ t.flags = s.flags ∧ t.pc = s.pc + 2#32 ∧ Keeps s t [d]

/-- `t` follows `s` with `r` in Rd, N and Z from it, C and V unchanged, and the next instruction. -/
def LogicInto (s : State) (rd : LowReg) (r : Word) (t : State) : Prop :=
  t.reg (lo rd) = r ∧ NZOf r t.flags ∧ t.flags.c = s.flags.c ∧ t.flags.v = s.flags.v ∧ t.pc = s.pc + 2#32 ∧
  Keeps s t [lo rd]

/-- `t` follows `s` with a shifted value in Rd, given bit by bit, N and Z from it, `c` in C, V unchanged, and the next
instruction. -/
def ShiftInto (s : State) (rd : LowReg) (bit : Nat → Bool) (c : Bool) (t : State) : Prop :=
  (∀ j, j < 32 → (t.reg (lo rd)).getLsbD j = bit j) ∧ NZOf (t.reg (lo rd)) t.flags ∧ t.flags.c = c ∧
  t.flags.v = s.flags.v ∧ t.pc = s.pc + 2#32 ∧ Keeps s t [lo rd]

/-- Bit `j` of `v` shifted left by `n`, and the last bit out (00_scope.md R11). -/
def leftBit (v : Word) (n j : Nat) : Bool := decide (n ≤ j) && v.getLsbD (j - n)
def leftOut (v : Word) (n : Nat) (c : Bool) : Bool := if n = 0 then c else decide (n ≤ 32) && v.getLsbD (32 - n)

/-- Bit `j` of `v` shifted right by `n` with zeroes entering, and the last bit out (00_scope.md R11). -/
def rightBit (v : Word) (n j : Nat) : Bool := v.getLsbD (j + n)
def rightOut (v : Word) (n : Nat) (c : Bool) : Bool := if n = 0 then c else v.getLsbD (n - 1)

/-- Bit `j` of `v` shifted right by `n` with the sign entering, and the last bit out (00_scope.md R11). -/
def signedBit (v : Word) (n j : Nat) : Bool := v.getLsbD (min (j + n) 31)
def signedOut (v : Word) (n : Nat) (c : Bool) : Bool := if n = 0 then c else v.getLsbD (min (n - 1) 31)

/-- Bit `j` of `v` rotated right by `n`, and the last bit out (00_scope.md R11). -/
def rotatedBit (v : Word) (n j : Nat) : Bool := v.getLsbD ((j + n) % 32)
def rotatedOut (v : Word) (n : Nat) (c : Bool) : Bool := if n = 0 then c else v.getLsbD ((n - 1) % 32)

/-- The amount of LSR_1 and ASR_1: 1 to 32, 32 written as 0. -/
def oneTo32 (immed5 : BitVec 5) : Nat := if immed5.toNat = 0 then 32 else immed5.toNat

/-- `t` follows `s` by a branch to `target` that writes `dests` and no flag. -/
def BranchesTo (s : State) (target : Word) (dests : List Reg) (t : State) : Prop :=
  t.pc = target ∧ t.flags = s.flags ∧ Keeps s t dests

/-- `t` follows `s` by a branch and exchange to `target` with T as given, writing `dests` and no flag. -/
def ExchangesTo (s : State) (target : Word) (thumb : Bool) (dests : List Reg) (t : State) : Prop :=
  t.pc = target ∧ t.t = thumb ∧ t.flags = s.flags ∧ SameRegs s t dests ∧ SameMemory s t ∧ SameRest s t

/-- The test of Table A.1 for a four-bit code below 1110: bits 3 to 1 choose it, bit 0 negates it (00_scope.md R12). -/
def tableTest (code : BitVec 4) (f : Flags) : Bool :=
  let base := match (code.extractLsb' 1 3).toNat with
    | 0 => f.z
    | 1 => f.c
    | 2 => f.n
    | 3 => f.v
    | 4 => f.c && !f.z
    | 5 => f.n == f.v
    | _ => !f.z && f.n == f.v
  base ^^ code.getLsbD 0

/-- The condition with a code passes: always for 1110, else by the table. -/
def tablePasses (cond : Cond) (f : Flags) : Bool := cond == .al || tableTest cond.code f

/-- All `n` bytes from `a` are in `MEM`. -/
def Admitted (s : State) (a n : Nat) : Prop := ∀ x, a ≤ x → x < a + n → s.cfg.admits x = true

/-- An access of `n` bytes at `a` is aligned and in `MEM` (20_memory.md R56, R57). -/
def Accessible (s : State) (a : Word) (n : Nat) : Prop := a.toNat % n = 0 ∧ Admitted s a.toNat n

/-- An access of `i` that fails: misaligned, else outside `MEM` (20_memory.md R56, R57). -/
def FaultsAt (i : Instr) (s : State) (a : Word) (n : Width) : Prop :=
  (a.toNat % n.bytes ≠ 0 → exec i s = .fault (.alignmentFault a n)) ∧
  (a.toNat % n.bytes = 0 → ¬ Admitted s a.toNat n.bytes → exec i s = .fault (.memoryNotAdmitted a n))

/-- A load: where the access is possible Rd takes the value at `a` widened, no flag changes and the next instruction
follows; else it faults. -/
def LoadsInto (i : Instr) (s : State) (rd : LowReg) (a : Word) (n : Width) (widen : Word → Word) : Prop :=
  (s.pc ≠ topPc → Accessible s a n.bytes →
    ∃ v, s.memRead a n = .ok v ∧ Gives i s (MoveInto s (lo rd) (widen v))) ∧
  FaultsAt i s a n

/-- A store: where the access is possible the bytes at `a` hold the low bytes of Rd (read back at the same width), no
register and no flag changes, every other byte reads as before, and the next instruction follows; else it faults. -/
def StoresFrom (i : Instr) (s : State) (rd : LowReg) (a : Word) (n : Width) : Prop :=
  (s.pc ≠ topPc → Accessible s a n.bytes →
    Gives i s (fun t =>
      t.memRead a n = .ok (BitVec.ofNat 32 ((s.reg (lo rd)).toNat % 2 ^ (8 * n.bytes))) ∧
      t.flags = s.flags ∧ t.pc = s.pc + 2#32 ∧ KeepsBut s t [] a.toNat n.bytes)) ∧
  FaultsAt i s a n

/-- A block of `k` words of `i` at `start` that fails: misaligned, else wrapping, else at word `j`, the first outside
`MEM` (45_load_store_multiple.md R220). -/
def StopsAt (i : Instr) (s : State) (start : Word) (k : Nat) : Prop :=
  (start.toNat % 4 ≠ 0 → exec i s = .fault (.alignmentFault start .word)) ∧
  (start.toNat % 4 = 0 → 2 ^ 32 < start.toNat + 4 * k → exec i s = .refused (.unpredictable .addressWrap)) ∧
  (start.toNat % 4 = 0 → start.toNat + 4 * k ≤ 2 ^ 32 → ∀ j, j < k → Admitted s start.toNat (4 * j) →
    ¬ Admitted s (start.toNat + 4 * j) 4 →
    exec i s = .fault (.memoryNotAdmitted (start + BitVec.ofNat 32 (4 * j)) .word))

/-- How many registers of a list have a lower number than `i`. -/
def rank (list : BitVec 8) (i : Nat) : Nat := (List.range i).countP (fun j => list.getLsbD j)

/-- How many registers a list names. -/
def size (list : BitVec 8) : Nat := rank list 8

/-- A block of `k` words at `start` passes `CheckBlock` (45_load_store_multiple.md R220). -/
def BlockOk (s : State) (start : Word) (k : Nat) : Prop :=
  k ≠ 0 ∧ start.toNat % 4 = 0 ∧ start.toNat + 4 * k ≤ 2 ^ 32 ∧ Admitted s start.toNat (4 * k)

/-- Each register of `list` holds, in `t`, the word `s` has at its place in the block at `start`. -/
def LoadedFrom (s t : State) (start : Word) (list : BitVec 8) : Prop :=
  ∀ i : LowReg, list.getLsbD i.val = true →
    s.memRead (start + BitVec.ofNat 32 (4 * rank list i.val)) .word = .ok (t.reg (lo i))

/-- Each register of `list` has, in `t`, its word from `s` at its place in the block at `start`. -/
def StoredAt (s t : State) (start : Word) (list : BitVec 8) : Prop :=
  ∀ i : LowReg, list.getLsbD i.val = true →
    t.memRead (start + BitVec.ofNat 32 (4 * rank list i.val)) .word = .ok (s.reg (lo i))

/-- The registers a list names. -/
def named (list : BitVec 8) : List Reg := (lowRegs.filter (fun i => list.getLsbD i.val)).map lo

/-- The instructions that store to memory (20_memory.md R51). -/
def storing : Instr → Bool
  | .str1 .. | .str2 .. | .str3 .. | .strb1 .. | .strb2 .. | .strh1 .. | .strh2 .. | .stmia .. | .push .. => true
  | _ => false

/-- The instruction sets the pc of `s` to other than the next instruction: a branch whose condition passes, and the forms
that write the pc (10_state.md R27; 43_branch.md R198). -/
def branchesIn (s : State) : Instr → Bool
  | .b1 cond _ => tablePasses cond s.flags
  | .b2 .. | .blH11 .. | .blxH01 .. | .blx2 .. | .bx .. => true
  | .pop r _ => r && s.cfg.profile == .arch
  | .add4 _ rd | .mov3 _ rd => rd == pcReg
  | _ => false

/-- The instruction traps in `s`, and leaves the pc where it is (60_exceptions.md R274). -/
def trapsIn (s : State) : Instr → Bool
  | .bkpt .. => true
  | .swi .. => s.cfg.profile == .arch
  | _ => false

/-- The instructions that neither branch nor access memory and have no check of their own: at every pc but 0xFFFFFFFE
they complete. -/
def plain : Instr → Bool
  | .adc .. | .add1 .. | .add2 .. | .add3 .. | .add5 .. | .add6 .. | .add7 .. | .mov2 .. | .cmn .. | .cmp1 .. | .cmp2 ..
  | .mul .. | .neg .. | .sbc .. | .sub1 .. | .sub2 .. | .sub3 .. | .sub4 .. | .and .. | .bic .. | .eor .. | .orr ..
  | .mvn .. | .mov1 .. | .tst .. | .asr1 .. | .asr2 .. | .lsl1 .. | .lsl2 .. | .lsr1 .. | .lsr2 .. | .ror ..
  | .blH10 .. => true
  | _ => false

/-- The single access of a load or store in `s` (46_load_store.md R241 to R257). -/
def accessIn (s : State) : Instr → Option (Word × Width)
  | .ldr1 immed5 rn _ | .str1 immed5 rn _ => some (s.addrImmediate rn immed5 4, .word)
  | .ldrh1 immed5 rn _ | .strh1 immed5 rn _ => some (s.addrImmediate rn immed5 2, .half)
  | .ldrb1 immed5 rn _ | .strb1 immed5 rn _ => some (s.addrImmediate rn immed5 1, .byte)
  | .ldr2 rm rn _ | .str2 rm rn _ => some (s.addrRegister rn rm, .word)
  | .ldrh2 rm rn _ | .strh2 rm rn _ | .ldrsh rm rn _ => some (s.addrRegister rn rm, .half)
  | .ldrb2 rm rn _ | .strb2 rm rn _ | .ldrsb rm rn _ => some (s.addrRegister rn rm, .byte)
  | .ldr3 _ immed8 => some (s.addrPc immed8, .word)
  | .ldr4 _ immed8 | .str3 _ immed8 => some (s.addrSp immed8, .word)
  | _ => none

/-- The instruction is refused because the address after it would wrap (10_state.md R28). -/
def Wraps (i : Instr) (s : State) : Prop := exec i s = .refused (.unpredictable .pcWrap)

/-- The rows of 10_state.md R34 that write N and Z. -/
def writesNZ : Instr → Bool
  | .adc .. | .add1 .. | .add2 .. | .add3 .. | .mov2 .. | .and .. | .bic .. | .eor .. | .orr .. | .mvn .. | .tst ..
  | .asr1 .. | .asr2 .. | .lsl1 .. | .lsl2 .. | .lsr1 .. | .lsr2 .. | .ror .. | .cmn .. | .cmp1 .. | .cmp2 ..
  | .cmp3 .. | .mov1 .. | .mul .. | .neg .. | .sbc .. | .sub1 .. | .sub2 .. | .sub3 .. => true
  | _ => false

/-- The rows of 10_state.md R34 that write V. -/
def writesV : Instr → Bool
  | .adc .. | .add1 .. | .add2 .. | .add3 .. | .mov2 .. | .cmn .. | .cmp1 .. | .cmp2 .. | .cmp3 .. | .neg .. | .sbc ..
  | .sub1 .. | .sub2 .. | .sub3 .. => true
  | _ => false

/-- The rows of 10_state.md R34 that write C: those that write V, and the shifts. -/
def writesC (i : Instr) : Bool :=
  writesV i || match i with
    | .asr1 .. | .asr2 .. | .lsl1 .. | .lsl2 .. | .lsr1 .. | .lsr2 .. | .ror .. => true
    | _ => false

/-- Two results that differ at most in the flags of a next state. -/
def SameButFlags : Result → Result → Prop
  | .next t, .next u => { t with flags := u.flags } = u
  | .fault a, .fault b => a = b
  | .refused a, .refused b => a = b
  | _, _ => False

/-- A shift whose amount in `s` is 0, which leaves C as it was (10_state.md R31, R34). -/
def shiftsByZero (s : State) : Instr → Bool
  | .lsl1 immed5 _ _ => immed5 == 0#5
  | .asr2 rs _ | .lsl2 rs _ | .lsr2 rs _ | .ror rs _ => (s.reg (lo rs)).toNat % 256 == 0
  | _ => false

/-- With the flags `f` in place of those of `s`, the instruction ends the same way, and in a next state everything but
the flags and every flag it writes are the same. A flag it does not write keeps what it was. -/
def BlindTo (i : Instr) (s : State) (f : Flags) : Prop :=
  SameButFlags (exec i s) (exec i { s with flags := f }) ∧
  ∀ t u, exec i s = .next t → exec i { s with flags := f } = .next u →
    (writesNZ i = true → t.flags.n = u.flags.n ∧ t.flags.z = u.flags.z) ∧
    (writesC i = true → shiftsByZero s i = false → t.flags.c = u.flags.c) ∧
    (writesV i = true → t.flags.v = u.flags.v)

/-- One single-bit shift of a value, with the bit that leaves: left, right, right with the sign, rotate right
(00_scope.md R11). -/
def leftOnce (p : Word × Bool) : Word × Bool := (p.1 <<< 1, p.1.getLsbD 31)
def rightOnce (p : Word × Bool) : Word × Bool := (p.1 >>> 1, p.1.getLsbD 0)
def signedOnce (p : Word × Bool) : Word × Bool := (p.1.sshiftRight 1, p.1.getLsbD 0)
def rotateOnce (p : Word × Bool) : Word × Bool := (p.1.rotateRight 1, p.1.getLsbD 0)

/-- A shift function agrees with `n` single shifts: the value, and the last bit out, or the old carry for none. -/
def Iterates (f : Word → Nat → Shifted) (once : Word × Bool → Word × Bool) : Prop :=
  ∀ (v : Word) (n : Nat) (c : Bool), ((f v n).result, (f v n).carry.getD c) = once^[n] (v, c)

end Sys2Proof.Claims

open Sys2Proof Sys2Proof.Machine Sys2Proof.Claims

/-! ## Decoding and encoding -/

/-- The decoder reads back every instruction from its own word (30_encoding.md, sections 2 to 6). ADD_1 with
`immed3 = 000` is not encodable: its word is read as MOV_2, the model's choice (entry 12). -/
def Obligations.DecodeReadsBackEveryEncodedInstruction : Prop :=
  ∀ i : Instr, i.encodable = true → decode (encode i) = .ok i

/-- Every word the decoder accepts is the word of the instruction it answers: no bit of a word is dropped. That the answer
is encodable, never ADD_1 with `immed3 = 000`, is the model's choice (entry 12). -/
def Obligations.EncodeRebuildsEveryDecodedWord : Prop :=
  ∀ (w : InstrWord) (i : Instr), decode w = .ok i → encode i = w ∧ i.encodable = true

/-- At most one row of the decoder covers a word, whatever groups the rows stand in. That the rows of ADD_1 and MOV_2 do
not overlap is the model's choice (entry 12): 30_encoding.md R101 has MOV_2 name words of ADD_1. -/
def Obligations.AtMostOneRowCoversAWord : Prop :=
  ∀ (w : InstrWord) (j k : Nat) (p q : Row), p ∈ rowsAt j → q ∈ rowsAt k → p.covers w = true → q.covers w = true →
    p.mnemonic = q.mnemonic

/-- 30_encoding.md R98: the unallocated words are exactly those with [15:12] = 1011 and [11:8] in the ten values, and
with `TVARIANT = 4` the words of BLX_H01, BKPT and BLX_2 join them; a step on one ends with UndefinedInstruction. -/
def Obligations.UnallocatedWordsAreUndefined : Prop :=
  (∀ w : InstrWord, (∃ r, decode w = .error r) ↔
    (w.extractLsb' 12 4 = 0b1011#4 ∧
      w.extractLsb' 8 4 ∈ [0b0001#4, 0b0010#4, 0b0011#4, 0b0110#4, 0b0111#4, 0b1000#4, 0b1001#4, 0b1010#4, 0b1011#4,
        0b1111#4])) ∧
  (∀ (s : State) (w : InstrWord), s.halted = false → s.t = true → s.trap = none → s.fetch = .ok w →
    ((∃ r, decode w = .error r) → step s = .fault (.undefinedInstruction w)) ∧
    (s.cfg.tvariant = .v4 →
      (w.extractLsb' 11 5 = 0b11101#5 ∨ w.extractLsb' 8 8 = 0b10111110#8 ∨ w.extractLsb' 7 9 = 0b010001111#9) →
      step s = .fault (.undefinedInstruction w)))

/-- Words of each family, written out bit by bit, decode to the instructions they stand for (95_test_vectors.md,
section 2). -/
def Obligations.SampleWordsDecode : Prop :=
  decode 0b0100000101010001#16 = .ok (.adc 2 1) ∧
  decode 0b0001110111001000#16 = .ok (.add1 7 1 0) ∧
  decode 0b0100010010001000#16 = .ok (.add4 1 8) ∧
  decode 0b0100000000001000#16 = .ok (.and 1 0) ∧
  decode 0b0001000001001000#16 = .ok (.asr1 1 1 0) ∧
  decode 0b1101000100000110#16 = .ok (.b1 .ne 6) ∧
  decode 0b0100011101110000#16 = .ok (.bx 14 0) ∧
  decode 0b1101111100000101#16 = .ok (.swi 5) ∧
  decode 0b1011010100010001#16 = .ok (.push true 0x11) ∧
  decode 0b0101111010001000#16 = .ok (.ldrsh 2 1 0)

/-! ## Steps -/

/-- When the two bytes at the pc are in `MEM`, were not stored to (or may be), and decode to `i`, a step of a running
machine is `exec i`, with nothing around it (20_memory.md R55, R66; 60_exceptions.md R273). -/
def Obligations.StepRunsTheInstructionAtThePc : Prop :=
  ∀ (s : State) (i : Instr),
    s.halted = false → s.t = true → s.trap = none → s.pc.getLsbD 0 = false →
    Admitted s s.pc.toNat 2 →
    (s.cfg.smc = .fault → s.pc.toNat ∉ s.stored ∧ s.pc.toNat + 1 ∉ s.stored) →
    decodeBytes s.cfg.endian (Memory.byteAt s.mem s.pc.toNat) (Memory.byteAt s.mem (s.pc.toNat + 1)) = .ok i →
    step s = exec i s

/-- The order of the checks before decoding (60_exceptions.md R273, lines 1 to 4, with the trap of entry 8 after line
2): halted, T clear, a trap taken, fetch outside `MEM`, fetch of a stored byte. -/
def Obligations.StepChecksInOrder : Prop :=
  ∀ s : State,
    (s.halted = true → step s = .fault .halted) ∧
    (s.halted = false → s.t = false → step s = .refused (.leftThumbState s.pc)) ∧
    (∀ e, s.halted = false → s.t = true → s.trap = some e → step s = .refused (.trapped e)) ∧
    (s.halted = false → s.t = true → s.trap = none → s.pc.getLsbD 0 = false →
      (¬ Admitted s s.pc.toNat 2 → step s = .fault (.memoryNotAdmitted s.pc .half)) ∧
      (Admitted s s.pc.toNat 2 → s.cfg.smc = .fault → (s.pc.toNat ∈ s.stored ∨ s.pc.toNat + 1 ∈ s.stored) →
        step s = .fault (.selfModifyingCode s.pc)))

/-- Every step keeps the invariant, from every state that has it (Safety.lean, State.Inv). -/
def Obligations.StepKeepsInvariant : Prop := ∀ s t : State, s.Inv → step s = .next t → t.Inv

/-- Every launch the spec allows satisfies the invariant, with T set, not halted and nothing stored to
(10_state.md R40; 70_reset_and_hazards.md R301); so does reset, whose values are the model's choice (entries 2 to 7). -/
def Obligations.LaunchEstablishesInvariant : Prop :=
  State.reset.Inv ∧
  ∀ (cfg : Config) (entry : Word) (regs : Vector Word 15) (flags : Flags) (mem : Memory),
    cfg.wf → entry.getLsbD 0 = false → Memory.wf mem → (∀ c ∈ mem, cfg.admits c.1 = true) →
    (State.launch cfg entry regs flags mem).Inv ∧ (State.launch cfg entry regs flags mem).pc = entry ∧
    (State.launch cfg entry regs flags mem).t = true ∧ (State.launch cfg entry regs flags mem).halted = false ∧
    (State.launch cfg entry regs flags mem).stored = []

/-- 10_state.md R26: an instruction that is not a taken branch, a B_1 whose condition fails among them, ends with
`pc <- pc + 2`; the traps of SWI and BKPT, which change nothing, leave it (60_exceptions.md R274). -/
def Obligations.NonBranchesAdvanceThePc : Prop :=
  ∀ (i : Instr) (s t : State), exec i s = .next t →
    (branchesIn s i = false → trapsIn s i = false → t.pc = s.pc + 2#32) ∧
    (trapsIn s i = true → t.pc = s.pc)

/-- 10_state.md R28: at 0xFFFFFFFE only what branches completes. Every other instruction is refused with pc_wrap once its
own checks pass: one without a check, a B_1 whose condition fails, SWI and BKPT (entry 11), a load or store of an
accessible address, the high-register forms, and each block transfer in each profile (a POP with `R = 1` branches in the
ARCH profile alone). -/
def Obligations.SequentialExecutionDoesNotWrap : Prop :=
  ∀ s : State, s.pc = topPc →
    (∀ i t, exec i s = .next t → branchesIn s i = true) ∧
    (∀ i, plain i = true → Wraps i s) ∧
    (∀ cond d, tablePasses cond s.flags = false → Wraps (.b1 cond d) s) ∧
    (∀ v, Wraps (.swi v) s) ∧
    (∀ i a n, accessIn s i = some (a, n) → Accessible s a n.bytes → Wraps i s) ∧
    (s.cfg.profile = .arch →
      (∀ v, s.cfg.tvariant = .v5 → Wraps (.bkpt v) s) ∧
      (∀ rm rd, rd ≠ pcReg → Wraps (.add4 rm rd) s) ∧
      (∀ rm rd : Reg, 8 ≤ rd.val ∨ 8 ≤ rm.val → Wraps (.cmp3 rm rd) s ∧ (rd ≠ pcReg → Wraps (.mov3 rm rd) s)) ∧
      (∀ (rn : LowReg) (list : BitVec 8), BlockOk s (s.reg (lo rn)) (size list) →
        (list.getLsbD rn.val = false → Wraps (.ldmia rn list) s) ∧
        (list.getLsbD rn.val = false ∨ rank list rn.val = 0 → Wraps (.stmia rn list) s)) ∧
      (∀ list, BlockOk s (s.reg spReg) (size list) → Wraps (.pop false list) s) ∧
      (∀ (r : Bool) (list : BitVec 8), let k := size list + r.toNat
        4 * k ≤ (s.reg spReg).toNat → BlockOk s (s.reg spReg - BitVec.ofNat 32 (4 * k)) k → Wraps (.push r list) s)) ∧
    (s.cfg.profile = .hdl → ∀ (r : Bool) (list : BitVec 8), list ≠ 0#8 →
      (BlockOk s (s.reg spReg) 1 → Wraps (.pop r list) s) ∧
      (4 ≤ (s.reg spReg).toNat → BlockOk s (s.reg spReg - 4#32) 1 → Wraps (.push r list) s))

/-- T is written only by BX, BLX_2 and BLX_H01 (10_state.md R33). -/
def Obligations.OnlyExchangesWriteT : Prop :=
  ∀ (i : Instr) (s t : State), exec i s = .next t → t.t ≠ s.t →
    (∃ rm z, i = .bx rm z) ∨ (∃ rm z, i = .blx2 rm z) ∨ (∃ o, i = .blxH01 o)

/-- R8 to R12 change only as the destination of ADD_4 or MOV_3, and never in the HDL profile (10_state.md R21). -/
def Obligations.HighRegistersChangeOnlyByName : Prop :=
  ∀ (i : Instr) (s t : State) (r : Reg), exec i s = .next t → 8 ≤ r.val → r.val ≤ 12 → t.reg r ≠ s.reg r →
    s.cfg.profile = .arch ∧ ((∃ rm, i = .add4 rm r) ∨ (∃ rm, i = .mov3 rm r))

/-- LR changes only by the BL and BLX forms, or as the named destination of ADD_4 or MOV_3 (43_branch.md R198 (c)). -/
def Obligations.LinkRegisterChangesOnlyByCalls : Prop :=
  ∀ (i : Instr) (s t : State), exec i s = .next t → t.reg lrReg ≠ s.reg lrReg →
    (∃ o, i = .blH10 o) ∨ (∃ o, i = .blH11 o) ∨ (∃ o, i = .blxH01 o) ∨ (∃ rm z, i = .blx2 rm z) ∨
    (∃ rm, i = .add4 rm lrReg) ∨ (∃ rm, i = .mov3 rm lrReg)

/-- 10_state.md R34: the flags an instruction does not write keep their values; MOV_1 clears N, MOV_2 clears C and V, a
shift by a zero amount keeps C. -/
def Obligations.FlagsAreWrittenAsTheTableSays : Prop :=
  ∀ (i : Instr) (s t : State), exec i s = .next t →
    (writesNZ i = false → t.flags.n = s.flags.n ∧ t.flags.z = s.flags.z) ∧
    (writesC i = false → t.flags.c = s.flags.c) ∧
    (writesV i = false → t.flags.v = s.flags.v) ∧
    (∀ rd v, i = .mov1 rd v → t.flags.n = false) ∧
    (∀ rn rd, i = .mov2 rn rd → t.flags.c = false ∧ t.flags.v = false) ∧
    (∀ rm rd, i = .lsl1 0 rm rd → t.flags.c = s.flags.c) ∧
    (∀ rs rd, (i = .lsl2 rs rd ∨ i = .lsr2 rs rd ∨ i = .asr2 rs rd ∨ i = .ror rs rd) →
      (s.reg (lo rs)).toNat % 256 = 0 → t.flags.c = s.flags.c) ∧
    (∀ o, i = .blxH01 o → t.t = false) ∧
    (∀ rm z, (i = .bx rm z ∨ i = .blx2 rm z) → t.t = (s.reg rm).getLsbD 0) ∧
    ((∀ rm z, i ≠ .bx rm z ∧ i ≠ .blx2 rm z) → (∀ o, i ≠ .blxH01 o) → t.t = s.t)

/-- 10_state.md R35: no instruction but ADC, SBC and B_1 reads a flag. Changed flags change neither how it ends, nor
anything else it does, nor any flag it writes (C of a shift by zero is not written); ADC and SBC read C alone, and B_1
the test of its condition. -/
def Obligations.FlagsAreReadOnlyAsTheTableSays : Prop :=
  (∀ (i : Instr) (s : State) (f : Flags),
    (∀ rm rd, i ≠ .adc rm rd ∧ i ≠ .sbc rm rd) → (∀ cond d, i ≠ .b1 cond d) → BlindTo i s f) ∧
  (∀ (s : State) (f : Flags) (rm rd : LowReg), f.c = s.flags.c →
    BlindTo (.adc rm rd) s f ∧ BlindTo (.sbc rm rd) s f) ∧
  (∀ (s : State) (f : Flags) (cond : Cond) (d : BitVec 8), tablePasses cond f = tablePasses cond s.flags →
    BlindTo (.b1 cond d) s f)

/-- Memory changes only by a store, STMIA or PUSH, and never outside `MEM`; no launch parameter changes, the domain of
`MEM` among them (00_scope.md R5; 10_state.md R39; 20_memory.md R51, R57, R63). -/
def Obligations.MemoryChangesOnlyByStoresInsideMem : Prop :=
  ∀ (i : Instr) (s t : State), exec i s = .next t →
    t.cfg = s.cfg ∧
    ∀ a, Memory.byteAt t.mem a ≠ Memory.byteAt s.mem a → storing i = true ∧ s.cfg.admits a = true

/-- Reads and writes by register number (00_scope.md R8, R9; 10_state.md R20, R25, R27): a register 0 to 14 reads what
was written to it and no other register changes; register 15 reads `pc + PC_READ_OFFSET`, and a write of it sets the pc
with bit 0 dropped and leaves T and every register. -/
def Obligations.RegistersReadAsWritten : Prop :=
  ∀ (s : State) (i j : Reg) (v : Word),
    (i ≠ pcReg → (s.setReg i v).reg i = v ∧ (s.setReg i v).pc = s.pc) ∧
    (j ≠ pcReg → j ≠ i → (s.setReg i v).reg j = s.reg j) ∧
    s.reg pcReg = s.pc + s.cfg.pcReadOffset ∧
    (s.setReg pcReg v).pc.toNat = v.toNat / 2 * 2 ∧
    (s.setReg i v).t = s.t ∧ (s.setReg i v).flags = s.flags ∧ SameMemory s (s.setReg i v) ∧
    SameRest s (s.setReg i v)

/-! ## Arithmetic -/

/-- The sums of ADD_1, ADD_2 and ADD_3 (40_arithmetic.md R122, R123, R124) and MOV_2, which is ADD_1 with
`immed3 = 000` (41_logical_move.md R155). That the decoder answers MOV_2 for that word, and ADD_1 for the others only, is
the model's choice (entry 12). -/
def Obligations.AddResults : Prop :=
  ∀ (s : State) (rm rn rd : LowReg) (immed3 : BitVec 3) (immed8 : BitVec 8), s.pc ≠ topPc →
    decode (0b0001100#7 ++ bits3 rm ++ bits3 rn ++ bits3 rd) = .ok (.add3 rm rn rd) ∧
    (immed3 ≠ 0#3 → decode (0b0001110#7 ++ immed3 ++ bits3 rn ++ bits3 rd) = .ok (.add1 immed3 rn rd)) ∧
    decode (0b0001110000#10 ++ bits3 rn ++ bits3 rd) = .ok (.mov2 rn rd) ∧
    decode (0b00110#5 ++ bits3 rd ++ immed8) = .ok (.add2 rd immed8) ∧
    Gives (.add3 rm rn rd) s (AddInto s rd (s.reg (lo rn)) (s.reg (lo rm)) 0) ∧
    Gives (.add1 immed3 rn rd) s (AddInto s rd (s.reg (lo rn)) (BitVec.ofNat 32 immed3.toNat) 0) ∧
    Gives (.mov2 rn rd) s (fun t =>
      t.reg (lo rd) = s.reg (lo rn) ∧ NZOf (s.reg (lo rn)) t.flags ∧ t.flags.c = false ∧ t.flags.v = false ∧
      t.pc = s.pc + 2#32 ∧ Keeps s t [lo rd]) ∧
    exec (.mov2 rn rd) s = exec (.add1 0 rn rd) s ∧
    Gives (.add2 rd immed8) s (AddInto s rd (s.reg (lo rd)) (BitVec.ofNat 32 immed8.toNat) 0)

/-- 40_arithmetic.md R121 and R135: the carry in counts as one, its absence in SBC as a borrow. -/
def Obligations.CarryArithmeticResults : Prop :=
  ∀ (s : State) (rm rd : LowReg), s.pc ≠ topPc →
    decode (0b0100000101#10 ++ bits3 rm ++ bits3 rd) = .ok (.adc rm rd) ∧
    decode (0b0100000110#10 ++ bits3 rm ++ bits3 rd) = .ok (.sbc rm rd) ∧
    Gives (.adc rm rd) s (AddInto s rd (s.reg (lo rd)) (s.reg (lo rm)) (if s.flags.c then 1 else 0)) ∧
    Gives (.sbc rm rd) s (SubInto s rd (s.reg (lo rd)) (s.reg (lo rm)) (if s.flags.c then 0 else 1))

/-- 40_arithmetic.md R134, R136, R137 and R138. -/
def Obligations.SubtractResults : Prop :=
  ∀ (s : State) (rm rn rd : LowReg) (immed3 : BitVec 3) (immed8 : BitVec 8), s.pc ≠ topPc →
    decode (0b0001101#7 ++ bits3 rm ++ bits3 rn ++ bits3 rd) = .ok (.sub3 rm rn rd) ∧
    decode (0b0001111#7 ++ immed3 ++ bits3 rn ++ bits3 rd) = .ok (.sub1 immed3 rn rd) ∧
    decode (0b00111#5 ++ bits3 rd ++ immed8) = .ok (.sub2 rd immed8) ∧
    decode (0b0100001001#10 ++ bits3 rm ++ bits3 rd) = .ok (.neg rm rd) ∧
    Gives (.sub3 rm rn rd) s (SubInto s rd (s.reg (lo rn)) (s.reg (lo rm)) 0) ∧
    Gives (.sub1 immed3 rn rd) s (SubInto s rd (s.reg (lo rn)) (BitVec.ofNat 32 immed3.toNat) 0) ∧
    Gives (.sub2 rd immed8) s (SubInto s rd (s.reg (lo rd)) (BitVec.ofNat 32 immed8.toNat) 0) ∧
    Gives (.neg rm rd) s (SubInto s rd 0#32 (s.reg (lo rm)) 0)

/-- 40_arithmetic.md R129, R130 and R131: the flags are written and no register is. -/
def Obligations.CompareResults : Prop :=
  ∀ (s : State) (rm rn : LowReg) (immed8 : BitVec 8), s.pc ≠ topPc →
    decode (0b0100001011#10 ++ bits3 rm ++ bits3 rn) = .ok (.cmn rm rn) ∧
    decode (0b00101#5 ++ bits3 rn ++ immed8) = .ok (.cmp1 rn immed8) ∧
    decode (0b0100001010#10 ++ bits3 rm ++ bits3 rn) = .ok (.cmp2 rm rn) ∧
    Gives (.cmn rm rn) s (fun t =>
      AddFlags (s.reg (lo rn)) (s.reg (lo rm)) 0 t.flags ∧ t.pc = s.pc + 2#32 ∧ Keeps s t []) ∧
    Gives (.cmp1 rn immed8) s (fun t =>
      SubFlags (s.reg (lo rn)) (BitVec.ofNat 32 immed8.toNat) 0 t.flags ∧ t.pc = s.pc + 2#32 ∧ Keeps s t []) ∧
    Gives (.cmp2 rm rn) s (fun t =>
      SubFlags (s.reg (lo rn)) (s.reg (lo rm)) 0 t.flags ∧ t.pc = s.pc + 2#32 ∧ Keeps s t [])

/-- After CMP_2 the conditions of Table A.1 mean what their names say of Rn against Rm (40_arithmetic.md R131, corner
cases). -/
def Obligations.ConditionsAfterCompareMeanTheirNames : Prop :=
  ∀ (s t : State) (rm rn : LowReg), exec (.cmp2 rm rn) s = .next t →
    let a := s.reg (lo rn)
    let b := s.reg (lo rm)
    (conditionPassed .eq t.flags = true ↔ a = b) ∧ (conditionPassed .ne t.flags = true ↔ a ≠ b) ∧
    (conditionPassed .cs t.flags = true ↔ b.toNat ≤ a.toNat) ∧
    (conditionPassed .cc t.flags = true ↔ a.toNat < b.toNat) ∧
    (conditionPassed .hi t.flags = true ↔ b.toNat < a.toNat) ∧
    (conditionPassed .ls t.flags = true ↔ a.toNat ≤ b.toNat) ∧
    (conditionPassed .ge t.flags = true ↔ b.toInt ≤ a.toInt) ∧
    (conditionPassed .lt t.flags = true ↔ a.toInt < b.toInt) ∧
    (conditionPassed .gt t.flags = true ↔ b.toInt < a.toInt) ∧
    (conditionPassed .le t.flags = true ↔ a.toInt ≤ b.toInt)

/-- 40_arithmetic.md R132: with a high register among the two, the flags of Rn - Rm; with none, refused; and the HDL
profile lacks it. Register 15 reads PCval. -/
def Obligations.HighCompareResults : Prop :=
  ∀ (s : State) (rm rn : Reg),
    decode (0b01000101#8 ++ highBit rn ++ highBit rm ++ lowBits rm ++ lowBits rn) = .ok (.cmp3 rm rn) ∧
    (s.cfg.profile = .hdl → exec (.cmp3 rm rn) s = .refused (.notImplementedInHDL "CMP_3")) ∧
    (s.cfg.profile = .arch → rn.val < 8 → rm.val < 8 →
      exec (.cmp3 rm rn) s = .refused (.unpredictable .cmp3LowLow)) ∧
    (s.cfg.profile = .arch → 8 ≤ rn.val ∨ 8 ≤ rm.val → s.pc ≠ topPc →
      Gives (.cmp3 rm rn) s (fun t =>
        SubFlags (s.reg rn) (s.reg rm) 0 t.flags ∧ t.pc = s.pc + 2#32 ∧ Keeps s t []))

/-- 40_arithmetic.md R125: the sum with no flag written, low registers too; register 15 reads PCval, and as destination
it is a branch with bit 0 dropped; the HDL profile lacks it. -/
def Obligations.HighAddResults : Prop :=
  ∀ (s : State) (rm rd : Reg),
    decode (0b01000100#8 ++ highBit rd ++ highBit rm ++ lowBits rm ++ lowBits rd) = .ok (.add4 rm rd) ∧
    (s.cfg.profile = .hdl → exec (.add4 rm rd) s = .refused (.notImplementedInHDL "ADD_4")) ∧
    (s.cfg.profile = .arch → rd ≠ pcReg → s.pc ≠ topPc →
      Gives (.add4 rm rd) s (MoveInto s rd (s.reg rd + s.reg rm))) ∧
    (s.cfg.profile = .arch →
      Gives (.add4 rm pcReg) s (fun t =>
        t.pc.getLsbD 0 = false ∧ (∀ j, 1 ≤ j → t.pc.getLsbD j = (s.pcValue + s.reg rm).getLsbD j) ∧
        t.flags = s.flags ∧ Keeps s t []))

/-- 41_logical_move.md R156: refused with two low registers; register 15 reads PCval, and as destination it is a branch
with bit 0 dropped; the HDL profile lacks it. -/
def Obligations.HighMoveResults : Prop :=
  ∀ (s : State) (rm rd : Reg),
    decode (0b01000110#8 ++ highBit rd ++ highBit rm ++ lowBits rm ++ lowBits rd) = .ok (.mov3 rm rd) ∧
    (s.cfg.profile = .hdl → exec (.mov3 rm rd) s = .refused (.notImplementedInHDL "MOV_3")) ∧
    (s.cfg.profile = .arch → rd.val < 8 → rm.val < 8 →
      exec (.mov3 rm rd) s = .refused (.unpredictable .mov3LowLow)) ∧
    (s.cfg.profile = .arch → 8 ≤ rd.val ∨ 8 ≤ rm.val → rd ≠ pcReg → s.pc ≠ topPc →
      Gives (.mov3 rm rd) s (MoveInto s rd (s.reg rm))) ∧
    (s.cfg.profile = .arch →
      Gives (.mov3 rm pcReg) s (fun t =>
        t.pc.getLsbD 0 = false ∧ (∀ j, 1 ≤ j → t.pc.getLsbD j = (s.reg rm).getLsbD j) ∧
        t.flags = s.flags ∧ Keeps s t []))

/-- 40_arithmetic.md R126, R127, R128 and R139: address arithmetic on the PC (made a multiple of 4) and SP, with no
flag written. -/
def Obligations.AddressArithmeticResults : Prop :=
  ∀ (s : State) (rd : LowReg) (immed8 : BitVec 8) (immed7 : BitVec 7), s.pc ≠ topPc →
    decode (0b10100#5 ++ bits3 rd ++ immed8) = .ok (.add5 rd immed8) ∧
    decode (0b10101#5 ++ bits3 rd ++ immed8) = .ok (.add6 rd immed8) ∧
    decode (0b101100000#9 ++ immed7) = .ok (.add7 immed7) ∧
    decode (0b101100001#9 ++ immed7) = .ok (.sub4 immed7) ∧
    Gives (.add5 rd immed8) s (MoveInto s (lo rd)
      (BitVec.ofNat 32 (s.pcValue.toNat / 4 * 4 + 4 * immed8.toNat))) ∧
    Gives (.add6 rd immed8) s (MoveInto s (lo rd) (s.reg spReg + BitVec.ofNat 32 (4 * immed8.toNat))) ∧
    Gives (.add7 immed7) s (MoveInto s spReg (s.reg spReg + BitVec.ofNat 32 (4 * immed7.toNat))) ∧
    Gives (.sub4 immed7) s (MoveInto s spReg (s.reg spReg - BitVec.ofNat 32 (4 * immed7.toNat)))

/-- 40_arithmetic.md R133: the low 32 bits of the product. That they are the same for signed and unsigned operands is the
spec's own inference ("arithmetic modulo 2^32"), stated here as a consequence. -/
def Obligations.MultiplyResults : Prop :=
  ∀ (s : State) (rm rd : LowReg), s.pc ≠ topPc →
    decode (0b0100001101#10 ++ bits3 rm ++ bits3 rd) = .ok (.mul rm rd) ∧
    Gives (.mul rm rd) s (fun t =>
      LogicInto s rd (s.reg (lo rm) * s.reg (lo rd)) t ∧
      t.reg (lo rd) = BitVec.ofInt 32 ((s.reg (lo rm)).toInt * (s.reg (lo rd)).toInt))

/-! ## Logic, moves and shifts -/

/-- 41_logical_move.md R151, R152, R153, R154, R157, R158 and R159: bitwise results, N and Z from them, C and V
unchanged; TST writes no register. -/
def Obligations.LogicalResults : Prop :=
  ∀ (s : State) (rm rd : LowReg) (immed8 : BitVec 8), s.pc ≠ topPc →
    decode (0b0100000000#10 ++ bits3 rm ++ bits3 rd) = .ok (.and rm rd) ∧
    decode (0b0100001110#10 ++ bits3 rm ++ bits3 rd) = .ok (.bic rm rd) ∧
    decode (0b0100000001#10 ++ bits3 rm ++ bits3 rd) = .ok (.eor rm rd) ∧
    decode (0b00100#5 ++ bits3 rd ++ immed8) = .ok (.mov1 rd immed8) ∧
    decode (0b0100001111#10 ++ bits3 rm ++ bits3 rd) = .ok (.mvn rm rd) ∧
    decode (0b0100001100#10 ++ bits3 rm ++ bits3 rd) = .ok (.orr rm rd) ∧
    decode (0b0100001000#10 ++ bits3 rm ++ bits3 rd) = .ok (.tst rm rd) ∧
    Gives (.and rm rd) s (LogicInto s rd (s.reg (lo rd) &&& s.reg (lo rm))) ∧
    Gives (.bic rm rd) s (LogicInto s rd (s.reg (lo rd) &&& ~~~(s.reg (lo rm)))) ∧
    Gives (.eor rm rd) s (LogicInto s rd (s.reg (lo rd) ^^^ s.reg (lo rm))) ∧
    Gives (.mov1 rd immed8) s (LogicInto s rd (BitVec.ofNat 32 immed8.toNat)) ∧
    Gives (.mvn rm rd) s (LogicInto s rd (~~~(s.reg (lo rm)))) ∧
    Gives (.orr rm rd) s (LogicInto s rd (s.reg (lo rd) ||| s.reg (lo rm))) ∧
    Gives (.tst rm rd) s (fun t =>
      NZOf (s.reg (lo rd) &&& s.reg (lo rm)) t.flags ∧ t.flags.c = s.flags.c ∧ t.flags.v = s.flags.v ∧
      t.pc = s.pc + 2#32 ∧ Keeps s t [])

/-- 42_shift_rotate.md R171, R173 and R175, every bit of the result and the carry said by position. -/
def Obligations.ImmediateShiftResults : Prop :=
  ∀ (s : State) (immed5 : BitVec 5) (rm rd : LowReg), s.pc ≠ topPc →
    let v := s.reg (lo rm)
    let n := oneTo32 immed5
    decode (0b00010#5 ++ immed5 ++ bits3 rm ++ bits3 rd) = .ok (.asr1 immed5 rm rd) ∧
    decode (0b00000#5 ++ immed5 ++ bits3 rm ++ bits3 rd) = .ok (.lsl1 immed5 rm rd) ∧
    decode (0b00001#5 ++ immed5 ++ bits3 rm ++ bits3 rd) = .ok (.lsr1 immed5 rm rd) ∧
    Gives (.asr1 immed5 rm rd) s (ShiftInto s rd (signedBit v n) (signedOut v n s.flags.c)) ∧
    Gives (.lsl1 immed5 rm rd) s
      (ShiftInto s rd (leftBit v immed5.toNat) (leftOut v immed5.toNat s.flags.c)) ∧
    Gives (.lsr1 immed5 rm rd) s (ShiftInto s rd (rightBit v n) (rightOut v n s.flags.c))

/-- 42_shift_rotate.md R172, R174, R176 and R177, every bit of the result and the carry said by position; the amount is
the low byte of Rs. -/
def Obligations.RegisterShiftResults : Prop :=
  ∀ (s : State) (rs rd : LowReg), s.pc ≠ topPc →
    let v := s.reg (lo rd)
    let n := (s.reg (lo rs)).toNat % 256
    decode (0b0100000100#10 ++ bits3 rs ++ bits3 rd) = .ok (.asr2 rs rd) ∧
    decode (0b0100000010#10 ++ bits3 rs ++ bits3 rd) = .ok (.lsl2 rs rd) ∧
    decode (0b0100000011#10 ++ bits3 rs ++ bits3 rd) = .ok (.lsr2 rs rd) ∧
    decode (0b0100000111#10 ++ bits3 rs ++ bits3 rd) = .ok (.ror rs rd) ∧
    Gives (.asr2 rs rd) s (ShiftInto s rd (signedBit v n) (signedOut v n s.flags.c)) ∧
    Gives (.lsl2 rs rd) s (ShiftInto s rd (leftBit v n) (leftOut v n s.flags.c)) ∧
    Gives (.lsr2 rs rd) s (ShiftInto s rd (rightBit v n) (rightOut v n s.flags.c)) ∧
    Gives (.ror rs rd) s (ShiftInto s rd (rotatedBit v n) (rotatedOut v n s.flags.c))

/-- The shift functions are their one-bit shifts repeated, for every amount (00_scope.md R11: "derived by applying the
source's one-bit description n times"). -/
def Obligations.ShiftsIterateTheOneBitShift : Prop :=
  Iterates lslC leftOnce ∧ Iterates lsrC rightOnce ∧ Iterates asrC signedOnce ∧ Iterates rorC rotateOnce

/-! ## Branches -/

/-- 43_branch.md R190 with Table A.1 (00_scope.md R12): taken, the pc moves by twice the signed immediate from PCval;
not taken, it advances; condition 1110 is always or undefined by the parameter. -/
def Obligations.ConditionalBranchResults : Prop :=
  ∀ (s : State) (cond : Cond) (d : BitVec 8),
    decode (0b1101#4 ++ cond.code ++ d) = .ok (.b1 cond d) ∧
    (cond = .al → s.cfg.cond1110 = .undefined →
      exec (.b1 cond d) s = .fault (.undefinedInstruction (0b11011110#8 ++ d))) ∧
    ((cond ≠ .al ∨ s.cfg.cond1110 = .always) → tablePasses cond s.flags = true →
      Gives (.b1 cond d) s (BranchesTo s (s.pcValue + BitVec.ofInt 32 (2 * d.toInt)) [])) ∧
    (tablePasses cond s.flags = false → s.pc ≠ topPc →
      Gives (.b1 cond d) s (BranchesTo s (s.pc + 2#32) []))

/-- 43_branch.md R191 and R199. -/
def Obligations.UnconditionalBranchResults : Prop :=
  ∀ (s : State) (d : BitVec 11),
    decode (0b11100#5 ++ d) = .ok (.b2 d) ∧
    Gives (.b2 d) s (BranchesTo s (s.pcValue + BitVec.ofInt 32 (2 * d.toInt)) [])

/-- 43_branch.md R192 and R193: the first half leaves PCval plus the high part in LR; the second calls LR plus the low
part, bit 0 dropped, and leaves the odd return address in LR. -/
def Obligations.BranchWithLinkResults : Prop :=
  ∀ (s : State) (o : BitVec 11),
    decode (0b11110#5 ++ o) = .ok (.blH10 o) ∧
    decode (0b11111#5 ++ o) = .ok (.blH11 o) ∧
    (s.pc ≠ topPc → Gives (.blH10 o) s (MoveInto s lrReg (s.pcValue + BitVec.ofInt 32 (4096 * o.toInt)))) ∧
    Gives (.blH11 o) s (fun t =>
      let off : Word := match s.cfg.blLowExt with
        | .zero => BitVec.ofNat 32 (2 * o.toNat)
        | .sign => BitVec.ofInt 32 (2 * o.toInt)
      t.reg lrReg = (s.pc + 2#32) ||| 1#32 ∧
      t.pc.getLsbD 0 = false ∧ (∀ j, 1 ≤ j → t.pc.getLsbD j = (s.reg lrReg + off).getLsbD j) ∧
      t.flags = s.flags ∧ Keeps s t [lrReg])

/-- 43_branch.md R195, the spec's own inference from R192 and R193: the BL pair at A calls `A + 4` plus the 23-bit offset
of its two fields and leaves `(A + 4) OR 1` in LR; under `BL_LOW_EXT = sign` each field is extended alone; the BLX pair
goes to the same place with bit 1 cleared and T clear (an exit delivered as a next state, entry 9). With the fields of
the assembler's split (30_encoding.md R105) the pair reaches every even target in range. The pc is even in every
reachable state (10_state.md R24), and `PC_READ_OFFSET` is the fixed 4. -/
def Obligations.BranchWithLinkPairReachesItsTarget : Prop :=
  ∀ (s t u : State) (hi low : BitVec 11),
    s.cfg.pcReadOffset = 4#32 → s.pc.getLsbD 0 = false → exec (.blH10 hi) s = .next t →
    let offset : Word := match s.cfg.blLowExt with
      | .zero => (hi ++ low ++ 0#1).signExtend 32
      | .sign => BitVec.ofInt 32 (4096 * hi.toInt + 2 * low.toInt)
    (exec (.blH11 low) t = .next u →
      u.reg lrReg = (s.pc + 4#32) ||| 1#32 ∧ u.pc = s.pc + 4#32 + offset ∧ u.flags = s.flags ∧ Keeps s u [lrReg]) ∧
    (exec (.blxH01 low) t = .next u →
      u.reg lrReg = (s.pc + 4#32) ||| 1#32 ∧ u.pc.toNat = (s.pc + 4#32 + offset).toNat / 4 * 4 ∧ u.t = false ∧
      u.flags = s.flags) ∧
    (∀ target : Word, let d := target - (s.pc + 4#32)
      d.getLsbD 0 = false → -2 ^ 22 ≤ d.toInt → d.toInt ≤ 2 ^ 22 - 2 → s.cfg.blLowExt = .zero →
      hi = d.extractLsb' 12 11 → low = d.extractLsb' 1 11 → exec (.blH11 low) t = .next u → u.pc = target)

/-- 43_branch.md R194: as BL_H11 with T cleared and the target a multiple of 4, the exit to ARM code delivered as a next
state (entry 9); undefined with `TVARIANT = 4`, and the HDL profile lacks it. -/
def Obligations.BranchLinkExchangeImmediateResults : Prop :=
  ∀ (s : State) (o : BitVec 11),
    decode (0b11101#5 ++ o) = .ok (.blxH01 o) ∧
    (s.cfg.tvariant = .v4 → exec (.blxH01 o) s = .fault (.undefinedInstruction (0b11101#5 ++ o))) ∧
    (s.cfg.tvariant = .v5 → s.cfg.profile = .hdl →
      exec (.blxH01 o) s = .refused (.notImplementedInHDL "BLX_H01")) ∧
    (s.cfg.tvariant = .v5 → s.cfg.profile = .arch →
      let off : Word := match s.cfg.blLowExt with
        | .zero => BitVec.ofNat 32 (2 * o.toNat)
        | .sign => BitVec.ofInt 32 (2 * o.toInt)
      Gives (.blxH01 o) s (fun t =>
        ExchangesTo s (BitVec.ofNat 32 ((s.reg lrReg + off).toNat / 4 * 4)) false [lrReg] t ∧
        t.reg lrReg = (s.pc + 2#32) ||| 1#32))

/-- 43_branch.md R196: Rm is read before LR is written; T takes its bit 0, an exit to ARM code delivered as a next state
(entry 9); refused with nonzero SBZ bits and for LR; undefined with `TVARIANT = 4`, and the HDL profile lacks it. -/
def Obligations.BranchLinkExchangeRegisterResults : Prop :=
  ∀ (s : State) (rm : Reg) (sbz : BitVec 3),
    decode (0b010001111#9 ++ highBit rm ++ lowBits rm ++ sbz) = .ok (.blx2 rm sbz) ∧
    (s.cfg.tvariant = .v4 → exec (.blx2 rm sbz) s =
      .fault (.undefinedInstruction (0b010001111#9 ++ highBit rm ++ lowBits rm ++ sbz))) ∧
    (s.cfg.tvariant = .v5 → s.cfg.profile = .hdl →
      exec (.blx2 rm sbz) s = .refused (.notImplementedInHDL "BLX_2")) ∧
    (s.cfg.tvariant = .v5 → s.cfg.profile = .arch →
      (sbz ≠ 0#3 → exec (.blx2 rm sbz) s = .refused (.unpredictable .sbz)) ∧
      exec (.blx2 lrReg 0#3) s = .refused (.unpredictable .blxLr) ∧
      (rm ≠ lrReg → Gives (.blx2 rm 0#3) s (fun t =>
        ExchangesTo s (BitVec.ofNat 32 ((s.reg rm).toNat / 2 * 2)) ((s.reg rm).getLsbD 0) [lrReg] t ∧
        t.reg lrReg = (s.pc + 2#32) ||| 1#32)))

/-- 43_branch.md R197: T takes bit 0 of Rm and the pc the rest, an exit to ARM code delivered as a next state (entry 9);
refused with nonzero SBZ bits; the HDL profile lacks it. -/
def Obligations.BranchExchangeResults : Prop :=
  ∀ (s : State) (rm : Reg) (sbz : BitVec 3),
    decode (0b010001110#9 ++ highBit rm ++ lowBits rm ++ sbz) = .ok (.bx rm sbz) ∧
    (s.cfg.profile = .hdl → exec (.bx rm sbz) s = .refused (.notImplementedInHDL "BX")) ∧
    (s.cfg.profile = .arch →
      (sbz ≠ 0#3 → exec (.bx rm sbz) s = .refused (.unpredictable .sbz)) ∧
      Gives (.bx rm 0#3) s (fun t =>
        ExchangesTo s (BitVec.ofNat 32 ((s.reg rm).toNat / 2 * 2)) ((s.reg rm).getLsbD 0) [] t))

/-! ## System -/

/-- 44_system.md R210 and 60_exceptions.md R274: BKPT hands the environment the immediate and the address of the next
instruction and changes nothing else, and the step after it stops (entry 8); refused at 0xFFFFFFFE (10_state.md R28;
entry 11); undefined with `TVARIANT = 4`, and the HDL profile lacks it. -/
def Obligations.BreakpointResults : Prop :=
  ∀ (s : State) (v : BitVec 8),
    decode (0b10111110#8 ++ v) = .ok (.bkpt v) ∧
    (s.cfg.tvariant = .v4 → exec (.bkpt v) s = .fault (.undefinedInstruction (0b10111110#8 ++ v))) ∧
    (s.cfg.tvariant = .v5 → s.cfg.profile = .hdl → exec (.bkpt v) s = .refused (.notImplementedInHDL "BKPT")) ∧
    (s.cfg.tvariant = .v5 → s.cfg.profile = .arch →
      (s.pc = topPc → exec (.bkpt v) s = .refused (.unpredictable .pcWrap)) ∧
      (s.pc ≠ topPc → Gives (.bkpt v) s (fun t =>
        t.trap = some ⟨.breakpoint, v, s.pc + 2#32⟩ ∧ { t with trap := s.trap } = s ∧
        (s.halted = false → s.t = true → step t = .refused (.trapped ⟨.breakpoint, v, s.pc + 2#32⟩)))))

/-- 44_system.md R211: in the ARCH profile SWI hands the environment the immediate and the address of the next
instruction and changes nothing else, and the step after it stops (entry 8); in the HDL profile it halts at the next
instruction, and a halted machine takes no step (10_state.md R38; entry 10); in both it is refused at 0xFFFFFFFE
(10_state.md R28; entry 11). -/
def Obligations.SoftwareInterruptResults : Prop :=
  ∀ (s : State) (v : BitVec 8),
    decode (0b11011111#8 ++ v) = .ok (.swi v) ∧
    (s.pc = topPc → exec (.swi v) s = .refused (.unpredictable .pcWrap)) ∧
    (s.cfg.profile = .arch → s.pc ≠ topPc →
      Gives (.swi v) s (fun t =>
        t.trap = some ⟨.softwareInterrupt, v, s.pc + 2#32⟩ ∧ { t with trap := s.trap } = s ∧
        (s.halted = false → s.t = true → step t = .refused (.trapped ⟨.softwareInterrupt, v, s.pc + 2#32⟩)))) ∧
    (s.cfg.profile = .hdl → s.pc ≠ topPc →
      Gives (.swi v) s (fun t =>
        t.halted = true ∧ t.pc = s.pc + 2#32 ∧ { t with halted := s.halted, pc := s.pc } = s ∧
        step t = .fault .halted))

/-- The machine is halted only by SWI in the HDL profile, and a trap is set only by SWI or BKPT in the ARCH profile
(10_state.md R38; 60_exceptions.md R271). -/
def Obligations.ExitsAreTakenOnlyBySystemInstructions : Prop :=
  ∀ (i : Instr) (s t : State), exec i s = .next t →
    (t.halted ≠ s.halted → s.cfg.profile = .hdl ∧ ∃ v, i = .swi v) ∧
    (t.trap ≠ s.trap → s.cfg.profile = .arch ∧ ((∃ v, i = .swi v) ∨ (∃ v, i = .bkpt v)))

/-- What the environment resumes with after a trap (60_exceptions.md R275; entry 32): the machine runs on at the address
after the trapping instruction, with nothing else changed. -/
def Obligations.TrapReturnResumesAfterTheTrap : Prop :=
  ∀ (s t : State) (v : BitVec 8), s.trap = none → s.cfg.profile = .arch →
    (exec (.swi v) s = .next t ∨ exec (.bkpt v) s = .next t) →
    t.resumeFromTrap = { s with pc := s.pc + 2#32 }

/-! ## The constraints and the HDL profile -/

/-- 30_encoding.md R100: every constrained word is refused with its reason, in the order of the rule's table (the HDL
profile and `TVARIANT = 4` lack some of the instructions; PUSH and POP of nothing are refused in both profiles); ADD_4
with two low registers is not among them and completes. -/
def Obligations.ConstrainedEncodingsAreRefused : Prop :=
  ∀ (s : State) (rm rd : Reg) (rn : LowReg) (list : BitVec 8) (sbz : BitVec 3),
    exec (.push false 0#8) s = .refused (.unpredictable .emptyList) ∧
    exec (.pop false 0#8) s = .refused (.unpredictable .emptyList) ∧
    (s.cfg.profile = .arch →
      (rd.val < 8 → rm.val < 8 → exec (.cmp3 rm rd) s = .refused (.unpredictable .cmp3LowLow)) ∧
      (rd.val < 8 → rm.val < 8 → exec (.mov3 rm rd) s = .refused (.unpredictable .mov3LowLow)) ∧
      exec (.ldmia rn 0#8) s = .refused (.unpredictable .emptyList) ∧
      exec (.stmia rn 0#8) s = .refused (.unpredictable .emptyList) ∧
      (sbz ≠ 0#3 → exec (.bx rm sbz) s = .refused (.unpredictable .sbz)) ∧
      (sbz ≠ 0#3 → s.cfg.tvariant = .v5 → exec (.blx2 rm sbz) s = .refused (.unpredictable .sbz)) ∧
      (list.getLsbD rn.val = true → exec (.ldmia rn list) s = .refused (.unpredictable .ldmiaBaseInList)) ∧
      (list.getLsbD rn.val = true → rank list rn.val ≠ 0 →
        exec (.stmia rn list) s = .refused (.unpredictable .stmiaBaseInList)) ∧
      (∀ v, BlockOk s (s.reg spReg) (size list + 1) →
        s.memRead (s.reg spReg + BitVec.ofNat 32 (4 * size list)) .word = .ok v → v.getLsbD 0 = false →
        exec (.pop true list) s = .refused (.unpredictable .popPcBit0)) ∧
      (s.cfg.tvariant = .v5 → exec (.blx2 lrReg 0#3) s = .refused (.unpredictable .blxLr)) ∧
      (rd.val < 8 → rm.val < 8 → s.pc ≠ topPc → Gives (.add4 rm rd) s (MoveInto s rd (s.reg rd + s.reg rm))))

/-- 30_encoding.md R109: the HDL profile refuses by name the nine forms it lacks (those of `TVARIANT = 5` where they
exist). -/
def Obligations.HdlProfileRefusesWhatItLacks : Prop :=
  ∀ (s : State) (rm rd : Reg) (rn : LowReg) (list v : BitVec 8) (o : BitVec 11) (sbz : BitVec 3),
    s.cfg.profile = .hdl →
    exec (.add4 rm rd) s = .refused (.notImplementedInHDL "ADD_4") ∧
    exec (.bx rm sbz) s = .refused (.notImplementedInHDL "BX") ∧
    exec (.cmp3 rm rd) s = .refused (.notImplementedInHDL "CMP_3") ∧
    exec (.ldmia rn list) s = .refused (.notImplementedInHDL "LDMIA") ∧
    exec (.mov3 rm rd) s = .refused (.notImplementedInHDL "MOV_3") ∧
    exec (.stmia rn list) s = .refused (.notImplementedInHDL "STMIA") ∧
    (s.cfg.tvariant = .v5 →
      exec (.bkpt v) s = .refused (.notImplementedInHDL "BKPT") ∧
      exec (.blxH01 o) s = .refused (.notImplementedInHDL "BLX_H01") ∧
      exec (.blx2 rm sbz) s = .refused (.notImplementedInHDL "BLX_2"))

/-! ## Memory -/

/-- 20_memory.md R56: MemRead, its checks and its value in both byte orders. -/
def Obligations.MemReadValues : Prop :=
  ∀ (s : State) (a : Word),
    let b : Nat → Byte := fun i => Memory.byteAt s.mem (a.toNat + i)
    (∀ n : Width, a.toNat % n.bytes ≠ 0 → s.memRead a n = .error (.alignmentFault a n)) ∧
    (∀ n : Width, a.toNat % n.bytes = 0 → ¬ Admitted s a.toNat n.bytes →
      s.memRead a n = .error (.memoryNotAdmitted a n)) ∧
    (Accessible s a 1 → s.memRead a .byte = .ok ((b 0).setWidth 32)) ∧
    (Accessible s a 2 → s.memRead a .half = .ok (match s.cfg.endian with
      | .little => (b 1 ++ b 0).setWidth 32
      | .big => (b 0 ++ b 1).setWidth 32)) ∧
    (Accessible s a 4 → s.memRead a .word = .ok (match s.cfg.endian with
      | .little => b 3 ++ b 2 ++ b 1 ++ b 0
      | .big => b 0 ++ b 1 ++ b 2 ++ b 3))

/-- 20_memory.md R57: MemWrite, its checks, the bytes it stores in both byte orders, and nothing else. -/
def Obligations.MemWriteBytes : Prop :=
  ∀ (s : State) (a v : Word) (n : Width),
    (a.toNat % n.bytes ≠ 0 → s.memWrite a n v = .error (.alignmentFault a n)) ∧
    (a.toNat % n.bytes = 0 → ¬ Admitted s a.toNat n.bytes → s.memWrite a n v = .error (.memoryNotAdmitted a n)) ∧
    (Accessible s a n.bytes → ∃ t, s.memWrite a n v = .ok t ∧
      (∀ i, i < n.bytes → Memory.byteAt t.mem (a.toNat + i) = match s.cfg.endian with
        | .little => v.extractLsb' (8 * i) 8
        | .big => v.extractLsb' (8 * (n.bytes - 1 - i)) 8) ∧
      t.flags = s.flags ∧ t.pc = s.pc ∧ KeepsBut s t [] a.toNat n.bytes)

/-- A load after a store to the same bytes sees that store, and memory keeps its canonical form (20_memory.md R63). -/
def Obligations.LoadAfterStoreSeesTheStore : Prop :=
  ∀ (s t : State) (a v : Word) (n : Width), s.memWrite a n v = .ok t →
    t.memRead a n = .ok (BitVec.ofNat 32 (v.toNat % 2 ^ (8 * n.bytes))) ∧
    (Memory.wf s.mem → Memory.wf t.mem) ∧
    (∀ (b : Word) (m : Width), (a.toNat + n.bytes ≤ b.toNat ∨ b.toNat + m.bytes ≤ a.toNat) →
      t.memRead b m = s.memRead b m)

/-- The four addressing modes (46_load_store.md R240 (a)), as numbers modulo 2^32 (20_memory.md R68). -/
def Obligations.AddressingModes : Prop :=
  ∀ (s : State) (rn rm : LowReg) (immed5 : BitVec 5) (immed8 : BitVec 8),
    (s.addrImmediate rn immed5 4).toNat = ((s.reg (lo rn)).toNat + immed5.toNat * 4) % 2 ^ 32 ∧
    (s.addrImmediate rn immed5 2).toNat = ((s.reg (lo rn)).toNat + immed5.toNat * 2) % 2 ^ 32 ∧
    (s.addrImmediate rn immed5 1).toNat = ((s.reg (lo rn)).toNat + immed5.toNat) % 2 ^ 32 ∧
    (s.addrRegister rn rm).toNat = ((s.reg (lo rn)).toNat + (s.reg (lo rm)).toNat) % 2 ^ 32 ∧
    (s.addrPc immed8).toNat = (s.pcValue.toNat / 4 * 4 + immed8.toNat * 4) % 2 ^ 32 ∧
    (s.addrPc immed8).toNat % 4 = 0 ∧
    (s.addrSp immed8).toNat = ((s.reg spReg).toNat + immed8.toNat * 4) % 2 ^ 32

/-- 46_load_store.md R241, R242, R243 and R244: word loads complete where the access is aligned and in `MEM`, and fault
at the computed address elsewhere. -/
def Obligations.WordLoadResults : Prop :=
  ∀ (s : State) (rm rn rd : LowReg) (immed5 : BitVec 5) (immed8 : BitVec 8),
    decode (0b01101#5 ++ immed5 ++ bits3 rn ++ bits3 rd) = .ok (.ldr1 immed5 rn rd) ∧
    decode (0b0101100#7 ++ bits3 rm ++ bits3 rn ++ bits3 rd) = .ok (.ldr2 rm rn rd) ∧
    decode (0b01001#5 ++ bits3 rd ++ immed8) = .ok (.ldr3 rd immed8) ∧
    decode (0b10011#5 ++ bits3 rd ++ immed8) = .ok (.ldr4 rd immed8) ∧
    LoadsInto (.ldr1 immed5 rn rd) s rd (s.addrImmediate rn immed5 4) .word id ∧
    LoadsInto (.ldr2 rm rn rd) s rd (s.addrRegister rn rm) .word id ∧
    LoadsInto (.ldr3 rd immed8) s rd (s.addrPc immed8) .word id ∧
    LoadsInto (.ldr4 rd immed8) s rd (s.addrSp immed8) .word id

/-- 46_load_store.md R245 to R250: byte and halfword loads, zero-extended as read or sign-extended (20_memory.md R58),
and their faults. -/
def Obligations.NarrowLoadResults : Prop :=
  ∀ (s : State) (rm rn rd : LowReg) (immed5 : BitVec 5),
    decode (0b01111#5 ++ immed5 ++ bits3 rn ++ bits3 rd) = .ok (.ldrb1 immed5 rn rd) ∧
    decode (0b0101110#7 ++ bits3 rm ++ bits3 rn ++ bits3 rd) = .ok (.ldrb2 rm rn rd) ∧
    decode (0b10001#5 ++ immed5 ++ bits3 rn ++ bits3 rd) = .ok (.ldrh1 immed5 rn rd) ∧
    decode (0b0101101#7 ++ bits3 rm ++ bits3 rn ++ bits3 rd) = .ok (.ldrh2 rm rn rd) ∧
    decode (0b0101011#7 ++ bits3 rm ++ bits3 rn ++ bits3 rd) = .ok (.ldrsb rm rn rd) ∧
    decode (0b0101111#7 ++ bits3 rm ++ bits3 rn ++ bits3 rd) = .ok (.ldrsh rm rn rd) ∧
    LoadsInto (.ldrb1 immed5 rn rd) s rd (s.addrImmediate rn immed5 1) .byte
      (fun v => BitVec.ofNat 32 (v.toNat % 2 ^ 8)) ∧
    LoadsInto (.ldrb2 rm rn rd) s rd (s.addrRegister rn rm) .byte (fun v => BitVec.ofNat 32 (v.toNat % 2 ^ 8)) ∧
    LoadsInto (.ldrh1 immed5 rn rd) s rd (s.addrImmediate rn immed5 2) .half
      (fun v => BitVec.ofNat 32 (v.toNat % 2 ^ 16)) ∧
    LoadsInto (.ldrh2 rm rn rd) s rd (s.addrRegister rn rm) .half (fun v => BitVec.ofNat 32 (v.toNat % 2 ^ 16)) ∧
    LoadsInto (.ldrsb rm rn rd) s rd (s.addrRegister rn rm) .byte
      (fun v => BitVec.ofInt 32 (BitVec.ofNat 8 v.toNat).toInt) ∧
    LoadsInto (.ldrsh rm rn rd) s rd (s.addrRegister rn rm) .half
      (fun v => BitVec.ofInt 32 (BitVec.ofNat 16 v.toNat).toInt)

/-- 46_load_store.md R251 to R257: stores complete where the access is aligned and in `MEM`, write the bytes at the
computed address only, and fault elsewhere. -/
def Obligations.StoreResults : Prop :=
  ∀ (s : State) (rm rn rd : LowReg) (immed5 : BitVec 5) (immed8 : BitVec 8),
    decode (0b01100#5 ++ immed5 ++ bits3 rn ++ bits3 rd) = .ok (.str1 immed5 rn rd) ∧
    decode (0b0101000#7 ++ bits3 rm ++ bits3 rn ++ bits3 rd) = .ok (.str2 rm rn rd) ∧
    decode (0b10010#5 ++ bits3 rd ++ immed8) = .ok (.str3 rd immed8) ∧
    decode (0b01110#5 ++ immed5 ++ bits3 rn ++ bits3 rd) = .ok (.strb1 immed5 rn rd) ∧
    decode (0b0101010#7 ++ bits3 rm ++ bits3 rn ++ bits3 rd) = .ok (.strb2 rm rn rd) ∧
    decode (0b10000#5 ++ immed5 ++ bits3 rn ++ bits3 rd) = .ok (.strh1 immed5 rn rd) ∧
    decode (0b0101001#7 ++ bits3 rm ++ bits3 rn ++ bits3 rd) = .ok (.strh2 rm rn rd) ∧
    StoresFrom (.str1 immed5 rn rd) s rd (s.addrImmediate rn immed5 4) .word ∧
    StoresFrom (.str2 rm rn rd) s rd (s.addrRegister rn rm) .word ∧
    StoresFrom (.str3 rd immed8) s rd (s.addrSp immed8) .word ∧
    StoresFrom (.strb1 immed5 rn rd) s rd (s.addrImmediate rn immed5 1) .byte ∧
    StoresFrom (.strb2 rm rn rd) s rd (s.addrRegister rn rm) .byte ∧
    StoresFrom (.strh1 immed5 rn rd) s rd (s.addrImmediate rn immed5 2) .half ∧
    StoresFrom (.strh2 rm rn rd) s rd (s.addrRegister rn rm) .half

/-! ## Block transfers -/

/-- 45_load_store_multiple.md R221: each listed register takes the word at its place above Rn, and Rn the address after
the last; no other register changes. An empty list and Rn in the list are refused, a block that fails its checks stops,
and the HDL profile lacks LDMIA. -/
def Obligations.LoadMultipleResults : Prop :=
  ∀ (s : State) (rn : LowReg) (list : BitVec 8),
    let start := s.reg (lo rn)
    decode (0b11001#5 ++ bits3 rn ++ list) = .ok (.ldmia rn list) ∧
    (s.cfg.profile = .hdl → exec (.ldmia rn list) s = .refused (.notImplementedInHDL "LDMIA")) ∧
    (s.cfg.profile = .arch →
      (list = 0#8 → exec (.ldmia rn list) s = .refused (.unpredictable .emptyList)) ∧
      (list.getLsbD rn.val = true → exec (.ldmia rn list) s = .refused (.unpredictable .ldmiaBaseInList)) ∧
      (list ≠ 0#8 → list.getLsbD rn.val = false → StopsAt (.ldmia rn list) s start (size list)) ∧
      (list.getLsbD rn.val = false → BlockOk s start (size list) → s.pc ≠ topPc →
        Gives (.ldmia rn list) s (fun t =>
          LoadedFrom s t start list ∧ t.reg (lo rn) = start + BitVec.ofNat 32 (4 * size list) ∧
          t.flags = s.flags ∧ t.pc = s.pc + 2#32 ∧ Keeps s t (lo rn :: named list))))

/-- 45_load_store_multiple.md R224: each listed register, a listed base with its old value, is stored at its place above
Rn, and Rn takes the address after the last; no other byte and no other register changes. An empty list and Rn in the
list but not lowest are refused, a block that fails its checks stops, and the HDL profile lacks STMIA. -/
def Obligations.StoreMultipleResults : Prop :=
  ∀ (s : State) (rn : LowReg) (list : BitVec 8),
    let start := s.reg (lo rn)
    let misplaced := list.getLsbD rn.val = true ∧ rank list rn.val ≠ 0
    decode (0b11000#5 ++ bits3 rn ++ list) = .ok (.stmia rn list) ∧
    (s.cfg.profile = .hdl → exec (.stmia rn list) s = .refused (.notImplementedInHDL "STMIA")) ∧
    (s.cfg.profile = .arch →
      (list = 0#8 → exec (.stmia rn list) s = .refused (.unpredictable .emptyList)) ∧
      (misplaced → exec (.stmia rn list) s = .refused (.unpredictable .stmiaBaseInList)) ∧
      (list ≠ 0#8 → ¬ misplaced → StopsAt (.stmia rn list) s start (size list)) ∧
      (¬ misplaced → BlockOk s start (size list) → s.pc ≠ topPc →
        Gives (.stmia rn list) s (fun t =>
          StoredAt s t start list ∧ t.reg (lo rn) = start + BitVec.ofNat 32 (4 * size list) ∧
          t.flags = s.flags ∧ t.pc = s.pc + 2#32 ∧ KeepsBut s t [lo rn] start.toNat (4 * size list))))

/-- 45_load_store_multiple.md R222. ARCH: listed registers from SP upward, then with `R = 1` the pc from the last word,
whose bit 0 must be set and is dropped; SP rises by the size of the block. HDL: the lowest listed register alone, `R`
ignored. An empty list is refused, and a block that fails its checks stops. -/
def Obligations.PopResults : Prop :=
  ∀ (s : State) (r : Bool) (list : BitVec 8),
    let start := s.reg spReg
    let k := size list + r.toNat
    decode (0b1011110#7 ++ BitVec.ofBool r ++ list) = .ok (.pop r list) ∧
    (s.cfg.profile = .arch →
      (k = 0 → exec (.pop r list) s = .refused (.unpredictable .emptyList)) ∧
      (k ≠ 0 → StopsAt (.pop r list) s start k) ∧
      (BlockOk s start (size list) → s.pc ≠ topPc →
        Gives (.pop false list) s (fun t =>
          LoadedFrom s t start list ∧ t.reg spReg = start + BitVec.ofNat 32 (4 * size list) ∧
          t.flags = s.flags ∧ t.pc = s.pc + 2#32 ∧ Keeps s t (spReg :: named list))) ∧
      (∀ v, BlockOk s start (size list + 1) →
        s.memRead (start + BitVec.ofNat 32 (4 * size list)) .word = .ok v →
        (v.getLsbD 0 = false → exec (.pop true list) s = .refused (.unpredictable .popPcBit0)) ∧
        (v.getLsbD 0 = true → Gives (.pop true list) s (fun t =>
          LoadedFrom s t start list ∧ t.reg spReg = start + BitVec.ofNat 32 (4 * (size list + 1)) ∧
          t.pc = v - 1#32 ∧ t.flags = s.flags ∧ Keeps s t (spReg :: named list))))) ∧
    (s.cfg.profile = .hdl →
      (list = 0#8 → exec (.pop r list) s = .refused (.unpredictable .emptyList)) ∧
      (list ≠ 0#8 → StopsAt (.pop r list) s start 1) ∧
      (∀ i : LowReg, list.getLsbD i.val = true → rank list i.val = 0 → BlockOk s start 1 → s.pc ≠ topPc →
        ∃ v, s.memRead start .word = .ok v ∧
          Gives (.pop r list) s (fun t =>
            t.reg (lo i) = v ∧ t.reg spReg = start + 4#32 ∧ t.flags = s.flags ∧ t.pc = s.pc + 2#32 ∧
            Keeps s t [lo i, spReg])))

/-- 45_load_store_multiple.md R223. ARCH: listed registers below SP, R0 lowest, LR on top when `R = 1`; SP falls to the
lowest word; no other byte and no other register changes. HDL: the lowest listed register alone, `R` ignored. An empty
list is refused, and a block below address 0 or one that fails its checks stops. -/
def Obligations.PushResults : Prop :=
  ∀ (s : State) (r : Bool) (list : BitVec 8),
    let sp := s.reg spReg
    let k := size list + r.toNat
    let start := sp - BitVec.ofNat 32 (4 * k)
    decode (0b1011010#7 ++ BitVec.ofBool r ++ list) = .ok (.push r list) ∧
    (s.cfg.profile = .arch →
      (k = 0 → exec (.push r list) s = .refused (.unpredictable .emptyList)) ∧
      (k ≠ 0 → sp.toNat < 4 * k → exec (.push r list) s = .refused (.unpredictable .addressWrap)) ∧
      (k ≠ 0 → 4 * k ≤ sp.toNat → StopsAt (.push r list) s start k) ∧
      (4 * k ≤ sp.toNat → BlockOk s start k → s.pc ≠ topPc →
        Gives (.push r list) s (fun t =>
          StoredAt s t start list ∧
          (r = true → t.memRead (start + BitVec.ofNat 32 (4 * size list)) .word = .ok (s.reg lrReg)) ∧
          t.reg spReg = start ∧ t.flags = s.flags ∧ t.pc = s.pc + 2#32 ∧
          KeepsBut s t [spReg] start.toNat (4 * k)))) ∧
    (s.cfg.profile = .hdl →
      (list = 0#8 → exec (.push r list) s = .refused (.unpredictable .emptyList)) ∧
      (list ≠ 0#8 → sp.toNat < 4 → exec (.push r list) s = .refused (.unpredictable .addressWrap)) ∧
      (list ≠ 0#8 → 4 ≤ sp.toNat → StopsAt (.push r list) s (sp - 4#32) 1) ∧
      (∀ i : LowReg, list.getLsbD i.val = true → rank list i.val = 0 → 4 ≤ sp.toNat → BlockOk s (sp - 4#32) 1 →
        s.pc ≠ topPc →
        Gives (.push r list) s (fun t =>
          t.memRead (sp - 4#32) .word = .ok (s.reg (lo i)) ∧ t.reg spReg = sp - 4#32 ∧
          t.flags = s.flags ∧ t.pc = s.pc + 2#32 ∧ KeepsBut s t [spReg] (sp - 4#32).toNat 4)))

/-- A POP of the same list after a PUSH gives back SP and every register pushed, whatever the registers were set to in
between, and with `R = 1` returns to the address LR held, whose bit 0 must be set (20_memory.md R69;
45_load_store_multiple.md R222, R223). -/
def Obligations.PopUndoesPush : Prop :=
  ∀ (s t u : State) (r : Bool) (list : BitVec 8) (regs : Vector Word 15),
    s.cfg.profile = .arch → exec (.push r list) s = .next t →
    regs[13] = t.reg spReg →
    exec (.pop r list) { t with regs := regs } = .next u →
    u.reg spReg = s.reg spReg ∧ (∀ i : LowReg, list.getLsbD i.val = true → u.reg (lo i) = s.reg (lo i)) ∧
    (∀ a, Memory.byteAt u.mem a = Memory.byteAt t.mem a) ∧ u.flags = s.flags ∧
    (r = true → (s.reg lrReg).getLsbD 0 = true ∧ u.pc + 1#32 = s.reg lrReg)
end

