-- ==== Sys2Proof/Laws/State.lean ====
section
/-! SUPPORT. What each update of the state leaves alone: one lemma per field and update, so that no proof unfolds a
record update. -/

namespace Sys2Proof.Machine

open Sys2Proof

/-! ## The flag writes: every field but `flags` -/

@[simp] theorem State.setNZ_regs (s : State) (r : Word) : (s.setNZ r).regs = s.regs := rfl
@[simp] theorem State.setNZ_pc (s : State) (r : Word) : (s.setNZ r).pc = s.pc := rfl
@[simp] theorem State.setNZ_t (s : State) (r : Word) : (s.setNZ r).t = s.t := rfl
@[simp] theorem State.setNZ_halted (s : State) (r : Word) : (s.setNZ r).halted = s.halted := rfl
@[simp] theorem State.setNZ_mem (s : State) (r : Word) : (s.setNZ r).mem = s.mem := rfl
@[simp] theorem State.setNZ_stored (s : State) (r : Word) : (s.setNZ r).stored = s.stored := rfl
@[simp] theorem State.setNZ_trap (s : State) (r : Word) : (s.setNZ r).trap = s.trap := rfl
@[simp] theorem State.setNZ_cfg (s : State) (r : Word) : (s.setNZ r).cfg = s.cfg := rfl
@[simp] theorem State.setNZ_pcValue (s : State) (r : Word) : (s.setNZ r).pcValue = s.pcValue := rfl
@[simp] theorem State.setNZ_nextPc (s : State) (r : Word) : (s.setNZ r).nextPc = s.nextPc := rfl
@[simp] theorem State.setNZ_reg (s : State) (r : Word) (i : Reg) : (s.setNZ r).reg i = s.reg i := rfl

@[simp] theorem State.setNZCV_regs (s : State) (r : Sum) : (s.setNZCV r).regs = s.regs := rfl
@[simp] theorem State.setNZCV_pc (s : State) (r : Sum) : (s.setNZCV r).pc = s.pc := rfl
@[simp] theorem State.setNZCV_t (s : State) (r : Sum) : (s.setNZCV r).t = s.t := rfl
@[simp] theorem State.setNZCV_halted (s : State) (r : Sum) : (s.setNZCV r).halted = s.halted := rfl
@[simp] theorem State.setNZCV_mem (s : State) (r : Sum) : (s.setNZCV r).mem = s.mem := rfl
@[simp] theorem State.setNZCV_stored (s : State) (r : Sum) : (s.setNZCV r).stored = s.stored := rfl
@[simp] theorem State.setNZCV_trap (s : State) (r : Sum) : (s.setNZCV r).trap = s.trap := rfl
@[simp] theorem State.setNZCV_cfg (s : State) (r : Sum) : (s.setNZCV r).cfg = s.cfg := rfl
@[simp] theorem State.setNZCV_pcValue (s : State) (r : Sum) : (s.setNZCV r).pcValue = s.pcValue := rfl
@[simp] theorem State.setNZCV_nextPc (s : State) (r : Sum) : (s.setNZCV r).nextPc = s.nextPc := rfl
@[simp] theorem State.setNZCV_reg (s : State) (r : Sum) (i : Reg) : (s.setNZCV r).reg i = s.reg i := rfl

@[simp] theorem State.setNZC_regs (s : State) (r : Shifted) : (s.setNZC r).regs = s.regs := rfl
@[simp] theorem State.setNZC_pc (s : State) (r : Shifted) : (s.setNZC r).pc = s.pc := rfl
@[simp] theorem State.setNZC_t (s : State) (r : Shifted) : (s.setNZC r).t = s.t := rfl
@[simp] theorem State.setNZC_halted (s : State) (r : Shifted) : (s.setNZC r).halted = s.halted := rfl
@[simp] theorem State.setNZC_mem (s : State) (r : Shifted) : (s.setNZC r).mem = s.mem := rfl
@[simp] theorem State.setNZC_stored (s : State) (r : Shifted) : (s.setNZC r).stored = s.stored := rfl
@[simp] theorem State.setNZC_trap (s : State) (r : Shifted) : (s.setNZC r).trap = s.trap := rfl
@[simp] theorem State.setNZC_cfg (s : State) (r : Shifted) : (s.setNZC r).cfg = s.cfg := rfl
@[simp] theorem State.setNZC_pcValue (s : State) (r : Shifted) : (s.setNZC r).pcValue = s.pcValue := rfl
@[simp] theorem State.setNZC_nextPc (s : State) (r : Shifted) : (s.setNZC r).nextPc = s.nextPc := rfl
@[simp] theorem State.setNZC_reg (s : State) (r : Shifted) (i : Reg) : (s.setNZC r).reg i = s.reg i := rfl

@[simp] theorem State.setNZ_n (s : State) (r : Word) : (s.setNZ r).flags.n = r.getLsbD 31 := rfl
@[simp] theorem State.setNZ_z (s : State) (r : Word) : (s.setNZ r).flags.z = (r == 0#32) := rfl
@[simp] theorem State.setNZ_c (s : State) (r : Word) : (s.setNZ r).flags.c = s.flags.c := rfl
@[simp] theorem State.setNZ_v (s : State) (r : Word) : (s.setNZ r).flags.v = s.flags.v := rfl
@[simp] theorem State.setNZCV_n (s : State) (r : Sum) : (s.setNZCV r).flags.n = r.result.getLsbD 31 := rfl
@[simp] theorem State.setNZCV_z (s : State) (r : Sum) : (s.setNZCV r).flags.z = (r.result == 0#32) := rfl
@[simp] theorem State.setNZCV_c (s : State) (r : Sum) : (s.setNZCV r).flags.c = r.carry := rfl
@[simp] theorem State.setNZCV_v (s : State) (r : Sum) : (s.setNZCV r).flags.v = r.overflow := rfl
@[simp] theorem State.setNZC_n (s : State) (r : Shifted) : (s.setNZC r).flags.n = r.result.getLsbD 31 := rfl
@[simp] theorem State.setNZC_z (s : State) (r : Shifted) : (s.setNZC r).flags.z = (r.result == 0#32) := rfl
@[simp] theorem State.setNZC_c (s : State) (r : Shifted) : (s.setNZC r).flags.c = r.carry.getD s.flags.c := rfl
@[simp] theorem State.setNZC_v (s : State) (r : Shifted) : (s.setNZC r).flags.v = s.flags.v := rfl

/-! ## The writes to memory: every field but `mem` and `stored` -/

@[simp] theorem State.poke_regs (s : State) (a v : Word) (n : Width) : (s.poke a n v).regs = s.regs := rfl
@[simp] theorem State.poke_pc (s : State) (a v : Word) (n : Width) : (s.poke a n v).pc = s.pc := rfl
@[simp] theorem State.poke_flags (s : State) (a v : Word) (n : Width) : (s.poke a n v).flags = s.flags := rfl
@[simp] theorem State.poke_t (s : State) (a v : Word) (n : Width) : (s.poke a n v).t = s.t := rfl
@[simp] theorem State.poke_halted (s : State) (a v : Word) (n : Width) : (s.poke a n v).halted = s.halted := rfl
@[simp] theorem State.poke_trap (s : State) (a v : Word) (n : Width) : (s.poke a n v).trap = s.trap := rfl
@[simp] theorem State.poke_cfg (s : State) (a v : Word) (n : Width) : (s.poke a n v).cfg = s.cfg := rfl
@[simp] theorem State.poke_pcValue (s : State) (a v : Word) (n : Width) : (s.poke a n v).pcValue = s.pcValue := rfl
@[simp] theorem State.poke_nextPc (s : State) (a v : Word) (n : Width) : (s.poke a n v).nextPc = s.nextPc := rfl
@[simp] theorem State.poke_reg (s : State) (a v : Word) (n : Width) (i : Reg) : (s.poke a n v).reg i = s.reg i := rfl

@[simp] theorem State.pokeWords_regs (s : State) (a : Word) (vs : List Word) :
    (s.pokeWords a vs).regs = s.regs := by
  induction vs generalizing s a with
  | nil => rfl
  | cons v vs ih => exact ih _ _
@[simp] theorem State.pokeWords_pc (s : State) (a : Word) (vs : List Word) :
    (s.pokeWords a vs).pc = s.pc := by
  induction vs generalizing s a with
  | nil => rfl
  | cons v vs ih => exact ih _ _
@[simp] theorem State.pokeWords_flags (s : State) (a : Word) (vs : List Word) :
    (s.pokeWords a vs).flags = s.flags := by
  induction vs generalizing s a with
  | nil => rfl
  | cons v vs ih => exact ih _ _
@[simp] theorem State.pokeWords_t (s : State) (a : Word) (vs : List Word) :
    (s.pokeWords a vs).t = s.t := by
  induction vs generalizing s a with
  | nil => rfl
  | cons v vs ih => exact ih _ _
@[simp] theorem State.pokeWords_halted (s : State) (a : Word) (vs : List Word) :
    (s.pokeWords a vs).halted = s.halted := by
  induction vs generalizing s a with
  | nil => rfl
  | cons v vs ih => exact ih _ _
@[simp] theorem State.pokeWords_trap (s : State) (a : Word) (vs : List Word) :
    (s.pokeWords a vs).trap = s.trap := by
  induction vs generalizing s a with
  | nil => rfl
  | cons v vs ih => exact ih _ _
@[simp] theorem State.pokeWords_cfg (s : State) (a : Word) (vs : List Word) :
    (s.pokeWords a vs).cfg = s.cfg := by
  induction vs generalizing s a with
  | nil => rfl
  | cons v vs ih => exact ih _ _
@[simp] theorem State.pokeWords_pcValue (s : State) (a : Word) (vs : List Word) :
    (s.pokeWords a vs).pcValue = s.pcValue := by
  induction vs generalizing s a with
  | nil => rfl
  | cons v vs ih => exact ih _ _
@[simp] theorem State.pokeWords_nextPc (s : State) (a : Word) (vs : List Word) :
    (s.pokeWords a vs).nextPc = s.nextPc := by
  induction vs generalizing s a with
  | nil => rfl
  | cons v vs ih => exact ih _ _
@[simp] theorem State.pokeWords_reg (s : State) (a : Word) (vs : List Word) (i : Reg) :
    (s.pokeWords a vs).reg i = s.reg i := by
  simp [State.reg]

/-! ## The register writes: every field but `regs` and `pc` -/

@[simp] theorem State.setReg_flags (s : State) (i : Reg) (v : Word) : (s.setReg i v).flags = s.flags := by
  unfold State.setReg; split <;> rfl
@[simp] theorem State.setReg_t (s : State) (i : Reg) (v : Word) : (s.setReg i v).t = s.t := by
  unfold State.setReg; split <;> rfl
@[simp] theorem State.setReg_halted (s : State) (i : Reg) (v : Word) : (s.setReg i v).halted = s.halted := by
  unfold State.setReg; split <;> rfl
@[simp] theorem State.setReg_mem (s : State) (i : Reg) (v : Word) : (s.setReg i v).mem = s.mem := by
  unfold State.setReg; split <;> rfl
@[simp] theorem State.setReg_stored (s : State) (i : Reg) (v : Word) : (s.setReg i v).stored = s.stored := by
  unfold State.setReg; split <;> rfl
@[simp] theorem State.setReg_trap (s : State) (i : Reg) (v : Word) : (s.setReg i v).trap = s.trap := by
  unfold State.setReg; split <;> rfl
@[simp] theorem State.setReg_cfg (s : State) (i : Reg) (v : Word) : (s.setReg i v).cfg = s.cfg := by
  unfold State.setReg; split <;> rfl

/-- A write of a numbered register other than 15 leaves the pc. -/
@[simp] theorem State.setReg_pc (s : State) {i : Reg} (v : Word) (h : i ≠ pcReg) : (s.setReg i v).pc = s.pc := by
  have : i.val < 15 := by have := i.isLt; simp [pcReg, Fin.ext_iff] at h; omega
  simp [State.setReg, this]

/-- A write of register 15 is a branch with bit 0 dropped. -/
@[simp] theorem State.setReg_pcReg (s : State) (v : Word) : s.setReg pcReg v = { s with pc := clearBit0 v } := rfl

@[simp] theorem State.setReg_pcValue (s : State) {i : Reg} (v : Word) (h : i ≠ pcReg) :
    (s.setReg i v).pcValue = s.pcValue := by simp [State.pcValue, h]

@[simp] theorem State.setReg_nextPc (s : State) {i : Reg} (v : Word) (h : i ≠ pcReg) :
    (s.setReg i v).nextPc = s.nextPc := by simp [State.nextPc, h]

/-- A written register holds the value. -/
@[simp] theorem State.setReg_reg (s : State) {i : Reg} (v : Word) (h : i ≠ pcReg) : (s.setReg i v).reg i = v := by
  have : i.val < 15 := by have := i.isLt; simp [pcReg, Fin.ext_iff] at h; omega
  simp [State.setReg, State.reg, this]

/-- Any other register keeps its value. -/
theorem State.setReg_reg_ne (s : State) {i j : Reg} (v : Word) (hj : j ≠ pcReg) (h : j ≠ i) :
    (s.setReg i v).reg j = s.reg j := by
  have hj' : j.val < 15 := by have := j.isLt; simp [pcReg, Fin.ext_iff] at hj; omega
  have : ¬ i.val = j.val := fun e => h (Fin.ext e.symm)
  unfold State.setReg
  split <;> simp [State.reg, hj', this]

/-- Register 15 reads PCval. -/
@[simp] theorem State.reg_pcReg (s : State) : s.reg pcReg = s.pcValue := rfl

/-! ## Low register numbers -/

@[simp] theorem lo_ne_pcReg (i : LowReg) : lo i ≠ pcReg := by
  have := i.isLt; simp [lo, pcReg, Fin.ext_iff]; omega

@[simp] theorem lo_ne_spReg (i : LowReg) : lo i ≠ spReg := by
  have := i.isLt; simp [lo, spReg, Fin.ext_iff]; omega

@[simp] theorem lo_ne_lrReg (i : LowReg) : lo i ≠ lrReg := by
  have := i.isLt; simp [lo, lrReg, Fin.ext_iff]; omega

@[simp] theorem lo_inj (i j : LowReg) : lo i = lo j ↔ i = j := by simp [lo, Fin.ext_iff]

@[simp] theorem spReg_ne_pcReg : spReg ≠ pcReg := by decide
@[simp] theorem lrReg_ne_pcReg : lrReg ≠ pcReg := by decide
@[simp] theorem lrReg_ne_spReg : lrReg ≠ spReg := by decide

/-! ## Writing several registers -/

@[simp] theorem State.setRegs_flags (s : State) (l : List (Reg × Word)) : (s.setRegs l).flags = s.flags := by
  induction l generalizing s with
  | nil => rfl
  | cons p l ih => simp [State.setRegs, ih]
@[simp] theorem State.setRegs_t (s : State) (l : List (Reg × Word)) : (s.setRegs l).t = s.t := by
  induction l generalizing s with
  | nil => rfl
  | cons p l ih => simp [State.setRegs, ih]
@[simp] theorem State.setRegs_halted (s : State) (l : List (Reg × Word)) : (s.setRegs l).halted = s.halted := by
  induction l generalizing s with
  | nil => rfl
  | cons p l ih => simp [State.setRegs, ih]
@[simp] theorem State.setRegs_mem (s : State) (l : List (Reg × Word)) : (s.setRegs l).mem = s.mem := by
  induction l generalizing s with
  | nil => rfl
  | cons p l ih => simp [State.setRegs, ih]
@[simp] theorem State.setRegs_stored (s : State) (l : List (Reg × Word)) : (s.setRegs l).stored = s.stored := by
  induction l generalizing s with
  | nil => rfl
  | cons p l ih => simp [State.setRegs, ih]
@[simp] theorem State.setRegs_trap (s : State) (l : List (Reg × Word)) : (s.setRegs l).trap = s.trap := by
  induction l generalizing s with
  | nil => rfl
  | cons p l ih => simp [State.setRegs, ih]
@[simp] theorem State.setRegs_cfg (s : State) (l : List (Reg × Word)) : (s.setRegs l).cfg = s.cfg := by
  induction l generalizing s with
  | nil => rfl
  | cons p l ih => simp [State.setRegs, ih]

/-- Writes of registers other than 15 leave the pc. -/
theorem State.setRegs_pc (s : State) (l : List (Reg × Word)) (h : ∀ p ∈ l, p.1 ≠ pcReg) :
    (s.setRegs l).pc = s.pc := by
  induction l generalizing s with
  | nil => rfl
  | cons p l ih =>
    simp only [List.mem_cons, forall_eq_or_imp] at h
    simp [State.setRegs, ih _ h.2, h.1]

/-- A register that is not written keeps its value. -/
theorem State.setRegs_reg_of_not_mem (s : State) (l : List (Reg × Word)) {j : Reg} (hj : j ≠ pcReg)
    (h : ∀ p ∈ l, p.1 ≠ j) : (s.setRegs l).reg j = s.reg j := by
  induction l generalizing s with
  | nil => rfl
  | cons p l ih =>
    simp only [List.mem_cons, forall_eq_or_imp] at h
    rw [State.setRegs, ih _ h.2, State.setReg_reg_ne _ _ hj (Ne.symm h.1)]

/-- A register written once holds the value written. -/
theorem State.setRegs_reg_of_mem (s : State) (l : List (Reg × Word)) {j : Reg} {v : Word} (hj : j ≠ pcReg)
    (hnd : (l.map Prod.fst).Nodup) (h : (j, v) ∈ l) : (s.setRegs l).reg j = v := by
  induction l generalizing s with
  | nil => cases h
  | cons p l ih =>
    simp only [List.map_cons, List.nodup_cons, List.mem_map, not_exists, not_and] at hnd
    rcases List.mem_cons.1 h with rfl | h
    · rw [State.setRegs, State.setRegs_reg_of_not_mem _ _ hj (fun p hp => hnd.1 p hp)]
      exact State.setReg_reg _ _ hj
    · exact ih _ hnd.2 h

end Sys2Proof.Machine
end

