-- ==== Sys2Proof/Laws/Memory.lean ====
section
/-! SUPPORT. The laws of memory contents: what a byte reads as after a write, that every write keeps the canonical form,
that equal contents are equal lists, byte order, and the set of stored addresses. -/

namespace Sys2Proof.Machine

open Sys2Proof

/-! ## One byte -/

@[simp] theorem Memory.byteAt_nil (x : Nat) : Memory.byteAt [] x = Memory.unlisted := rfl

theorem Memory.byteAt_cons (c : Host.Cell) (m : Memory) (x : Nat) :
    Memory.byteAt (c :: m) x = if c.1 = x then c.2 else Memory.byteAt m x := by
  unfold Memory.byteAt
  by_cases h : c.1 = x <;> simp [h]

theorem Memory.byteAt_filter (m : Memory) (a x : Nat) :
    Memory.byteAt (m.filter (fun c => c.1 != a)) x = if x = a then Memory.unlisted else Memory.byteAt m x := by
  induction m with
  | nil => simp
  | cons c m ih =>
    by_cases hc : c.1 = a
    · rw [List.filter_cons_of_neg (by simp [hc]), ih, Memory.byteAt_cons]
      by_cases hx : x = a
      · simp [hx]
      · simp [hx, hc, Ne.symm hx]
    · rw [List.filter_cons_of_pos (by simp [hc]), Memory.byteAt_cons, Memory.byteAt_cons, ih]
      by_cases hx : x = a
      · subst hx; simp [hc]
      · simp [hx]

theorem Memory.byteAt_insert (m : Memory) (a : Nat) (b : Byte) (x : Nat) (h : ∀ c ∈ m, c.1 ≠ a) :
    Memory.byteAt (Memory.insert m a b) x = if x = a then b else Memory.byteAt m x := by
  induction m with
  | nil => by_cases hx : x = a <;> simp [Memory.insert, Memory.byteAt_cons, hx, @eq_comm _ a]
  | cons c m ih =>
    simp only [List.mem_cons, forall_eq_or_imp] at h
    unfold Memory.insert
    split
    · by_cases hx : x = a
      · simp [Memory.byteAt_cons, hx]
      · simp [Memory.byteAt_cons, hx, Ne.symm hx]
    · rw [Memory.byteAt_cons, Memory.byteAt_cons, ih h.2]
      by_cases hx : x = a
      · subst hx; simp [h.1]
      · simp [hx]

/-- A byte written reads as written, and every other byte as before. -/
theorem Memory.byteAt_setByte (m : Memory) (a : Nat) (b : Byte) (x : Nat) :
    Memory.byteAt (Memory.setByte m a b) x = if x = a then b else Memory.byteAt m x := by
  unfold Memory.setByte
  simp only
  split
  · rename_i h; rw [Memory.byteAt_filter, h]
  · rw [Memory.byteAt_insert _ _ _ _ (by simp), Memory.byteAt_filter]
    by_cases hx : x = a <;> simp [hx]

/-! ## Several bytes -/

/-- Bytes outside a written block read as before. -/
theorem Memory.byteAt_setBytes_of_not_mem (m : Memory) (a : Nat) (bs : List Byte) (x : Nat)
    (h : x < a ∨ a + bs.length ≤ x) : Memory.byteAt (Memory.setBytes m a bs) x = Memory.byteAt m x := by
  induction bs generalizing m a with
  | nil => rfl
  | cons b bs ih =>
    simp only [List.length_cons] at h
    rw [Memory.setBytes, ih _ _ (by omega), Memory.byteAt_setByte, if_neg (by omega)]

/-- Byte `i` of a written block reads as written. -/
theorem Memory.byteAt_setBytes_of_mem (m : Memory) (a : Nat) (bs : List Byte) (i : Nat) (h : i < bs.length) :
    Memory.byteAt (Memory.setBytes m a bs) (a + i) = bs[i] := by
  induction bs generalizing m a i with
  | nil => simp at h
  | cons b bs ih =>
    rw [Memory.setBytes]
    cases i with
    | zero => rw [Memory.byteAt_setBytes_of_not_mem _ _ _ _ (by omega), Memory.byteAt_setByte]; simp
    | succ i =>
      rw [List.getElem_cons_succ, ← ih (Memory.setByte m a b) (a + 1) i (by simpa using h)]
      congr 1; omega

@[simp] theorem Memory.length_bytesAt (m : Memory) (a n : Nat) : (Memory.bytesAt m a n).length = n := by
  induction n generalizing a with
  | zero => rfl
  | succ n ih => simp [Memory.bytesAt, ih]

theorem Memory.getElem_bytesAt (m : Memory) (a n i : Nat) (h : i < (Memory.bytesAt m a n).length) :
    (Memory.bytesAt m a n)[i] = Memory.byteAt m (a + i) := by
  induction n generalizing a i with
  | zero => simp at h
  | succ n ih =>
    cases i with
    | zero => simp [Memory.bytesAt]
    | succ i => simp [Memory.bytesAt, ih]; congr 1; omega

/-- The bytes read depend on the bytes at those addresses only. -/
theorem Memory.bytesAt_congr {m m' : Memory} {a n : Nat}
    (h : ∀ x, a ≤ x → x < a + n → Memory.byteAt m x = Memory.byteAt m' x) :
    Memory.bytesAt m a n = Memory.bytesAt m' a n := by
  apply List.ext_getElem (by simp)
  intro i h1 h2
  simp only [Memory.length_bytesAt] at h1
  rw [Memory.getElem_bytesAt, Memory.getElem_bytesAt, h _ (by omega) (by omega)]

/-- A block written and read back. -/
theorem Memory.bytesAt_setBytes (m : Memory) (a : Nat) (bs : List Byte) :
    Memory.bytesAt (Memory.setBytes m a bs) a bs.length = bs := by
  apply List.ext_getElem (by simp)
  intro i h1 h2
  rw [Memory.getElem_bytesAt, Memory.byteAt_setBytes_of_mem _ _ _ _ h2]

/-! ## The canonical form -/

theorem Memory.mem_insert {m : Memory} {a : Nat} {b : Byte} {c : Host.Cell} :
    c ∈ Memory.insert m a b ↔ c = (a, b) ∨ c ∈ m := by
  induction m with
  | nil => simp [Memory.insert]
  | cons d m ih =>
    unfold Memory.insert
    split <;> simp [ih]; tauto

theorem Memory.insert_rising {m : Memory} {a : Nat} {b : Byte} (h : m.Pairwise (fun p q => p.1 < q.1))
    (ha : ∀ c ∈ m, c.1 ≠ a) : (Memory.insert m a b).Pairwise (fun p q => p.1 < q.1) := by
  induction m with
  | nil => simp [Memory.insert]
  | cons d m ih =>
    simp only [List.pairwise_cons, List.mem_cons, forall_eq_or_imp] at h ha
    unfold Memory.insert
    split
    · rename_i hlt
      simp only [List.pairwise_cons, List.mem_cons, forall_eq_or_imp]
      exact ⟨⟨hlt, fun c hc => Nat.lt_trans hlt (h.1 c hc)⟩, h.1, h.2⟩
    · rename_i hge
      refine List.pairwise_cons.2 ⟨fun c hc => ?_, ih h.2 ha.2⟩
      rcases Memory.mem_insert.1 hc with rfl | hc
      · have := ha.1; simp only; omega
      · exact h.1 c hc

/-- Writing one byte below 2^32 keeps the canonical form. -/
theorem Memory.setByte_wf {m : Memory} {a : Nat} {b : Byte} (h : Memory.wf m) (ha : a < 4294967296) :
    Memory.wf (Memory.setByte m a b) := by
  have hf : Memory.wf (m.filter (fun c => c.1 != a)) :=
    ⟨h.1.filter _, fun c hc => h.2 c (List.mem_filter.1 hc).1⟩
  unfold Memory.setByte
  simp only
  split
  · exact hf
  · rename_i hb
    refine ⟨Memory.insert_rising hf.1 (by simp), fun c hc => ?_⟩
    rcases Memory.mem_insert.1 hc with rfl | hc
    · exact ⟨ha, hb⟩
    · exact hf.2 c hc

/-- Writing bytes below 2^32 keeps the canonical form. -/
theorem Memory.setBytes_wf {m : Memory} {a : Nat} {bs : List Byte} (h : Memory.wf m)
    (ha : a + bs.length ≤ 4294967296) : Memory.wf (Memory.setBytes m a bs) := by
  induction bs generalizing m a with
  | nil => exact h
  | cons b bs ih =>
    simp only [List.length_cons] at ha
    exact ih (Memory.setByte_wf h (by omega)) (by omega)

/-- The memory at reset is in canonical form. -/
theorem Memory.reset_wf : Memory.wf State.reset.mem := by decide

/-- A listed cell after a write was listed before or is at the address written. -/
theorem Memory.mem_setByte {m : Memory} {a : Nat} {b : Byte} {c : Host.Cell} (h : c ∈ Memory.setByte m a b) :
    c ∈ m ∨ c.1 = a := by
  unfold Memory.setByte at h
  simp only at h
  split at h
  · exact .inl (List.mem_filter.1 h).1
  · rcases Memory.mem_insert.1 h with rfl | h
    · exact .inr rfl
    · exact .inl (List.mem_filter.1 h).1

/-- A listed cell after a block write was listed before or is in the block. -/
theorem Memory.mem_setBytes {m : Memory} {a : Nat} {bs : List Byte} {c : Host.Cell}
    (h : c ∈ Memory.setBytes m a bs) : c ∈ m ∨ (a ≤ c.1 ∧ c.1 < a + bs.length) := by
  induction bs generalizing m a with
  | nil => exact .inl h
  | cons b bs ih =>
    simp only [List.length_cons]
    rcases ih h with h | h
    · rcases Memory.mem_setByte h with h | h
      · exact .inl h
      · exact .inr (by omega)
    · exact .inr (by omega)

theorem Memory.byteAt_of_mem {m : Memory} (h : m.Pairwise (fun p q => p.1 < q.1)) {c : Host.Cell} (hc : c ∈ m) :
    Memory.byteAt m c.1 = c.2 := by
  induction m with
  | nil => cases hc
  | cons d m ih =>
    rw [List.pairwise_cons] at h
    rw [Memory.byteAt_cons]
    rcases List.mem_cons.1 hc with rfl | hc
    · simp
    · have := h.1 c hc
      rw [if_neg (by omega), ih h.2 hc]

theorem Memory.mem_of_byteAt {m : Memory} {x : Nat} (h : Memory.byteAt m x ≠ Memory.unlisted) :
    (x, Memory.byteAt m x) ∈ m := by
  induction m with
  | nil => simp at h
  | cons d m ih =>
    rw [Memory.byteAt_cons] at h ⊢
    by_cases hd : d.1 = x
    · simp [← hd]
    · simp only [hd, if_false] at h ⊢
      exact List.mem_cons_of_mem _ (ih h)

/-- Memories in canonical form that read the same at every address are the same list. -/
theorem Memory.ext_of_byteAt {m m' : Memory} (h : Memory.wf m) (h' : Memory.wf m')
    (e : ∀ x, Memory.byteAt m x = Memory.byteAt m' x) : m = m' := by
  refine List.Perm.eq_of_pairwise (le := fun p q : Host.Cell => p.1 < q.1) ?_ h.1 h'.1 ?_
  · intro a b _ _ h1 h2; omega
  · rw [List.perm_ext_iff_of_nodup (h.1.imp (fun h => by rintro rfl; exact absurd h (Nat.lt_irrefl _)))
      (h'.1.imp (fun h => by rintro rfl; exact absurd h (Nat.lt_irrefl _)))]
    intro c
    constructor
    · intro hc
      have hb := Memory.byteAt_of_mem h.1 hc
      have := Memory.mem_of_byteAt (m := m') (x := c.1) (by rw [← e, hb]; exact (h.2 c hc).2)
      rwa [← e, hb] at this
    · intro hc
      have hb := Memory.byteAt_of_mem h'.1 hc
      have := Memory.mem_of_byteAt (m := m) (x := c.1) (by rw [e, hb]; exact (h'.2 c hc).2)
      rwa [e, hb] at this

/-! ## Byte order -/

@[simp] theorem length_splitBytes (v : Word) (n : Nat) : (splitBytes v n).length = n := by
  induction n generalizing v with
  | zero => rfl
  | succ n ih => simp [splitBytes, ih]

@[simp] theorem length_splitOrdered (e : Endian) (v : Word) (n : Nat) : (splitOrdered e v n).length = n := by
  cases e <;> simp [splitOrdered]

/-- Byte `i` of a value, least significant first. -/
theorem getElem_splitBytes (v : Word) (n i : Nat) (h : i < (splitBytes v n).length) :
    (splitBytes v n)[i] = v.extractLsb' (8 * i) 8 := by
  induction n generalizing v i with
  | zero => simp at h
  | succ n ih =>
    cases i with
    | zero => simp only [splitBytes, List.getElem_cons_zero]; ext j hj; simp
    | succ i =>
      simp only [splitBytes, List.getElem_cons_succ]
      rw [ih]
      ext j hj
      simp only [BitVec.getElem_extractLsb', BitVec.getLsbD_ushiftRight]
      congr 1; omega

/-- The bytes of a value, joined. -/
theorem joinBytes_splitBytes (v : Word) (n : Nat) : joinBytes (splitBytes v n) = v.toNat % 2 ^ (8 * n) := by
  induction n generalizing v with
  | zero => simp [splitBytes, joinBytes, Nat.mod_one]
  | succ n ih =>
    rw [splitBytes, joinBytes, ih]
    simp only [BitVec.toNat_setWidth, BitVec.toNat_ushiftRight, Nat.shiftRight_eq_div_pow]
    have h8 : 2 ^ (8 * (n + 1)) = 2 ^ 8 * 2 ^ (8 * n) := by rw [← Nat.pow_add]; congr 1; omega
    rw [h8, Nat.mod_mul]
    omega

/-- A value stored and read in the same byte order is its low bytes. -/
theorem joinOrdered_splitOrdered (e : Endian) (v : Word) (n : Nat) :
    joinOrdered e (splitOrdered e v n) = BitVec.ofNat 32 (v.toNat % 2 ^ (8 * n)) := by
  cases e <;> simp [joinOrdered, splitOrdered, joinBytes_splitBytes]

/-! ## The set of stored addresses -/

@[simp] theorem mem_addAddress (l : List Nat) (a x : Nat) : x ∈ addAddress l a ↔ x ∈ l ∨ x = a := by
  induction l with
  | nil => simp [addAddress]
  | cons y l ih =>
    unfold addAddress
    split
    · simp; tauto
    · split
      · rename_i h; subst h; simp; tauto
      · simp [ih]; tauto

theorem addAddress_rising {l : List Nat} {a : Nat} (h : l.Pairwise (· < ·)) :
    (addAddress l a).Pairwise (· < ·) := by
  induction l with
  | nil => simp [addAddress]
  | cons y l ih =>
    rw [List.pairwise_cons] at h
    unfold addAddress
    split
    · rename_i hlt
      simp only [List.pairwise_cons, List.mem_cons, forall_eq_or_imp]
      exact ⟨⟨hlt, fun c hc => Nat.lt_trans hlt (h.1 c hc)⟩, h.1, h.2⟩
    · split
      · exact List.pairwise_cons.2 h
      · refine List.pairwise_cons.2 ⟨fun c hc => ?_, ih h.2⟩
        rcases (mem_addAddress _ _ _).1 hc with hc | rfl
        · exact h.1 c hc
        · omega

/-- The addresses of a block join the set. -/
@[simp] theorem mem_addAddresses (l : List Nat) (a n x : Nat) :
    x ∈ addAddresses l a n ↔ x ∈ l ∨ (a ≤ x ∧ x < a + n) := by
  induction n generalizing l a with
  | zero => simp [addAddresses]
  | succ n ih => simp only [addAddresses, ih, mem_addAddress, or_assoc]; apply or_congr_right; omega

/-- The set stays a strictly rising list. -/
theorem addAddresses_rising {l : List Nat} {a n : Nat} (h : l.Pairwise (· < ·)) :
    (addAddresses l a n).Pairwise (· < ·) := by
  induction n generalizing l a with
  | zero => exact h
  | succ n ih => exact ih (addAddress_rising h)

end Sys2Proof.Machine
end

