-- ==== Sys2Proof/Laws/Ops.lean ====
section
/-! SUPPORT. What each shared operation can answer, said once: a proof cites these and does not unfold the operation. -/

namespace Sys2Proof.Machine

open Sys2Proof

/-! ## How a step ends -/

theorem State.unlessTop_eq_next {s t : State} {k : Result} :
    s.unlessTop k = .next t ↔ s.pc ≠ 0xFFFFFFFE#32 ∧ k = .next t := by
  unfold State.unlessTop unpredictable
  split <;> simp_all

theorem State.unlessTop_of_ne {s : State} {k : Result} (h : s.pc ≠ 0xFFFFFFFE#32) : s.unlessTop k = k := if_neg h

theorem State.unlessTop_top {s : State} {k : Result} (h : s.pc = 0xFFFFFFFE#32) :
    s.unlessTop k = .refused (.unpredictable .pcWrap) := if_pos h

theorem State.retire_eq_next {s t : State} :
    s.retire = .next t ↔ s.pc ≠ 0xFFFFFFFE#32 ∧ t = { s with pc := s.nextPc } := by
  rw [State.retire, State.unlessTop_eq_next, Host.Outcome.next.injEq, @eq_comm _ t]

theorem State.retire_of_ne {s : State} (h : s.pc ≠ 0xFFFFFFFE#32) : s.retire = .next { s with pc := s.nextPc } :=
  State.unlessTop_of_ne h

theorem State.retire_top {s : State} (h : s.pc = 0xFFFFFFFE#32) : s.retire = .refused (.unpredictable .pcWrap) :=
  State.unlessTop_top h

theorem State.takeTrap_eq_next {s t : State} {kind : TrapKind} {imm8 : BitVec 8} :
    s.takeTrap kind imm8 = .next t ↔
      s.pc ≠ 0xFFFFFFFE#32 ∧ t = { s with trap := some { kind := kind, imm8 := imm8, ret := s.nextPc } } := by
  rw [State.takeTrap, State.unlessTop_eq_next, Host.Outcome.next.injEq, @eq_comm _ t]

theorem State.halt_eq_next {s t : State} :
    s.halt = .next t ↔ s.pc ≠ 0xFFFFFFFE#32 ∧ t = { s with halted := true, pc := s.nextPc } :=
  State.retire_eq_next

theorem State.writeBack_of_ne {s : State} {i : Reg} (v : Word) (h : i ≠ pcReg) :
    s.writeBack i v = (s.setReg i v).retire := by simp [State.writeBack, h]

theorem State.writeBack_pcReg (s : State) (v : Word) : s.writeBack pcReg v = .next { s with pc := clearBit0 v } := by
  simp [State.writeBack]

theorem Stop.result_ne_next (stop : Stop) (t : State) : stop.result ≠ .next t := by
  cases stop <;> simp [Stop.result]

theorem afterCheck_eq_next {check : Option Stop} {k : Result} {t : State} :
    afterCheck check k = .next t ↔ check = none ∧ k = .next t := by
  cases check with
  | none => simp [afterCheck]
  | some stop => simp [afterCheck, Stop.result_ne_next]

@[simp] theorem unpredictable_ne_next (r : Reason) (t : State) : unpredictable r ≠ .next t := by simp [unpredictable]

theorem State.archOnly_eq_next {s t : State} {m : String} {k : Result} :
    s.archOnly m k = .next t ↔ s.cfg.profile = .arch ∧ k = .next t := by
  unfold State.archOnly
  split <;> simp_all

theorem State.archOnly_arch {s : State} {m : String} {k : Result} (h : s.cfg.profile = .arch) :
    s.archOnly m k = k := by simp [State.archOnly, h]

theorem State.archOnly_hdl {s : State} {m : String} {k : Result} (h : s.cfg.profile = .hdl) :
    s.archOnly m k = .refused (.notImplementedInHDL m) := by simp [State.archOnly, h]

theorem State.fromV5_eq_next {s t : State} {w : InstrWord} {k : Result} :
    s.fromV5 w k = .next t ↔ s.cfg.tvariant = .v5 ∧ k = .next t := by
  unfold State.fromV5
  split <;> simp_all

theorem State.fromV5_v5 {s : State} {w : InstrWord} {k : Result} (h : s.cfg.tvariant = .v5) :
    s.fromV5 w k = k := by simp [State.fromV5, h]

theorem State.fromV5_v4 {s : State} {w : InstrWord} {k : Result} (h : s.cfg.tvariant = .v4) :
    s.fromV5 w k = .fault (.undefinedInstruction w) := by simp [State.fromV5, h]

/-! ## Clearing low bits -/

theorem clearBit0_getLsbD (v : Word) (i : Nat) : (clearBit0 v).getLsbD i = (v.getLsbD i && decide (1 ≤ i)) := by
  have mask : ∀ j : Fin 32, (0xFFFFFFFE#32).getLsbD j.val = decide (1 ≤ j.val) := by decide
  by_cases h : i < 32
  · rw [clearBit0, BitVec.getLsbD_and, mask ⟨i, h⟩]
  · rw [BitVec.getLsbD_of_ge _ _ (by omega), BitVec.getLsbD_of_ge _ _ (by omega), Bool.false_and]

@[simp] theorem clearBit0_getLsbD_zero (v : Word) : (clearBit0 v).getLsbD 0 = false := by
  rw [clearBit0_getLsbD, Bool.and_eq_false_iff]; exact .inr rfl

theorem clearLow2_getLsbD (v : Word) (i : Nat) : (clearLow2 v).getLsbD i = (v.getLsbD i && decide (2 ≤ i)) := by
  have mask : ∀ j : Fin 32, (0xFFFFFFFC#32).getLsbD j.val = decide (2 ≤ j.val) := by decide
  by_cases h : i < 32
  · rw [clearLow2, BitVec.getLsbD_and, mask ⟨i, h⟩]
  · rw [BitVec.getLsbD_of_ge _ _ (by omega), BitVec.getLsbD_of_ge _ _ (by omega), Bool.false_and]

/-- Clearing bit 0 rounds down to a multiple of 2. -/
theorem clearBit0_toNat (v : Word) : (clearBit0 v).toNat = v.toNat / 2 * 2 := by
  have h : clearBit0 v = (v >>> 1) <<< 1 := by
    apply BitVec.eq_of_getLsbD_eq
    intro i hi
    rw [clearBit0_getLsbD, BitVec.getLsbD_shiftLeft, BitVec.getLsbD_ushiftRight]
    by_cases h1 : 1 ≤ i
    · simp [hi, h1, show ¬ i < 1 by omega]
    · simp [h1, show i < 1 by omega]
  have := v.isLt
  rw [h, BitVec.toNat_shiftLeft, BitVec.toNat_ushiftRight, Nat.shiftLeft_eq, Nat.shiftRight_eq_div_pow]
  omega

/-- Clearing bits 1 and 0 rounds down to a multiple of 4. -/
theorem clearLow2_toNat (v : Word) : (clearLow2 v).toNat = v.toNat / 4 * 4 := by
  have h : clearLow2 v = (v >>> 2) <<< 2 := by
    apply BitVec.eq_of_getLsbD_eq
    intro i hi
    rw [clearLow2_getLsbD, BitVec.getLsbD_shiftLeft, BitVec.getLsbD_ushiftRight]
    by_cases h1 : 2 ≤ i
    · simp [hi, h1, show ¬ i < 2 by omega]
    · simp [h1, show i < 2 by omega]
  have := v.isLt
  rw [h, BitVec.toNat_shiftLeft, BitVec.toNat_ushiftRight, Nat.shiftLeft_eq, Nat.shiftRight_eq_div_pow]
  omega

/-! ## Accesses -/

theorem State.admitsAll_iff {s : State} {a : Word} {n : Width} :
    s.admitsAll a n = true ↔ ∀ x, a.toNat ≤ x → x < a.toNat + n.bytes → s.cfg.admits x = true := by
  simp only [State.admitsAll, List.all_eq_true, List.mem_range]
  constructor
  · intro h x h1 h2
    have := h (x - a.toNat) (by omega)
    rwa [Nat.add_sub_cancel' h1] at this
  · intro h i hi
    exact h _ (by omega) (by omega)

theorem State.accessFault_eq_none {s : State} {a : Word} {n : Width} :
    s.accessFault a n = none ↔ a.toNat % n.bytes = 0 ∧ s.admitsAll a n = true := by
  unfold State.accessFault
  split
  · simp_all
  · split <;> simp_all

theorem State.memRead_eq_ok {s : State} {a v : Word} {n : Width} :
    s.memRead a n = .ok v ↔ s.accessFault a n = none ∧ v = s.peek a n := by
  unfold State.memRead
  cases s.accessFault a n <;> simp [@eq_comm _ v]

theorem State.memWrite_eq_ok {s t : State} {a v : Word} {n : Width} :
    s.memWrite a n v = .ok t ↔ s.accessFault a n = none ∧ t = s.poke a n v := by
  unfold State.memWrite
  cases s.accessFault a n <;> simp [@eq_comm _ t]

theorem State.loadInto_eq_next {s t : State} {rd : LowReg} {a : Word} {n : Width} {w : Word → Word} :
    s.loadInto rd a n w = .next t ↔
      s.accessFault a n = none ∧ (s.setReg (lo rd) (w (s.peek a n))).retire = .next t := by
  unfold State.loadInto State.memRead
  cases h : s.accessFault a n <;> simp

theorem State.storeFrom_eq_next {s t : State} {rd : LowReg} {a : Word} {n : Width} :
    s.storeFrom rd a n = .next t ↔
      s.accessFault a n = none ∧ (s.poke a n (s.reg (lo rd))).retire = .next t := by
  unfold State.storeFrom State.memWrite
  cases h : s.accessFault a n <;> simp

/-- An aligned access ends below 2^32. -/
theorem Width.aligned_end {a : Word} {n : Width} (h : a.toNat % n.bytes = 0) : a.toNat + n.bytes ≤ 4294967296 := by
  have := a.isLt
  cases n <;> simp only [Width.bytes] at * <;> omega

/-- Bytes outside a store read as before. -/
theorem State.poke_byteAt_of_not_mem (s : State) (a v : Word) (n : Width) (x : Nat)
    (h : x < a.toNat ∨ a.toNat + n.bytes ≤ x) :
    Memory.byteAt (s.poke a n v).mem x = Memory.byteAt s.mem x :=
  Memory.byteAt_setBytes_of_not_mem _ _ _ _ (by simpa using h)

/-- The stored set after a store under `SMC = fault`. -/
theorem State.mem_poke_stored {s : State} {a v : Word} {n : Width} {x : Nat} (h : s.cfg.smc = .fault) :
    x ∈ (s.poke a n v).stored ↔ x ∈ s.stored ∨ (a.toNat ≤ x ∧ x < a.toNat + n.bytes) := by
  simp [State.poke, h]

theorem State.poke_stored_coherent {s : State} {a v : Word} {n : Width} (h : s.cfg.smc = .coherent) :
    (s.poke a n v).stored = s.stored := by simp [State.poke, h]

/-- A store keeps the stored set a strictly rising list. -/
theorem State.poke_stored_rising {s : State} {a v : Word} {n : Width} (h : s.stored.Pairwise (· < ·)) :
    (s.poke a n v).stored.Pairwise (· < ·) := by
  unfold State.poke
  simp only
  split
  · exact addAddresses_rising h
  · exact h

/-- An aligned store keeps memory in canonical form. -/
theorem State.poke_wf {s : State} {a v : Word} {n : Width} (hw : Memory.wf s.mem) (h : a.toNat % n.bytes = 0) :
    Memory.wf (s.poke a n v).mem :=
  Memory.setBytes_wf hw (by simpa using Width.aligned_end h)

/-- A value read where it was stored is its low bytes. -/
theorem State.peek_poke (s : State) (a v : Word) (n : Width) :
    (s.poke a n v).peek a n = BitVec.ofNat 32 (v.toNat % 2 ^ (8 * n.bytes)) := by
  rw [← joinOrdered_splitOrdered s.cfg.endian]
  unfold State.peek State.poke
  simp only
  congr 1
  have := Memory.bytesAt_setBytes s.mem a.toNat (splitOrdered s.cfg.endian v n.bytes)
  rwa [length_splitOrdered] at this

/-- A read depends on the byte order and on the bytes it covers only. -/
theorem State.peek_congr {s t : State} {a : Word} {n : Width} (he : t.cfg.endian = s.cfg.endian)
    (h : ∀ x, a.toNat ≤ x → x < a.toNat + n.bytes → Memory.byteAt t.mem x = Memory.byteAt s.mem x) :
    t.peek a n = s.peek a n := by
  unfold State.peek
  rw [he, Memory.bytesAt_congr h]

/-! ## Block transfers -/

/-- The address of a word of a block that does not wrap. -/
theorem wordAddr_toNat {start : Word} {j : Nat} (h : start.toNat + 4 * j < 4294967296) :
    (wordAddr start j).toNat = start.toNat + 4 * j := by
  unfold wordAddr
  rw [BitVec.toNat_add, BitVec.toNat_ofNat]
  omega

theorem State.checkBlock_eq_none {s : State} {start : Word} {k : Nat} :
    s.checkBlock start k = none ↔
      k ≠ 0 ∧ start.toNat % 4 = 0 ∧ start.toNat + 4 * k ≤ 4294967296 ∧
      ∀ x, start.toNat ≤ x → x < start.toNat + 4 * k → s.cfg.admits x = true := by
  unfold State.checkBlock
  by_cases h0 : k = 0
  · simp [h0]
  by_cases h1 : start.toNat % 4 = 0
  swap
  · simp [h0, h1]
  by_cases h2 : 4294967296 < start.toNat + 4 * k
  · simp only [h0, h1, h2, if_true, if_false, ne_eq, not_true_eq_false, reduceCtorEq, false_iff]
    rintro ⟨-, -, h, -⟩
    omega
  · simp only [h0, h1, h2, if_false, ne_eq, not_true_eq_false]
    have key : (∀ j ∈ List.range k, s.admitsAll (wordAddr start j) .word = true) ↔
        ∀ x, start.toNat ≤ x → x < start.toNat + 4 * k → s.cfg.admits x = true := by
      simp only [List.mem_range, State.admitsAll_iff]
      constructor
      · intro h x hx1 hx2
        have hj : (x - start.toNat) / 4 < k := by omega
        refine h _ hj x ?_ ?_
        · rw [wordAddr_toNat (by omega)]; omega
        · rw [wordAddr_toNat (by omega)]; simp only [Width.bytes]; omega
      · intro h j hj x hx1 hx2
        rw [wordAddr_toNat (by omega)] at hx1 hx2
        simp only [Width.bytes] at hx2
        exact h x (by omega) (by omega)
    cases hf : (List.range k).find? (fun j => !s.admitsAll (wordAddr start j) .word) with
    | none =>
      rw [List.find?_eq_none] at hf
      simp only [not_false_eq_true, true_and, true_iff]
      exact ⟨by omega, key.1 (fun j hj => by simpa using hf j hj)⟩
    | some j =>
      simp only [reduceCtorEq, false_iff]
      rintro ⟨-, -, -, h⟩
      have := key.2 h j (List.mem_of_find?_eq_some hf)
      simpa [this] using List.find?_some hf

@[simp] theorem State.length_peekWords (s : State) (start : Word) (k : Nat) :
    (s.peekWords start k).length = k := by simp [State.peekWords]

theorem State.getElem_peekWords (s : State) (start : Word) (k j : Nat) (h : j < (s.peekWords start k).length) :
    (s.peekWords start k)[j] = s.peek (wordAddr start j) .word := by simp [State.peekWords]

/-- Bytes outside the words stored read as before. -/
theorem State.pokeWords_byteAt_of_not_mem (s : State) (a : Word) (vs : List Word) (x : Nat)
    (hw : a.toNat + 4 * vs.length ≤ 4294967296) (h : x < a.toNat ∨ a.toNat + 4 * vs.length ≤ x) :
    Memory.byteAt (s.pokeWords a vs).mem x = Memory.byteAt s.mem x := by
  induction vs generalizing s a with
  | nil => rfl
  | cons v vs ih =>
    simp only [List.length_cons] at h hw
    rw [State.pokeWords]
    by_cases hz : vs = []
    · subst hz
      exact State.poke_byteAt_of_not_mem _ _ _ _ _ (by simpa [Width.bytes] using h)
    · have hl : 0 < vs.length := List.length_pos_iff.2 hz
      have ha : (a + 4#32).toNat = a.toNat + 4 := by rw [BitVec.toNat_add]; simp; omega
      rw [ih _ _ (by omega) (by omega), State.poke_byteAt_of_not_mem _ _ _ _ _ (by simp only [Width.bytes]; omega)]

/-- The addresses of the words stored join the stored set under `SMC = fault`. -/
theorem State.mem_pokeWords_stored {s : State} {a : Word} {vs : List Word} {x : Nat}
    (hw : a.toNat + 4 * vs.length ≤ 4294967296) (hs : s.cfg.smc = .fault) :
    x ∈ (s.pokeWords a vs).stored ↔ x ∈ s.stored ∨ (a.toNat ≤ x ∧ x < a.toNat + 4 * vs.length) := by
  induction vs generalizing s a with
  | nil => simp [State.pokeWords]
  | cons v vs ih =>
    simp only [List.length_cons] at hw ⊢
    rw [State.pokeWords]
    by_cases hz : vs = []
    · subst hz
      simp [State.pokeWords, State.mem_poke_stored hs, Width.bytes]
    · have hl : 0 < vs.length := List.length_pos_iff.2 hz
      have ha : (a + 4#32).toNat = a.toNat + 4 := by rw [BitVec.toNat_add]; simp; omega
      rw [ih (by omega) (by simpa using hs), State.mem_poke_stored hs, or_assoc]
      apply or_congr_right
      simp only [Width.bytes]
      omega

theorem State.pokeWords_stored_coherent {s : State} {a : Word} {vs : List Word} (h : s.cfg.smc = .coherent) :
    (s.pokeWords a vs).stored = s.stored := by
  induction vs generalizing s a with
  | nil => rfl
  | cons v vs ih => rw [State.pokeWords, ih (by simpa using h), State.poke_stored_coherent h]

theorem State.pokeWords_stored_rising {s : State} {a : Word} {vs : List Word} (h : s.stored.Pairwise (· < ·)) :
    (s.pokeWords a vs).stored.Pairwise (· < ·) := by
  induction vs generalizing s a with
  | nil => exact h
  | cons v vs ih => exact ih (State.poke_stored_rising h)

/-- An aligned block of stores keeps memory in canonical form. -/
theorem State.pokeWords_wf {s : State} {a : Word} {vs : List Word} (hw : Memory.wf s.mem) (h : a.toNat % 4 = 0) :
    Memory.wf (s.pokeWords a vs).mem := by
  induction vs generalizing s a with
  | nil => exact hw
  | cons v vs ih =>
    refine ih (State.poke_wf hw h) ?_
    rw [BitVec.toNat_add, BitVec.toNat_ofNat]
    omega

/-- A listed cell after a block of stores was listed before or is in the block. -/
theorem State.mem_pokeWords {s : State} {a : Word} {vs : List Word} {c : Host.Cell}
    (hw : a.toNat + 4 * vs.length ≤ 4294967296) (h : c ∈ (s.pokeWords a vs).mem) :
    c ∈ s.mem ∨ (a.toNat ≤ c.1 ∧ c.1 < a.toNat + 4 * vs.length) := by
  induction vs generalizing s a with
  | nil => exact .inl h
  | cons v vs ih =>
    simp only [List.length_cons] at hw ⊢
    have first : c ∈ (s.poke a .word v).mem → c ∈ s.mem ∨ (a.toNat ≤ c.1 ∧ c.1 < a.toNat + 4) := by
      intro h
      simpa [Width.bytes] using Memory.mem_setBytes (m := s.mem) h
    by_cases hz : vs = []
    · subst hz
      exact first h
    · have hl : 0 < vs.length := List.length_pos_iff.2 hz
      have ha : (a + 4#32).toNat = a.toNat + 4 := by rw [BitVec.toNat_add]; simp; omega
      rcases ih (by omega) h with h | h
      · rcases first h with h | h
        · exact .inl h
        · exact .inr (by omega)
      · exact .inr (by omega)

/-- A word of a stored block reads back as stored. -/
theorem State.peek_pokeWords (s : State) (a : Word) (vs : List Word) (j : Nat) (hj : j < vs.length)
    (hw : a.toNat + 4 * vs.length ≤ 4294967296) : (s.pokeWords a vs).peek (wordAddr a j) .word = vs[j] := by
  induction vs generalizing s a j with
  | nil => simp at hj
  | cons v vs ih =>
    simp only [List.length_cons] at hw hj
    rw [State.pokeWords]
    cases j with
    | zero =>
      have h0 : wordAddr a 0 = a := by simp [wordAddr]
      have hv : BitVec.ofNat 32 (v.toNat % 2 ^ (8 * Width.word.bytes)) = v := by
        rw [Nat.mod_eq_of_lt (by simpa [Width.bytes] using v.isLt), BitVec.ofNat_toNat, BitVec.setWidth_eq]
      rw [h0, List.getElem_cons_zero]
      by_cases hz : vs = []
      · subst hz
        rw [State.pokeWords, State.peek_poke, hv]
      · have hl : 0 < vs.length := List.length_pos_iff.2 hz
        have ha : (a + 4#32).toNat = a.toNat + 4 := by rw [BitVec.toNat_add]; simp; omega
        rw [State.peek_congr (s := s.poke a .word v) (by simp), State.peek_poke, hv]
        intro x h1 h2
        simp only [Width.bytes] at h2
        exact State.pokeWords_byteAt_of_not_mem _ _ _ _ (by omega) (by omega)
    | succ j =>
      have ha : (a + 4#32).toNat = a.toNat + 4 := by rw [BitVec.toNat_add]; simp; omega
      have he : wordAddr a (j + 1) = wordAddr (a + 4#32) j := by
        unfold wordAddr
        rw [BitVec.add_assoc]
        congr 1
        rw [show (4#32 : Word) = BitVec.ofNat 32 4 from rfl, ← BitVec.ofNat_add]
        congr 1; omega
      rw [he, List.getElem_cons_succ]
      exact ih _ _ _ (by omega) (by omega)

/-! ## Register lists -/

theorem mem_listRegs {list : BitVec 8} {r : Reg} :
    r ∈ listRegs list ↔ ∃ i : LowReg, list.getLsbD i.val = true ∧ r = lo i := by
  simp only [listRegs, List.mem_map, List.mem_filter, listed]
  constructor
  · rintro ⟨i, ⟨-, h⟩, rfl⟩; exact ⟨i, h, rfl⟩
  · rintro ⟨i, h, rfl⟩
    exact ⟨i, ⟨by have : ∀ i : LowReg, i ∈ lowRegs := by decide
                  exact this i, h⟩, rfl⟩

/-- The registers of a list ascend, so none is named twice. -/
theorem listRegs_ascending (list : BitVec 8) : (listRegs list).Pairwise (· < ·) := by
  refine List.pairwise_map.2 (List.Pairwise.filter _ ?_)
  decide

theorem listRegs_nodup (list : BitVec 8) : (listRegs list).Nodup :=
  (listRegs_ascending list).imp (fun h => ne_of_lt h)

theorem listRegs_ne_pcReg {list : BitVec 8} {r : Reg} (h : r ∈ listRegs list) : r ≠ pcReg := by
  obtain ⟨i, -, rfl⟩ := mem_listRegs.1 h
  simp

theorem listRegs_ne_spReg {list : BitVec 8} {r : Reg} (h : r ∈ listRegs list) : r ≠ spReg := by
  obtain ⟨i, -, rfl⟩ := mem_listRegs.1 h
  simp

theorem listRegs_ne_lrReg {list : BitVec 8} {r : Reg} (h : r ∈ listRegs list) : r ≠ lrReg := by
  obtain ⟨i, -, rfl⟩ := mem_listRegs.1 h
  simp

/-! ## Fetch -/

theorem State.fetch_eq_ok {s : State} {w : InstrWord} :
    s.fetch = .ok w ↔
      s.accessFault s.pc .half = none ∧ s.fetchesStored = false ∧ w = (s.peek s.pc .half).setWidth 16 := by
  unfold State.fetch State.memRead
  cases s.accessFault s.pc .half with
  | some f => simp
  | none => cases h : s.fetchesStored <;> simp [eq_comm]

/-! ## One step -/

/-- A step that goes on is the meaning of the decoded instruction, in a running machine. -/
theorem step_eq_next {s t : State} :
    step s = .next t ↔ s.halted = false ∧ s.t = true ∧ s.trap = none ∧
      ∃ w i, s.fetch = .ok w ∧ decode w = .ok i ∧ exec i s = .next t := by
  unfold step
  cases hh : s.halted
  swap
  · simp
  cases ht : s.t
  · simp
  cases htr : s.trap with
  | some e => simp
  | none =>
    cases hf : s.fetch with
    | error f => simp
    | ok w =>
      cases hd : decode w with
      | error e => simp [hd]
      | ok i => simp [hd]

end Sys2Proof.Machine
end

