-- ==== Sys2Proof/Laws/Meanings.lean ====
section
/-! SUPPORT. What the operations the meanings share can answer, and what the sums and shifts of 00_scope.md compute. -/

namespace Sys2Proof.Machine

open Sys2Proof

/-! ## Reading registers -/

/-- A register other than 15 depends on the field `regs` only. -/
theorem State.reg_congr {s t : State} {i : Reg} (h : t.regs = s.regs) (hi : i ≠ pcReg) : t.reg i = s.reg i := by
  have : i.val < 15 := by have := i.isLt; simp [pcReg, Fin.ext_iff] at hi; omega
  simp [State.reg, this, h]

/-! ## Shared meanings -/

theorem State.writeBack_eq {s : State} {i : Reg} (v : Word) (hi : i ≠ pcReg) (h : s.pc ≠ 0xFFFFFFFE#32) :
    s.writeBack i v = .next { s.setReg i v with pc := s.nextPc } := by
  rw [State.writeBack_of_ne v hi, State.retire_of_ne (by simpa [hi] using h), State.setReg_nextPc _ _ hi]

theorem State.writeSum_eq {s : State} {rd : LowReg} (r : Sum) (h : s.pc ≠ 0xFFFFFFFE#32) :
    s.writeSum rd r = .next { (s.setReg (lo rd) r.result).setNZCV r with pc := s.nextPc } := by
  rw [State.writeSum, State.retire_of_ne (by simpa using h)]
  simp

theorem State.compareSum_eq {s : State} (r : Sum) (h : s.pc ≠ 0xFFFFFFFE#32) :
    s.compareSum r = .next { s.setNZCV r with pc := s.nextPc } := by
  rw [State.compareSum, State.retire_of_ne (by simpa using h)]
  simp

theorem State.writeLogical_eq {s : State} {rd : LowReg} (r : Word) (h : s.pc ≠ 0xFFFFFFFE#32) :
    s.writeLogical rd r = .next { (s.setReg (lo rd) r).setNZ r with pc := s.nextPc } := by
  rw [State.writeLogical, State.retire_of_ne (by simpa using h)]
  simp

theorem State.writeShifted_eq {s : State} {rd : LowReg} (r : Shifted) (h : s.pc ≠ 0xFFFFFFFE#32) :
    s.writeShifted rd r = .next { (s.setReg (lo rd) r.result).setNZC r with pc := s.nextPc } := by
  rw [State.writeShifted, State.retire_of_ne (by simpa using h)]
  simp

/-- A load that passes its checks. -/
theorem State.loadInto_eq {s : State} {rd : LowReg} {a : Word} {n : Width} {w : Word → Word}
    (ha : s.accessFault a n = none) (h : s.pc ≠ 0xFFFFFFFE#32) :
    s.loadInto rd a n w = .next { s.setReg (lo rd) (w (s.peek a n)) with pc := s.nextPc } := by
  rw [State.loadInto, State.memRead_eq_ok.2 ⟨ha, rfl⟩]
  simp only
  rw [State.retire_of_ne (by simpa using h), State.setReg_nextPc _ _ (lo_ne_pcReg rd)]

/-- A store that passes its checks. -/
theorem State.storeFrom_eq {s : State} {rd : LowReg} {a : Word} {n : Width}
    (ha : s.accessFault a n = none) (h : s.pc ≠ 0xFFFFFFFE#32) :
    s.storeFrom rd a n = .next { s.poke a n (s.reg (lo rd)) with pc := s.nextPc } := by
  rw [State.storeFrom, State.memWrite_eq_ok.2 ⟨ha, rfl⟩]
  simp only
  rw [State.retire_of_ne (by simpa using h), State.poke_nextPc]

theorem State.checkPush_eq_none {s : State} {k : Nat} :
    s.checkPush k = none ↔
      k ≠ 0 ∧ 4 * k ≤ (s.reg spReg).toNat ∧ s.checkBlock (s.reg spReg - blockBytes k) k = none := by
  unfold State.checkPush
  split
  · simp_all
  · split
    · simp_all
    · rename_i h1 h2
      simp only [ne_eq, h1, not_false_eq_true, true_and]
      exact ⟨fun h => ⟨by omega, h⟩, And.right⟩

/-! ## Sums -/

/-- The result of an addition with carry is the sum modulo 2^32. -/
theorem addWithCarry_result (a b : Word) (cin : Bool) :
    (addWithCarry a b cin).result = a + b + BitVec.ofNat 32 cin.toNat := by
  simp [addWithCarry, BitVec.ofNat_add]

/-- The result of a subtraction is the difference modulo 2^32. -/
theorem subtraction_result (a b : Word) : (subtraction a b).result = a - b := by
  rw [subtraction, addWithCarry_result, BitVec.sub_eq_add_neg, BitVec.neg_eq_not_add]
  simp [BitVec.add_assoc]

/-- The carry of a subtraction is the complement of its borrow. -/
theorem subtraction_carry (a b : Word) : (subtraction a b).carry = decide (b.toNat ≤ a.toNat) := by
  have hb := b.isLt
  simp only [subtraction, addWithCarry, BitVec.toNat_not, Bool.toNat_true, decide_eq_decide]
  omega

/-- The signed value of a complement. -/
theorem toInt_not (b : Word) : (~~~b).toInt = -b.toInt - 1 := by
  have hb := b.isLt
  simp only [BitVec.toInt_eq_toNat_cond, BitVec.toNat_not]
  split <;> split <;> omega

/-! ## Writing a list of loaded words -/

/-- Register `regs[j]` of a list of distinct registers takes word `j` of the block. -/
theorem State.setRegs_peekWords_reg (s : State) (regs : List Reg) (start : Word) (k j : Nat) (hj : j < regs.length)
    (hk : regs.length ≤ k) (hnd : regs.Nodup) (hpc : regs[j] ≠ pcReg) :
    (s.setRegs (regs.zip (s.peekWords start k))).reg regs[j] = s.peek (wordAddr start j) .word := by
  refine State.setRegs_reg_of_mem _ _ hpc ?_ ?_
  · rw [List.map_fst_zip (by simpa using hk)]; exact hnd
  · rw [List.mem_iff_getElem]
    exact ⟨j, by simp; omega, by simp [State.getElem_peekWords]⟩

/-- A register not in the list keeps its value. -/
theorem State.setRegs_zip_reg_ne (s : State) (regs : List Reg) (ws : List Word) {r : Reg} (hr : r ≠ pcReg)
    (h : r ∉ regs) : (s.setRegs (regs.zip ws)).reg r = s.reg r := by
  refine State.setRegs_reg_of_not_mem _ _ hr ?_
  rintro p hp rfl
  exact h (List.of_mem_zip hp).1

theorem State.setRegs_zip_pc (s : State) (regs : List Reg) (ws : List Word) (h : pcReg ∉ regs) :
    (s.setRegs (regs.zip ws)).pc = s.pc := by
  exact State.setRegs_pc _ _ (fun p hp e => h (e ▸ (List.of_mem_zip hp).1))

end Sys2Proof.Machine
end

