-- ==== Sys2Proof/Laws/Exec.lean ====
section
/-! SUPPORT. What any instruction can do to the machine, said once: a proof about every step takes the cases of `Effect`
and not the cases of `Instr`. -/

namespace Sys2Proof.Machine

open Sys2Proof

/-- Memory, the stored set, T, the exits and the parameters are as they were. -/
structure Kept (s t : State) : Prop where
  mem_eq : t.mem = s.mem
  stored_eq : t.stored = s.stored
  t_eq : t.t = s.t
  halted_eq : t.halted = s.halted
  trap_eq : t.trap = s.trap
  cfg_eq : t.cfg = s.cfg

/-- The state `t` holds what an instruction can make of `s`, registers and flags apart. -/
inductive Effect (s t : State) : Prop
  /-- The next instruction follows. -/
  | plain (kept : Kept s t) (top : s.pc ≠ 0xFFFFFFFE#32) (pc : t.pc = s.nextPc)
  /-- A branch to a register or loaded value with bit 0 dropped. -/
  | jump (kept : Kept s t) (v : Word) (pc : t.pc = clearBit0 v)
  /-- A branch by an even displacement from PCval. -/
  | branch (kept : Kept s t) (off : Word) (even : off.getLsbD 0 = false) (pc : t.pc = s.pcValue + off)
  /-- A branch and exchange. -/
  | exchange (arch : s.cfg.profile = .arch) (v : Word) (kept : Kept { s with t := v.getLsbD 0 } t)
      (pc : t.pc = clearBit0 v)
  /-- One store that passed its checks, then the next instruction. -/
  | store (a v : Word) (n : Width) (ok : s.accessFault a n = none) (kept : Kept (s.poke a n v) t)
      (top : s.pc ≠ 0xFFFFFFFE#32) (pc : t.pc = s.nextPc)
  /-- A block of stores that passed its checks, then the next instruction. -/
  | block (a : Word) (vs : List Word) (ok : s.checkBlock a vs.length = none) (kept : Kept (s.pokeWords a vs) t)
      (top : s.pc ≠ 0xFFFFFFFE#32) (pc : t.pc = s.nextPc)
  /-- A trap, which changes nothing else. -/
  | trap (arch : s.cfg.profile = .arch) (top : s.pc ≠ 0xFFFFFFFE#32) (kind : TrapKind) (imm8 : BitVec 8)
      (eq : t = { s with trap := some { kind := kind, imm8 := imm8, ret := s.nextPc } })
  /-- The halt of the HDL profile. -/
  | halt (hdl : s.cfg.profile = .hdl) (top : s.pc ≠ 0xFFFFFFFE#32) (eq : t = { s with halted := true, pc := s.nextPc })

theorem Kept.refl (s : State) : Kept s s := ⟨rfl, rfl, rfl, rfl, rfl, rfl⟩

theorem Kept.setReg (s : State) (i : Reg) (v : Word) : Kept s (s.setReg i v) := by constructor <;> simp

theorem Kept.setRegs (s : State) (l : List (Reg × Word)) : Kept s (s.setRegs l) := by constructor <;> simp

theorem Kept.trans {s t u : State} (h : Kept s t) (k : Kept t u) : Kept s u :=
  ⟨k.mem_eq.trans h.mem_eq, k.stored_eq.trans h.stored_eq, k.t_eq.trans h.t_eq, k.halted_eq.trans h.halted_eq,
    k.trap_eq.trans h.trap_eq, k.cfg_eq.trans h.cfg_eq⟩

/-- The end of an instruction whose writes kept memory and pc. -/
theorem Effect.of_retire {s u t : State} (h : u.retire = .next t) (hk : Kept s u) (hp : u.pc = s.pc) : Effect s t := by
  rw [State.retire_eq_next] at h
  obtain ⟨h1, rfl⟩ := h
  exact .plain ⟨hk.mem_eq, hk.stored_eq, hk.t_eq, hk.halted_eq, hk.trap_eq, hk.cfg_eq⟩ (hp ▸ h1)
    (by simp [State.nextPc, hp])

theorem Effect.of_writeSum {s t : State} {rd : LowReg} {r : Sum} (h : s.writeSum rd r = .next t) : Effect s t :=
  .of_retire h ⟨by simp, by simp, by simp, by simp, by simp, by simp⟩ (by simp)

theorem Effect.of_compareSum {s t : State} {r : Sum} (h : s.compareSum r = .next t) : Effect s t :=
  .of_retire h ⟨by simp, by simp, by simp, by simp, by simp, by simp⟩ (by simp)

theorem Effect.of_writeLogical {s t : State} {rd : LowReg} {r : Word} (h : s.writeLogical rd r = .next t) :
    Effect s t :=
  .of_retire h ⟨by simp, by simp, by simp, by simp, by simp, by simp⟩ (by simp)

theorem Effect.of_writeShifted {s t : State} {rd : LowReg} {r : Shifted} (h : s.writeShifted rd r = .next t) :
    Effect s t :=
  .of_retire h ⟨by simp, by simp, by simp, by simp, by simp, by simp⟩ (by simp)

theorem Effect.of_writeBack {s t : State} {i : Reg} {v : Word} (h : s.writeBack i v = .next t) : Effect s t := by
  by_cases hi : i = pcReg
  · subst hi
    rw [State.writeBack_pcReg] at h
    cases h
    exact .jump ⟨rfl, rfl, rfl, rfl, rfl, rfl⟩ v rfl
  · rw [State.writeBack_of_ne v hi] at h
    exact .of_retire h (Kept.setReg _ _ _) (by simp [hi])

theorem Effect.of_loadInto {s t : State} {rd : LowReg} {a : Word} {n : Width} {w : Word → Word}
    (h : s.loadInto rd a n w = .next t) : Effect s t := by
  rw [State.loadInto_eq_next] at h
  exact .of_retire h.2 (Kept.setReg _ _ _) (by simp)

theorem Effect.of_storeFrom {s t : State} {rd : LowReg} {a : Word} {n : Width} (h : s.storeFrom rd a n = .next t) :
    Effect s t := by
  rw [State.storeFrom_eq_next, State.retire_eq_next] at h
  obtain ⟨hok, hp, rfl⟩ := h
  exact .store a _ n hok ⟨rfl, rfl, rfl, rfl, rfl, rfl⟩ (by simpa using hp) (by simp)

theorem Effect.of_branchExchange {s t : State} {r : Word} {v : Word} (h : (s.setReg lrReg r).branchExchange v = .next t)
    (ha : s.cfg.profile = .arch) : Effect s t := by
  cases h
  exact .exchange ha v ⟨by simp, by simp, by simp, by simp, by simp, by simp⟩ rfl

/-- An instruction that stores a block, writes one register and goes on. -/
theorem Effect.of_block {s t : State} {a : Word} {vs : List Word} {r : Reg} {v : Word} (hr : r ≠ pcReg)
    (hok : s.checkBlock a vs.length = none) (h : ((s.pokeWords a vs).setReg r v).retire = .next t) : Effect s t := by
  rw [State.retire_eq_next] at h
  obtain ⟨hp, rfl⟩ := h
  exact .block a vs hok ⟨by simp, by simp, by simp, by simp, by simp, by simp⟩ (by simpa [hr] using hp) (by simp [hr])

/-- An instruction that loads a block, writes one more register and goes on. -/
theorem Effect.of_loads {s t : State} {list : BitVec 8} {ws : List Word} {r : Reg} {v : Word} (hr : r ≠ pcReg)
    (h : ((s.setRegs ((listRegs list).zip ws)).setReg r v).retire = .next t) : Effect s t := by
  refine .of_retire h ((Kept.setRegs _ _).trans (Kept.setReg _ _ _)) ?_
  rw [State.setReg_pc _ _ hr, State.setRegs_zip_pc _ _ _ (fun h => listRegs_ne_pcReg h rfl)]

theorem Effect.of_pushRegs {s t : State} {regs : List Reg} (h : s.pushRegs regs = .next t) : Effect s t := by
  unfold State.pushRegs at h
  rw [afterCheck_eq_next, State.checkPush_eq_none] at h
  exact .of_block spReg_ne_pcReg (by simpa using h.1.2.2) h.2

theorem Effect.of_popBlock {s t : State} {r : Bool} {list : BitVec 8} (h : s.popBlock r list = .next t) :
    Effect s t := by
  unfold State.popBlock at h
  rw [afterCheck_eq_next] at h
  replace h := h.2
  split at h
  · split at h
    · cases h
      exact .jump ⟨by simp, by simp, by simp, by simp, by simp, by simp⟩ _ rfl
    · simp at h
  · exact .of_loads spReg_ne_pcReg h

theorem Effect.of_popSingle {s t : State} {list : BitVec 8} (h : s.popSingle list = .next t) : Effect s t := by
  unfold State.popSingle at h
  split at h
  · simp at h
  · rename_i i hi
    rw [afterCheck_eq_next] at h
    have hm : i ∈ listRegs list := List.mem_of_mem_head? (by simpa [firstListed] using hi)
    refine .of_retire h.2 ((Kept.setReg _ _ _).trans (Kept.setReg _ _ _)) ?_
    rw [State.setReg_pc _ _ spReg_ne_pcReg, State.setReg_pc _ _ (listRegs_ne_pcReg hm)]

theorem branchOffset_even {w : Nat} (v : BitVec w) : (branchOffset v).getLsbD 0 = false := by
  rw [branchOffset, BitVec.getLsbD_signExtend, BitVec.getLsbD_append]
  simp

theorem Effect.of_execB1 {s t : State} {cond : Cond} {d : BitVec 8} (h : execB1 cond d s = .next t) : Effect s t := by
  unfold execB1 at h
  split at h
  · cases h
  · split at h
    · cases h
      exact .branch ⟨rfl, rfl, rfl, rfl, rfl, rfl⟩ _ (branchOffset_even d) rfl
    · exact .of_retire h (Kept.refl s) rfl

theorem Effect.of_execBlx2 {s t : State} {rm : Reg} {sbz : BitVec 3} (h : execBlx2 rm sbz s = .next t) :
    Effect s t := by
  rw [execBlx2, State.fromV5_eq_next, State.archOnly_eq_next] at h
  obtain ⟨-, ha, h⟩ := h
  split at h
  · simp at h
  · split at h
    · simp at h
    · exact .of_branchExchange h ha

theorem Effect.of_execBx {s t : State} {rm : Reg} {sbz : BitVec 3} (h : execBx rm sbz s = .next t) : Effect s t := by
  rw [execBx, State.archOnly_eq_next] at h
  obtain ⟨ha, h⟩ := h
  split at h
  · simp at h
  · cases h
    exact .exchange ha _ ⟨rfl, rfl, rfl, rfl, rfl, rfl⟩ rfl

theorem Effect.of_execLdmia {s t : State} {rn : LowReg} {list : BitVec 8} (h : execLdmia rn list s = .next t) :
    Effect s t := by
  rw [execLdmia, State.archOnly_eq_next] at h
  replace h := h.2
  dsimp only at h
  split at h
  · simp at h
  · split at h
    · simp at h
    · rw [afterCheck_eq_next] at h
      exact .of_loads (lo_ne_pcReg rn) h.2

theorem Effect.of_execStmia {s t : State} {rn : LowReg} {list : BitVec 8} (h : execStmia rn list s = .next t) :
    Effect s t := by
  rw [execStmia, State.archOnly_eq_next] at h
  replace h := h.2
  dsimp only at h
  split at h
  · simp at h
  · split at h
    · simp at h
    · rw [afterCheck_eq_next] at h
      exact .of_block (lo_ne_pcReg rn) (by simpa using h.1) h.2

theorem Effect.of_execBkpt {s t : State} {v : BitVec 8} (h : execBkpt v s = .next t) : Effect s t := by
  rw [execBkpt, State.fromV5_eq_next, State.archOnly_eq_next] at h
  obtain ⟨-, ha, h⟩ := h
  obtain ⟨hp, h⟩ := State.takeTrap_eq_next.mp h
  exact .trap ha hp _ _ h

theorem Effect.of_execSwi {s t : State} {v : BitVec 8} (h : execSwi v s = .next t) : Effect s t := by
  unfold execSwi at h
  split at h
  · obtain ⟨hp, h⟩ := State.takeTrap_eq_next.mp h
    exact .trap ‹_› hp _ _ h
  · obtain ⟨hp, h⟩ := State.halt_eq_next.mp h
    exact .halt ‹_› hp h

/-- Whatever an instruction does, it has one of the eight effects. -/
theorem exec_effect {i : Instr} {s t : State} (h : exec i s = .next t) : Effect s t := by
  cases i <;> simp only [exec] at h
  case add4 => rw [execAdd4, State.archOnly_eq_next] at h; exact .of_writeBack h.2
  case cmp3 =>
    rw [execCmp3, State.archOnly_eq_next] at h
    replace h := h.2
    split at h
    · simp at h
    · exact .of_compareSum h
  case mov3 =>
    rw [execMov3, State.archOnly_eq_next] at h
    replace h := h.2
    split at h
    · simp at h
    · exact .of_writeBack h
  case mul | mov2 => exact .of_retire h ⟨by simp, by simp, by simp, by simp, by simp, by simp⟩ (by simp)
  case tst => exact .of_retire h ⟨rfl, rfl, rfl, rfl, rfl, rfl⟩ rfl
  case b1 => exact .of_execB1 h
  case b2 d => cases h; exact .branch ⟨rfl, rfl, rfl, rfl, rfl, rfl⟩ _ (branchOffset_even d) rfl
  case blH11 => cases h; exact .jump ⟨by simp, by simp, by simp, by simp, by simp, by simp⟩ _ rfl
  case blxH01 =>
    rw [execBlxH01, State.fromV5_eq_next, State.archOnly_eq_next] at h
    exact .of_branchExchange h.2.2 h.2.1
  case blx2 => exact .of_execBlx2 h
  case bx => exact .of_execBx h
  case bkpt => exact .of_execBkpt h
  case swi => exact .of_execSwi h
  case ldmia => exact .of_execLdmia h
  case stmia => exact .of_execStmia h
  case push =>
    unfold execPush at h
    split at h <;> exact .of_pushRegs h
  case pop =>
    unfold execPop at h
    split at h
    · exact .of_popBlock h
    · exact .of_popSingle h
  case adc | add1 | add2 | add3 | neg | sbc | sub1 | sub2 | sub3 => exact .of_writeSum h
  case cmn | cmp1 | cmp2 => exact .of_compareSum h
  case and | bic | eor | mov1 | mvn | orr => exact .of_writeLogical h
  case asr1 | asr2 | lsl1 | lsl2 | lsr1 | lsr2 | ror => exact .of_writeShifted h
  case add5 | add6 | add7 | sub4 | blH10 => exact .of_writeBack h
  case ldr1 | ldr2 | ldr3 | ldr4 | ldrb1 | ldrb2 | ldrh1 | ldrh2 | ldrsb | ldrsh => exact .of_loadInto h
  case str1 | str2 | str3 | strb1 | strb2 | strh1 | strh2 => exact .of_storeFrom h

end Sys2Proof.Machine
end

