-- ==== Sys2Proof/Laws/PerInstr.lean ====
section
/-! SUPPORT. Statements made for each instruction as syntax: its word carries the fixed bits of its own row of
spec/opcode_table.json. -/

namespace Sys2Proof.Laws

open Sys2Proof

/-! ## The fixed bits of a word written from bit 15 down -/

theorem EncodesInRow.fixed1 {m n : Nat} (a : BitVec m) (x : BitVec n) :
    (a ++ x) &&& (BitVec.allOnes m ++ 0#n) = a ++ 0#n := by
  rw [BitVec.and_append]; simp

theorem EncodesInRow.fixed2 {m n k : Nat} (a : BitVec m) (x : BitVec n) (y : BitVec k) :
    (a ++ x ++ y) &&& (BitVec.allOnes m ++ 0#n ++ 0#k) = a ++ 0#n ++ 0#k := by
  rw [BitVec.and_append, EncodesInRow.fixed1]; simp

theorem EncodesInRow.fixed3 {m n k l : Nat} (a : BitVec m) (x : BitVec n) (y : BitVec k) (z : BitVec l) :
    (a ++ x ++ y ++ z) &&& (BitVec.allOnes m ++ 0#n ++ 0#k ++ 0#l) = a ++ 0#n ++ 0#k ++ 0#l := by
  rw [BitVec.and_append, EncodesInRow.fixed2]; simp

theorem EncodesInRow.fixed4 {m n k l j : Nat} (a : BitVec m) (x : BitVec n) (y : BitVec k) (z : BitVec l)
    (u : BitVec j) :
    (a ++ x ++ y ++ z ++ u) &&& (BitVec.allOnes m ++ 0#n ++ 0#k ++ 0#l ++ 0#j) = a ++ 0#n ++ 0#k ++ 0#l ++ 0#j := by
  rw [BitVec.and_append, EncodesInRow.fixed3]; simp

/-- The mask and the match of the instruction's row. -/
def EncodesInRow.row : Instr → InstrWord × InstrWord
  | .lsl1 .. => (0xF800#16, 0x0000#16)
  | .lsr1 .. => (0xF800#16, 0x0800#16)
  | .asr1 .. => (0xF800#16, 0x1000#16)
  | .add3 .. => (0xFE00#16, 0x1800#16)
  | .sub3 .. => (0xFE00#16, 0x1A00#16)
  | .add1 .. => (0xFE00#16, 0x1C00#16)
  | .mov2 .. => (0xFFC0#16, 0x1C00#16)
  | .sub1 .. => (0xFE00#16, 0x1E00#16)
  | .mov1 .. => (0xF800#16, 0x2000#16)
  | .cmp1 .. => (0xF800#16, 0x2800#16)
  | .add2 .. => (0xF800#16, 0x3000#16)
  | .sub2 .. => (0xF800#16, 0x3800#16)
  | .and .. => (0xFFC0#16, 0x4000#16)
  | .eor .. => (0xFFC0#16, 0x4040#16)
  | .lsl2 .. => (0xFFC0#16, 0x4080#16)
  | .lsr2 .. => (0xFFC0#16, 0x40C0#16)
  | .asr2 .. => (0xFFC0#16, 0x4100#16)
  | .adc .. => (0xFFC0#16, 0x4140#16)
  | .sbc .. => (0xFFC0#16, 0x4180#16)
  | .ror .. => (0xFFC0#16, 0x41C0#16)
  | .tst .. => (0xFFC0#16, 0x4200#16)
  | .neg .. => (0xFFC0#16, 0x4240#16)
  | .cmp2 .. => (0xFFC0#16, 0x4280#16)
  | .cmn .. => (0xFFC0#16, 0x42C0#16)
  | .orr .. => (0xFFC0#16, 0x4300#16)
  | .mul .. => (0xFFC0#16, 0x4340#16)
  | .bic .. => (0xFFC0#16, 0x4380#16)
  | .mvn .. => (0xFFC0#16, 0x43C0#16)
  | .add4 .. => (0xFF00#16, 0x4400#16)
  | .cmp3 .. => (0xFF00#16, 0x4500#16)
  | .mov3 .. => (0xFF00#16, 0x4600#16)
  | .bx .. => (0xFF80#16, 0x4700#16)
  | .blx2 .. => (0xFF80#16, 0x4780#16)
  | .ldr3 .. => (0xF800#16, 0x4800#16)
  | .str2 .. => (0xFE00#16, 0x5000#16)
  | .strh2 .. => (0xFE00#16, 0x5200#16)
  | .strb2 .. => (0xFE00#16, 0x5400#16)
  | .ldrsb .. => (0xFE00#16, 0x5600#16)
  | .ldr2 .. => (0xFE00#16, 0x5800#16)
  | .ldrh2 .. => (0xFE00#16, 0x5A00#16)
  | .ldrb2 .. => (0xFE00#16, 0x5C00#16)
  | .ldrsh .. => (0xFE00#16, 0x5E00#16)
  | .str1 .. => (0xF800#16, 0x6000#16)
  | .ldr1 .. => (0xF800#16, 0x6800#16)
  | .strb1 .. => (0xF800#16, 0x7000#16)
  | .ldrb1 .. => (0xF800#16, 0x7800#16)
  | .strh1 .. => (0xF800#16, 0x8000#16)
  | .ldrh1 .. => (0xF800#16, 0x8800#16)
  | .str3 .. => (0xF800#16, 0x9000#16)
  | .ldr4 .. => (0xF800#16, 0x9800#16)
  | .add5 .. => (0xF800#16, 0xA000#16)
  | .add6 .. => (0xF800#16, 0xA800#16)
  | .add7 .. => (0xFF80#16, 0xB000#16)
  | .sub4 .. => (0xFF80#16, 0xB080#16)
  | .push .. => (0xFE00#16, 0xB400#16)
  | .pop .. => (0xFE00#16, 0xBC00#16)
  | .bkpt .. => (0xFF00#16, 0xBE00#16)
  | .stmia .. => (0xF800#16, 0xC000#16)
  | .ldmia .. => (0xF800#16, 0xC800#16)
  | .b1 .. => (0xF000#16, 0xD000#16)
  | .swi .. => (0xFF00#16, 0xDF00#16)
  | .b2 .. => (0xF800#16, 0xE000#16)
  | .blxH01 .. => (0xF800#16, 0xE800#16)
  | .blH10 .. => (0xF800#16, 0xF000#16)
  | .blH11 .. => (0xF800#16, 0xF800#16)

/-- The word of an instruction has its row's fixed bits. -/
def EncodesInRow.Statement (i : Instr) : Prop := encode i &&& (EncodesInRow.row i).1 = (EncodesInRow.row i).2

theorem EncodesInRow.lsl1 (immed5 : BitVec 5) (rm rd : LowReg) :
    EncodesInRow.Statement (.lsl1 immed5 rm rd) := EncodesInRow.fixed3 _ _ _ _
theorem EncodesInRow.lsr1 (immed5 : BitVec 5) (rm rd : LowReg) :
    EncodesInRow.Statement (.lsr1 immed5 rm rd) := EncodesInRow.fixed3 _ _ _ _
theorem EncodesInRow.asr1 (immed5 : BitVec 5) (rm rd : LowReg) :
    EncodesInRow.Statement (.asr1 immed5 rm rd) := EncodesInRow.fixed3 _ _ _ _
theorem EncodesInRow.add3 (rm rn rd : LowReg) :
    EncodesInRow.Statement (.add3 rm rn rd) := EncodesInRow.fixed3 _ _ _ _
theorem EncodesInRow.sub3 (rm rn rd : LowReg) :
    EncodesInRow.Statement (.sub3 rm rn rd) := EncodesInRow.fixed3 _ _ _ _
theorem EncodesInRow.add1 (immed3 : BitVec 3) (rn rd : LowReg) :
    EncodesInRow.Statement (.add1 immed3 rn rd) := EncodesInRow.fixed3 _ _ _ _
theorem EncodesInRow.mov2 (rn rd : LowReg) :
    EncodesInRow.Statement (.mov2 rn rd) := EncodesInRow.fixed2 _ _ _
theorem EncodesInRow.sub1 (immed3 : BitVec 3) (rn rd : LowReg) :
    EncodesInRow.Statement (.sub1 immed3 rn rd) := EncodesInRow.fixed3 _ _ _ _
theorem EncodesInRow.mov1 (rd : LowReg) (immed8 : BitVec 8) :
    EncodesInRow.Statement (.mov1 rd immed8) := EncodesInRow.fixed2 _ _ _
theorem EncodesInRow.cmp1 (rn : LowReg) (immed8 : BitVec 8) :
    EncodesInRow.Statement (.cmp1 rn immed8) := EncodesInRow.fixed2 _ _ _
theorem EncodesInRow.add2 (rd : LowReg) (immed8 : BitVec 8) :
    EncodesInRow.Statement (.add2 rd immed8) := EncodesInRow.fixed2 _ _ _
theorem EncodesInRow.sub2 (rd : LowReg) (immed8 : BitVec 8) :
    EncodesInRow.Statement (.sub2 rd immed8) := EncodesInRow.fixed2 _ _ _
theorem EncodesInRow.and (rm rd : LowReg) :
    EncodesInRow.Statement (.and rm rd) := EncodesInRow.fixed2 _ _ _
theorem EncodesInRow.eor (rm rd : LowReg) :
    EncodesInRow.Statement (.eor rm rd) := EncodesInRow.fixed2 _ _ _
theorem EncodesInRow.lsl2 (rs rd : LowReg) :
    EncodesInRow.Statement (.lsl2 rs rd) := EncodesInRow.fixed2 _ _ _
theorem EncodesInRow.lsr2 (rs rd : LowReg) :
    EncodesInRow.Statement (.lsr2 rs rd) := EncodesInRow.fixed2 _ _ _
theorem EncodesInRow.asr2 (rs rd : LowReg) :
    EncodesInRow.Statement (.asr2 rs rd) := EncodesInRow.fixed2 _ _ _
theorem EncodesInRow.adc (rm rd : LowReg) :
    EncodesInRow.Statement (.adc rm rd) := EncodesInRow.fixed2 _ _ _
theorem EncodesInRow.sbc (rm rd : LowReg) :
    EncodesInRow.Statement (.sbc rm rd) := EncodesInRow.fixed2 _ _ _
theorem EncodesInRow.ror (rs rd : LowReg) :
    EncodesInRow.Statement (.ror rs rd) := EncodesInRow.fixed2 _ _ _
theorem EncodesInRow.tst (rm rn : LowReg) :
    EncodesInRow.Statement (.tst rm rn) := EncodesInRow.fixed2 _ _ _
theorem EncodesInRow.neg (rm rd : LowReg) :
    EncodesInRow.Statement (.neg rm rd) := EncodesInRow.fixed2 _ _ _
theorem EncodesInRow.cmp2 (rm rn : LowReg) :
    EncodesInRow.Statement (.cmp2 rm rn) := EncodesInRow.fixed2 _ _ _
theorem EncodesInRow.cmn (rm rn : LowReg) :
    EncodesInRow.Statement (.cmn rm rn) := EncodesInRow.fixed2 _ _ _
theorem EncodesInRow.orr (rm rd : LowReg) :
    EncodesInRow.Statement (.orr rm rd) := EncodesInRow.fixed2 _ _ _
theorem EncodesInRow.mul (rm rd : LowReg) :
    EncodesInRow.Statement (.mul rm rd) := EncodesInRow.fixed2 _ _ _
theorem EncodesInRow.bic (rm rd : LowReg) :
    EncodesInRow.Statement (.bic rm rd) := EncodesInRow.fixed2 _ _ _
theorem EncodesInRow.mvn (rm rd : LowReg) :
    EncodesInRow.Statement (.mvn rm rd) := EncodesInRow.fixed2 _ _ _
theorem EncodesInRow.add4 (rm rd : Reg) :
    EncodesInRow.Statement (.add4 rm rd) := EncodesInRow.fixed4 _ _ _ _ _
theorem EncodesInRow.cmp3 (rm rn : Reg) :
    EncodesInRow.Statement (.cmp3 rm rn) := EncodesInRow.fixed4 _ _ _ _ _
theorem EncodesInRow.mov3 (rm rd : Reg) :
    EncodesInRow.Statement (.mov3 rm rd) := EncodesInRow.fixed4 _ _ _ _ _
theorem EncodesInRow.bx (rm : Reg) (sbz : BitVec 3) :
    EncodesInRow.Statement (.bx rm sbz) := EncodesInRow.fixed3 _ _ _ _
theorem EncodesInRow.blx2 (rm : Reg) (sbz : BitVec 3) :
    EncodesInRow.Statement (.blx2 rm sbz) := EncodesInRow.fixed3 _ _ _ _
theorem EncodesInRow.ldr3 (rd : LowReg) (immed8 : BitVec 8) :
    EncodesInRow.Statement (.ldr3 rd immed8) := EncodesInRow.fixed2 _ _ _
theorem EncodesInRow.str2 (rm rn rd : LowReg) :
    EncodesInRow.Statement (.str2 rm rn rd) := EncodesInRow.fixed3 _ _ _ _
theorem EncodesInRow.strh2 (rm rn rd : LowReg) :
    EncodesInRow.Statement (.strh2 rm rn rd) := EncodesInRow.fixed3 _ _ _ _
theorem EncodesInRow.strb2 (rm rn rd : LowReg) :
    EncodesInRow.Statement (.strb2 rm rn rd) := EncodesInRow.fixed3 _ _ _ _
theorem EncodesInRow.ldrsb (rm rn rd : LowReg) :
    EncodesInRow.Statement (.ldrsb rm rn rd) := EncodesInRow.fixed3 _ _ _ _
theorem EncodesInRow.ldr2 (rm rn rd : LowReg) :
    EncodesInRow.Statement (.ldr2 rm rn rd) := EncodesInRow.fixed3 _ _ _ _
theorem EncodesInRow.ldrh2 (rm rn rd : LowReg) :
    EncodesInRow.Statement (.ldrh2 rm rn rd) := EncodesInRow.fixed3 _ _ _ _
theorem EncodesInRow.ldrb2 (rm rn rd : LowReg) :
    EncodesInRow.Statement (.ldrb2 rm rn rd) := EncodesInRow.fixed3 _ _ _ _
theorem EncodesInRow.ldrsh (rm rn rd : LowReg) :
    EncodesInRow.Statement (.ldrsh rm rn rd) := EncodesInRow.fixed3 _ _ _ _
theorem EncodesInRow.str1 (immed5 : BitVec 5) (rn rd : LowReg) :
    EncodesInRow.Statement (.str1 immed5 rn rd) := EncodesInRow.fixed3 _ _ _ _
theorem EncodesInRow.ldr1 (immed5 : BitVec 5) (rn rd : LowReg) :
    EncodesInRow.Statement (.ldr1 immed5 rn rd) := EncodesInRow.fixed3 _ _ _ _
theorem EncodesInRow.strb1 (immed5 : BitVec 5) (rn rd : LowReg) :
    EncodesInRow.Statement (.strb1 immed5 rn rd) := EncodesInRow.fixed3 _ _ _ _
theorem EncodesInRow.ldrb1 (immed5 : BitVec 5) (rn rd : LowReg) :
    EncodesInRow.Statement (.ldrb1 immed5 rn rd) := EncodesInRow.fixed3 _ _ _ _
theorem EncodesInRow.strh1 (immed5 : BitVec 5) (rn rd : LowReg) :
    EncodesInRow.Statement (.strh1 immed5 rn rd) := EncodesInRow.fixed3 _ _ _ _
theorem EncodesInRow.ldrh1 (immed5 : BitVec 5) (rn rd : LowReg) :
    EncodesInRow.Statement (.ldrh1 immed5 rn rd) := EncodesInRow.fixed3 _ _ _ _
theorem EncodesInRow.str3 (rd : LowReg) (immed8 : BitVec 8) :
    EncodesInRow.Statement (.str3 rd immed8) := EncodesInRow.fixed2 _ _ _
theorem EncodesInRow.ldr4 (rd : LowReg) (immed8 : BitVec 8) :
    EncodesInRow.Statement (.ldr4 rd immed8) := EncodesInRow.fixed2 _ _ _
theorem EncodesInRow.add5 (rd : LowReg) (immed8 : BitVec 8) :
    EncodesInRow.Statement (.add5 rd immed8) := EncodesInRow.fixed2 _ _ _
theorem EncodesInRow.add6 (rd : LowReg) (immed8 : BitVec 8) :
    EncodesInRow.Statement (.add6 rd immed8) := EncodesInRow.fixed2 _ _ _
theorem EncodesInRow.add7 (immed7 : BitVec 7) :
    EncodesInRow.Statement (.add7 immed7) := EncodesInRow.fixed1 _ _
theorem EncodesInRow.sub4 (immed7 : BitVec 7) :
    EncodesInRow.Statement (.sub4 immed7) := EncodesInRow.fixed1 _ _
theorem EncodesInRow.push (r : Bool) (list : BitVec 8) :
    EncodesInRow.Statement (.push r list) := EncodesInRow.fixed2 _ _ _
theorem EncodesInRow.pop (r : Bool) (list : BitVec 8) :
    EncodesInRow.Statement (.pop r list) := EncodesInRow.fixed2 _ _ _
theorem EncodesInRow.bkpt (immed8 : BitVec 8) :
    EncodesInRow.Statement (.bkpt immed8) := EncodesInRow.fixed1 _ _
theorem EncodesInRow.stmia (rn : LowReg) (list : BitVec 8) :
    EncodesInRow.Statement (.stmia rn list) := EncodesInRow.fixed2 _ _ _
theorem EncodesInRow.ldmia (rn : LowReg) (list : BitVec 8) :
    EncodesInRow.Statement (.ldmia rn list) := EncodesInRow.fixed2 _ _ _
theorem EncodesInRow.b1 (cond : Cond) (simmed8 : BitVec 8) :
    EncodesInRow.Statement (.b1 cond simmed8) := EncodesInRow.fixed2 _ _ _
theorem EncodesInRow.swi (immed8 : BitVec 8) :
    EncodesInRow.Statement (.swi immed8) := EncodesInRow.fixed1 _ _
theorem EncodesInRow.b2 (simmed11 : BitVec 11) :
    EncodesInRow.Statement (.b2 simmed11) := EncodesInRow.fixed1 _ _
theorem EncodesInRow.blxH01 (offset11 : BitVec 11) :
    EncodesInRow.Statement (.blxH01 offset11) := EncodesInRow.fixed1 _ _
theorem EncodesInRow.blH10 (offset11 : BitVec 11) :
    EncodesInRow.Statement (.blH10 offset11) := EncodesInRow.fixed1 _ _
theorem EncodesInRow.blH11 (offset11 : BitVec 11) :
    EncodesInRow.Statement (.blH11 offset11) := EncodesInRow.fixed1 _ _

end Sys2Proof.Laws
end

