-- ==== Sys2Proof/Tests/Slice0.lean ====
section
/-! SUPPORT. The model's own tests: ill-formed terms, the words of every form, one small step at a time with the values
of spec/95_test_vectors.md, and a state that meets the hypotheses of each obligation that has some. -/

namespace Sys2Proof.Tests

open Sys2Proof Sys2Proof.Machine Sys2Proof.Claims

/-! ## Helpers -/

/-- Whether a result is a next state with `p`. -/
def nextIs (r : Result) (p : State → Bool) : Bool :=
  match r with
  | .next t => p t
  | _ => false

/-- One step of `s` gives a next state with `p`. -/
abbrev gives (s : State) (p : State → Bool) : Prop := nextIs (step s) p = true

theorem exists_of_nextIs {r : Result} {p : State → Bool} (h : nextIs r p = true) : ∃ t, r = .next t ∧ p t = true := by
  cases r with
  | next t => exact ⟨t, rfl, h⟩
  | fault f => cases h
  | refused f => cases h

/-- The instruction `w` at `pc`, with the registers, flags, words of memory and parameters given; the rest as at
reset. -/
def start (w : Nat) (pc : Word) (regs : List (Reg × Word)) (flags : Flags) (words : List (Word × Word)) (cfg : Config) :
    State :=
  let s := (State.launch cfg pc State.resetRegs flags []).setRegs regs
  let t := words.foldl (fun s p => s.poke p.1 .word p.2) s
  { t with stored := [] }.withFetchWord 16 w

/-- The reset state with other parameters. -/
def under (cfg : Config) : State := { State.reset with cfg := cfg }

/-- The reset state in the HDL profile. -/
def hdl : State := under { profile := .hdl }

/-- With the default `MEM`, every address below 2^32 is admitted. -/
theorem admitted {s : State} (h : s.cfg.admitted = [⟨0, 4294967296⟩]) {a n : Nat} (k : a + n ≤ 4294967296) :
    Admitted s a n := by
  intro x h1 h2
  simp [Config.admits, h, Region.holds]
  omega

/-! ## Ill-formed terms are refused -/

theorem test_add1_zero_ill_formed : (Instr.add1 0 1 0).wellFormed = false := by decide
theorem test_cmp3_low_ill_formed : (Instr.cmp3 2 1).wellFormed = false := by decide
theorem test_mov3_low_ill_formed : (Instr.mov3 2 1).wellFormed = false := by decide
theorem test_bx_sbz_ill_formed : (Instr.bx 14 4).wellFormed = false := by decide
theorem test_blx2_sbz_ill_formed : (Instr.blx2 3 1).wellFormed = false := by decide
theorem test_blx2_lr_ill_formed : (Instr.blx2 14 0).wellFormed = false := by decide
theorem test_push_empty_ill_formed : (Instr.push false 0).wellFormed = false := by decide
theorem test_pop_empty_ill_formed : (Instr.pop false 0).wellFormed = false := by decide
theorem test_ldmia_empty_ill_formed : (Instr.ldmia 1 0).wellFormed = false := by decide
theorem test_ldmia_base_ill_formed : (Instr.ldmia 1 0x06).wellFormed = false := by decide
theorem test_stmia_empty_ill_formed : (Instr.stmia 1 0).wellFormed = false := by decide
theorem test_stmia_base_ill_formed : (Instr.stmia 1 0x03).wellFormed = false := by decide
theorem test_stmia_lowest_base_well_formed : (Instr.stmia 0 0x03).wellFormed = true := by decide

/-! ## Every form's word, written out from 95_test_vectors.md, section 2 -/

theorem test_decode_arithmetic :
    decode 0b0100000101010001#16 = .ok (.adc 2 1) ∧
    decode 0b0001110111001000#16 = .ok (.add1 7 1 0) ∧
    decode 0b0011001011111111#16 = .ok (.add2 2 255) ∧
    decode 0b0001100010001000#16 = .ok (.add3 2 1 0) ∧
    decode 0b0100010010001000#16 = .ok (.add4 1 8) ∧
    decode 0b1010000000000011#16 = .ok (.add5 0 3) ∧
    decode 0b1010100100000010#16 = .ok (.add6 1 2) ∧
    decode 0b1011000000000100#16 = .ok (.add7 4) ∧
    decode 0b0100001011001000#16 = .ok (.cmn 1 0) ∧
    decode 0b0010101111111111#16 = .ok (.cmp1 3 255) ∧
    decode 0b0100001010001000#16 = .ok (.cmp2 1 0) ∧
    decode 0b0100010110001000#16 = .ok (.cmp3 1 8) ∧
    decode 0b0100001101001000#16 = .ok (.mul 1 0) ∧
    decode 0b0100001001001000#16 = .ok (.neg 1 0) ∧
    decode 0b0100000110001000#16 = .ok (.sbc 1 0) ∧
    decode 0b0001111111001000#16 = .ok (.sub1 7 1 0) ∧
    decode 0b0011101011111111#16 = .ok (.sub2 2 255) ∧
    decode 0b0001101010001000#16 = .ok (.sub3 2 1 0) ∧
    decode 0b1011000010000100#16 = .ok (.sub4 4) := by decide +kernel

theorem test_decode_logical :
    decode 0b0100000000001000#16 = .ok (.and 1 0) ∧
    decode 0b0100001110001000#16 = .ok (.bic 1 0) ∧
    decode 0b0100000001001000#16 = .ok (.eor 1 0) ∧
    decode 0b0010010111111111#16 = .ok (.mov1 5 255) ∧
    decode 0b0001110000001000#16 = .ok (.mov2 1 0) ∧
    decode 0b0100011011110111#16 = .ok (.mov3 14 15) ∧
    decode 0b0100001111001000#16 = .ok (.mvn 1 0) ∧
    decode 0b0100001100001000#16 = .ok (.orr 1 0) ∧
    decode 0b0100001000001000#16 = .ok (.tst 1 0) := by decide +kernel

theorem test_decode_shift :
    decode 0b0001000001001000#16 = .ok (.asr1 1 1 0) ∧
    decode 0b0100000100001000#16 = .ok (.asr2 1 0) ∧
    decode 0b0000000001001000#16 = .ok (.lsl1 1 1 0) ∧
    decode 0b0100000010001000#16 = .ok (.lsl2 1 0) ∧
    decode 0b0000100001001000#16 = .ok (.lsr1 1 1 0) ∧
    decode 0b0100000011001000#16 = .ok (.lsr2 1 0) ∧
    decode 0b0100000111001000#16 = .ok (.ror 1 0) := by decide +kernel

theorem test_decode_branch :
    decode 0b1101000100000110#16 = .ok (.b1 .ne 6) ∧
    decode 0b1110000000000110#16 = .ok (.b2 6) ∧
    decode 0b1111000000000000#16 = .ok (.blH10 0) ∧
    decode 0b1111100000000010#16 = .ok (.blH11 2) ∧
    decode 0b1110111101111110#16 = .ok (.blxH01 1918) ∧
    decode 0b0100011110011000#16 = .ok (.blx2 3 0) ∧
    decode 0b0100011101110000#16 = .ok (.bx 14 0) := by decide +kernel

theorem test_decode_system :
    decode 0b1011111000101010#16 = .ok (.bkpt 42) ∧
    decode 0b1101111100000101#16 = .ok (.swi 5) := by decide +kernel

theorem test_decode_multiple :
    decode 0b1100100101100001#16 = .ok (.ldmia 1 0x61) ∧
    decode 0b1100000010000110#16 = .ok (.stmia 0 0x86) ∧
    decode 0b1011010100010001#16 = .ok (.push true 0x11) ∧
    decode 0b1011110100010001#16 = .ok (.pop true 0x11) := by decide +kernel

theorem test_decode_load_store :
    decode 0b0110100001001000#16 = .ok (.ldr1 1 1 0) ∧
    decode 0b0101100010001000#16 = .ok (.ldr2 2 1 0) ∧
    decode 0b0100100000000010#16 = .ok (.ldr3 0 2) ∧
    decode 0b1001100000000001#16 = .ok (.ldr4 0 1) ∧
    decode 0b0111100011001000#16 = .ok (.ldrb1 3 1 0) ∧
    decode 0b0101110010001000#16 = .ok (.ldrb2 2 1 0) ∧
    decode 0b1000100001001000#16 = .ok (.ldrh1 1 1 0) ∧
    decode 0b0101101010001000#16 = .ok (.ldrh2 2 1 0) ∧
    decode 0b0101011010001000#16 = .ok (.ldrsb 2 1 0) ∧
    decode 0b0101111010001000#16 = .ok (.ldrsh 2 1 0) ∧
    decode 0b0110000001001000#16 = .ok (.str1 1 1 0) ∧
    decode 0b0101000010001000#16 = .ok (.str2 2 1 0) ∧
    decode 0b1001000000000001#16 = .ok (.str3 0 1) ∧
    decode 0b0111000011001000#16 = .ok (.strb1 3 1 0) ∧
    decode 0b0101010010001000#16 = .ok (.strb2 2 1 0) ∧
    decode 0b1000000001001000#16 = .ok (.strh1 1 1 0) ∧
    decode 0b0101001010001000#16 = .ok (.strh2 2 1 0) := by decide +kernel

/-! ## One step each, with the values of 95_test_vectors.md, section 3 -/

/-- ADC R1,R2 (95_test_vectors.md, section 3.1). -/
theorem test_adc_carry : gives
    (start 0x4151 0x100 [(1, 0xFFFFFFFF), (2, 0x0)] ⟨false, false, true, false⟩ [] {})
    (fun t => t.reg 1 == 0x0 && t.flags == ⟨false, true, true, false⟩ && t.pc == 0x102) := by decide

/-- ADC R1,R2 (95_test_vectors.md, section 3.1). -/
theorem test_adc_overflow : gives
    (start 0x4151 0x100 [(1, 0x7FFFFFFF), (2, 0x0)] ⟨false, false, true, false⟩ [] {})
    (fun t => t.reg 1 == 0x80000000 && t.flags == ⟨true, false, false, true⟩ && t.pc == 0x102) := by decide

/-- ADD R0,R1,#7 (95_test_vectors.md, section 3.1). -/
theorem test_add1_wraps : gives
    (start 0x1DC8 0x100 [(1, 0xFFFFFFF9)] ⟨false, false, false, false⟩ [] {})
    (fun t => t.reg 0 == 0x0 && t.flags == ⟨false, true, true, false⟩ && t.pc == 0x102) := by decide

/-- ADD R2,#255 (95_test_vectors.md, section 3.1). -/
theorem test_add2_overflow : gives
    (start 0x32FF 0x100 [(2, 0x7FFFFF01)] ⟨false, false, false, false⟩ [] {})
    (fun t => t.reg 2 == 0x80000000 && t.flags == ⟨true, false, false, true⟩ && t.pc == 0x102) := by decide

/-- ADD R2,#1 (95_test_vectors.md, section 3.1). -/
theorem test_add2_wraps : gives
    (start 0x3201 0x100 [(2, 0xFFFFFFFF)] ⟨false, false, false, false⟩ [] {})
    (fun t => t.reg 2 == 0x0 && t.flags == ⟨false, true, true, false⟩ && t.pc == 0x102) := by decide

/-- ADD R0,R1,R2 (95_test_vectors.md, section 3.1). -/
theorem test_add3_overflow : gives
    (start 0x1888 0x100 [(1, 0x7FFFFFFF), (2, 0x1)] ⟨false, false, false, false⟩ [] {})
    (fun t => t.reg 0 == 0x80000000 && t.flags == ⟨true, false, false, true⟩ && t.pc == 0x102) := by decide

/-- ADD R0,R1,R2 (95_test_vectors.md, section 3.1). -/
theorem test_add3_carry_and_overflow : gives
    (start 0x1888 0x100 [(1, 0x80000000), (2, 0x80000000)] ⟨false, false, false, false⟩ [] {})
    (fun t => t.reg 0 == 0x0 && t.flags == ⟨false, true, true, true⟩ && t.pc == 0x102) := by decide

/-- ADD R8,R1 (95_test_vectors.md, section 3.1). -/
theorem test_add4_writes_no_flag : gives
    (start 0x4488 0x100 [(1, 0x2), (8, 0xFFFFFFFF)] ⟨false, false, false, false⟩ [] {})
    (fun t => t.reg 8 == 0x1 && t.flags == ⟨false, false, false, false⟩ && t.pc == 0x102) := by decide

/-- ADD PC,R0 (95_test_vectors.md, section 3.1). -/
theorem test_add4_to_pc_drops_bit0 : gives
    (start 0x4487 0x100 [(0, 0x11)] ⟨false, false, false, false⟩ [] {})
    (fun t => t.flags == ⟨false, false, false, false⟩ && t.pc == 0x114) := by decide

/-- ADD R0,PC,#12 (95_test_vectors.md, section 3.1). -/
theorem test_add5_aligns_pc : gives
    (start 0xA003 0x102 [] ⟨false, false, false, false⟩ [] {})
    (fun t => t.reg 0 == 0x110 && t.flags == ⟨false, false, false, false⟩ && t.pc == 0x104) := by decide

/-- ADD R1,SP,#1020 (95_test_vectors.md, section 3.1). -/
theorem test_add6_wraps : gives
    (start 0xA9FF 0x100 [(13, 0xFFFFFF00)] ⟨false, false, false, false⟩ [] {})
    (fun t => t.reg 1 == 0x2FC && t.flags == ⟨false, false, false, false⟩ && t.pc == 0x102) := by decide

/-- ADD SP,#508 (95_test_vectors.md, section 3.1). -/
theorem test_add7_wraps : gives
    (start 0xB07F 0x100 [(13, 0xFFFFFF00)] ⟨true, true, true, true⟩ [] {})
    (fun t => t.reg 13 == 0xFC && t.flags == ⟨true, true, true, true⟩ && t.pc == 0x102) := by decide

/-- CMN R0,R1 (95_test_vectors.md, section 3.1). -/
theorem test_cmn_carry : gives
    (start 0x42C8 0x100 [(0, 0x1), (1, 0xFFFFFFFF)] ⟨false, false, false, false⟩ [] {})
    (fun t => t.flags == ⟨false, true, true, false⟩ && t.pc == 0x102) := by decide

/-- CMN R0,R1 (95_test_vectors.md, section 3.1). -/
theorem test_cmn_overflow : gives
    (start 0x42C8 0x100 [(0, 0x7FFFFFFF), (1, 0x7FFFFFFF)] ⟨false, false, false, false⟩ [] {})
    (fun t => t.flags == ⟨true, false, false, true⟩ && t.pc == 0x102) := by decide

/-- CMP R3,#255 (95_test_vectors.md, section 3.1). -/
theorem test_cmp1_borrow : gives
    (start 0x2BFF 0x100 [(3, 0x5)] ⟨false, false, false, false⟩ [] {})
    (fun t => t.flags == ⟨true, false, false, false⟩ && t.pc == 0x102) := by decide

/-- CMP R3,#1 (95_test_vectors.md, section 3.1). -/
theorem test_cmp1_overflow : gives
    (start 0x2B01 0x100 [(3, 0x80000000)] ⟨false, false, false, false⟩ [] {})
    (fun t => t.flags == ⟨false, false, true, true⟩ && t.pc == 0x102) := by decide

/-- CMP R0,R1 (95_test_vectors.md, section 3.1). -/
theorem test_cmp2_equal : gives
    (start 0x4288 0x100 [(0, 0x5), (1, 0x5)] ⟨false, false, false, false⟩ [] {})
    (fun t => t.flags == ⟨false, true, true, false⟩ && t.pc == 0x102) := by decide

/-- CMP R0,R1 (95_test_vectors.md, section 3.1). -/
theorem test_cmp2_overflow : gives
    (start 0x4288 0x100 [(0, 0x7FFFFFFF), (1, 0xFFFFFFFF)] ⟨false, false, false, false⟩ [] {})
    (fun t => t.flags == ⟨true, false, false, true⟩ && t.pc == 0x102) := by decide

/-- CMP R8,R1 (95_test_vectors.md, section 3.1). -/
theorem test_cmp3_high : gives
    (start 0x4588 0x100 [(1, 0x7), (8, 0x7)] ⟨false, false, false, false⟩ [] {})
    (fun t => t.flags == ⟨false, true, true, false⟩ && t.pc == 0x102) := by decide

/-- CMP R1,PC (95_test_vectors.md, section 3.1). -/
theorem test_cmp3_reads_pc : gives
    (start 0x4579 0x100 [(1, 0x104)] ⟨false, false, false, false⟩ [] {})
    (fun t => t.flags == ⟨false, true, true, false⟩ && t.pc == 0x102) := by decide

/-- MUL R0,R1 (95_test_vectors.md, section 3.1). -/
theorem test_mul_keeps_carry : gives
    (start 0x4348 0x100 [(0, 0x10000), (1, 0x10000)] ⟨true, false, true, true⟩ [] {})
    (fun t => t.reg 0 == 0x0 && t.flags == ⟨false, true, true, true⟩ && t.pc == 0x102) := by decide

/-- MUL R0,R1 (95_test_vectors.md, section 3.1). -/
theorem test_mul_truncates : gives
    (start 0x4348 0x100 [(0, 0x12345678), (1, 0x9ABCDEF0)] ⟨false, false, false, false⟩ [] {})
    (fun t => t.reg 0 == 0x242D2080 && t.flags == ⟨false, false, false, false⟩ && t.pc == 0x102) := by decide

/-- NEG R0,R1 (95_test_vectors.md, section 3.1). -/
theorem test_neg_one : gives
    (start 0x4248 0x100 [(0, 0x9), (1, 0x1)] ⟨false, false, false, false⟩ [] {})
    (fun t => t.reg 0 == 0xFFFFFFFF && t.flags == ⟨true, false, false, false⟩ && t.pc == 0x102) := by decide

/-- NEG R0,R1 (95_test_vectors.md, section 3.1). -/
theorem test_neg_lowest : gives
    (start 0x4248 0x100 [(0, 0x9), (1, 0x80000000)] ⟨false, false, false, false⟩ [] {})
    (fun t => t.reg 0 == 0x80000000 && t.flags == ⟨true, false, false, true⟩ && t.pc == 0x102) := by decide

/-- SBC R0,R1 (95_test_vectors.md, section 3.1). -/
theorem test_sbc_borrows : gives
    (start 0x4188 0x100 [(0, 0x5), (1, 0x3)] ⟨false, false, false, false⟩ [] {})
    (fun t => t.reg 0 == 0x1 && t.flags == ⟨false, false, true, false⟩ && t.pc == 0x102) := by decide

/-- SBC R0,R1 (95_test_vectors.md, section 3.1). -/
theorem test_sbc_overflow : gives
    (start 0x4188 0x100 [(0, 0x80000000), (1, 0x0)] ⟨false, false, false, false⟩ [] {})
    (fun t => t.reg 0 == 0x7FFFFFFF && t.flags == ⟨false, false, true, true⟩ && t.pc == 0x102) := by decide

/-- SUB R0,R1,#1 (95_test_vectors.md, section 3.1). -/
theorem test_sub1_borrow : gives
    (start 0x1E48 0x100 [(1, 0x0)] ⟨false, false, false, false⟩ [] {})
    (fun t => t.reg 0 == 0xFFFFFFFF && t.flags == ⟨true, false, false, false⟩ && t.pc == 0x102) := by decide

/-- SUB R2,#255 (95_test_vectors.md, section 3.1). -/
theorem test_sub2_overflow : gives
    (start 0x3AFF 0x100 [(2, 0x800000FE)] ⟨false, false, false, false⟩ [] {})
    (fun t => t.reg 2 == 0x7FFFFFFF && t.flags == ⟨false, false, true, true⟩ && t.pc == 0x102) := by decide

/-- SUB R0,R1,R2 (95_test_vectors.md, section 3.1). -/
theorem test_sub3_overflow : gives
    (start 0x1A88 0x100 [(1, 0x80000000), (2, 0x1)] ⟨false, false, false, false⟩ [] {})
    (fun t => t.reg 0 == 0x7FFFFFFF && t.flags == ⟨false, false, true, true⟩ && t.pc == 0x102) := by decide

/-- SUB SP,#508 (95_test_vectors.md, section 3.1). -/
theorem test_sub4_wraps : gives
    (start 0xB0FF 0x100 [(13, 0x100)] ⟨false, false, false, false⟩ [] {})
    (fun t => t.reg 13 == 0xFFFFFF04 && t.flags == ⟨false, false, false, false⟩ && t.pc == 0x102) := by decide

/-- AND R0,R1 (95_test_vectors.md, section 3.2). -/
theorem test_and_zero : gives
    (start 0x4008 0x100 [(0, 0xF0F0F0F0), (1, 0xF0F0F0F)] ⟨true, false, true, true⟩ [] {})
    (fun t => t.reg 0 == 0x0 && t.flags == ⟨false, true, true, true⟩ && t.pc == 0x102) := by decide

/-- BIC R0,R1 (95_test_vectors.md, section 3.2). -/
theorem test_bic_clears : gives
    (start 0x4388 0x100 [(0, 0xFFFFFFFF), (1, 0xFFFF)] ⟨false, false, false, false⟩ [] {})
    (fun t => t.reg 0 == 0xFFFF0000 && t.flags == ⟨true, false, false, false⟩ && t.pc == 0x102) := by decide

/-- EOR R0,R1 (95_test_vectors.md, section 3.2). -/
theorem test_eor_all : gives
    (start 0x4048 0x100 [(0, 0xAAAAAAAA), (1, 0xFFFFFFFF)] ⟨false, false, false, false⟩ [] {})
    (fun t => t.reg 0 == 0x55555555 && t.flags == ⟨false, false, false, false⟩ && t.pc == 0x102) := by decide

/-- MOV R5,#0 (95_test_vectors.md, section 3.2). -/
theorem test_mov1_zero : gives
    (start 0x2500 0x100 [] ⟨true, false, true, true⟩ [] {})
    (fun t => t.reg 5 == 0x0 && t.flags == ⟨false, true, true, true⟩ && t.pc == 0x102) := by decide

/-- MOV R0,R1 (=ADD R0,R1,#0) (95_test_vectors.md, section 3.2). -/
theorem test_mov2_clears_carry : gives
    (start 0x1C08 0x100 [(1, 0x80000000)] ⟨false, true, true, true⟩ [] {})
    (fun t => t.reg 0 == 0x80000000 && t.flags == ⟨true, false, false, false⟩ && t.pc == 0x102) := by decide

/-- MOV PC,LR (95_test_vectors.md, section 3.2). -/
theorem test_mov3_to_pc : gives
    (start 0x46F7 0x100 [(14, 0x205)] ⟨false, false, false, false⟩ [] {})
    (fun t => t.flags == ⟨false, false, false, false⟩ && t.pc == 0x204) := by decide

/-- MOV R0,PC (95_test_vectors.md, section 3.2). -/
theorem test_mov3_from_pc : gives
    (start 0x4678 0x100 [] ⟨false, false, false, false⟩ [] {})
    (fun t => t.reg 0 == 0x104 && t.flags == ⟨false, false, false, false⟩ && t.pc == 0x102) := by decide

/-- MVN R0,R1 (95_test_vectors.md, section 3.2). -/
theorem test_mvn_zero : gives
    (start 0x43C8 0x100 [(0, 0x0), (1, 0x0)] ⟨false, false, false, false⟩ [] {})
    (fun t => t.reg 0 == 0xFFFFFFFF && t.flags == ⟨true, false, false, false⟩ && t.pc == 0x102) := by decide

/-- ORR R0,R1 (95_test_vectors.md, section 3.2). -/
theorem test_orr_sign : gives
    (start 0x4308 0x100 [(0, 0x80000000), (1, 0x1)] ⟨false, false, false, false⟩ [] {})
    (fun t => t.reg 0 == 0x80000001 && t.flags == ⟨true, false, false, false⟩ && t.pc == 0x102) := by decide

/-- TST R0,R1 (95_test_vectors.md, section 3.2). -/
theorem test_tst_zero : gives
    (start 0x4208 0x100 [(0, 0xF0), (1, 0xF)] ⟨false, false, true, true⟩ [] {})
    (fun t => t.flags == ⟨false, true, true, true⟩ && t.pc == 0x102) := by decide

/-- LSL R0,R1,#0 (95_test_vectors.md, section 3.3). -/
theorem test_lsl1_zero_keeps_carry : gives
    (start 0x0008 0x100 [(1, 0x80000001)] ⟨false, false, true, false⟩ [] {})
    (fun t => t.reg 0 == 0x80000001 && t.flags == ⟨true, false, true, false⟩ && t.pc == 0x102) := by decide

/-- LSL R0,R1,#31 (95_test_vectors.md, section 3.3). -/
theorem test_lsl1_by_31 : gives
    (start 0x07C8 0x100 [(1, 0x3)] ⟨false, false, false, false⟩ [] {})
    (fun t => t.reg 0 == 0x80000000 && t.flags == ⟨true, false, true, false⟩ && t.pc == 0x102) := by decide

/-- LSR R0,R1,#32 (immed5=0) (95_test_vectors.md, section 3.3). -/
theorem test_lsr1_by_32 : gives
    (start 0x0808 0x100 [(1, 0x80000001)] ⟨false, false, false, false⟩ [] {})
    (fun t => t.reg 0 == 0x0 && t.flags == ⟨false, true, true, false⟩ && t.pc == 0x102) := by decide

/-- LSR R0,R1,#31 (95_test_vectors.md, section 3.3). -/
theorem test_lsr1_by_31 : gives
    (start 0x0FC8 0x100 [(1, 0x80000001)] ⟨false, false, true, false⟩ [] {})
    (fun t => t.reg 0 == 0x1 && t.flags == ⟨false, false, false, false⟩ && t.pc == 0x102) := by decide

/-- ASR R0,R1,#32 (immed5=0) (95_test_vectors.md, section 3.3). -/
theorem test_asr1_by_32 : gives
    (start 0x1008 0x100 [(1, 0x80000001)] ⟨false, false, false, false⟩ [] {})
    (fun t => t.reg 0 == 0xFFFFFFFF && t.flags == ⟨true, false, true, false⟩ && t.pc == 0x102) := by decide

/-- ASR R0,R1,#1 (95_test_vectors.md, section 3.3). -/
theorem test_asr1_sign : gives
    (start 0x1048 0x100 [(1, 0x80000001)] ⟨false, false, false, false⟩ [] {})
    (fun t => t.reg 0 == 0xC0000000 && t.flags == ⟨true, false, true, false⟩ && t.pc == 0x102) := by decide

/-- LSL R0,R1 (95_test_vectors.md, section 3.3). -/
theorem test_lsl2_by_32 : gives
    (start 0x4088 0x100 [(0, 0x80000001), (1, 0x20)] ⟨false, false, false, false⟩ [] {})
    (fun t => t.reg 0 == 0x0 && t.flags == ⟨false, true, true, false⟩ && t.pc == 0x102) := by decide

/-- LSL R0,R1 (95_test_vectors.md, section 3.3). -/
theorem test_lsl2_low_byte : gives
    (start 0x4088 0x100 [(0, 0x80000001), (1, 0x104)] ⟨false, false, false, false⟩ [] {})
    (fun t => t.reg 0 == 0x10 && t.flags == ⟨false, false, false, false⟩ && t.pc == 0x102) := by decide

/-- LSR R0,R1 (95_test_vectors.md, section 3.3). -/
theorem test_lsr2_by_32 : gives
    (start 0x40C8 0x100 [(0, 0x80000001), (1, 0x20)] ⟨false, false, false, false⟩ [] {})
    (fun t => t.reg 0 == 0x0 && t.flags == ⟨false, true, true, false⟩ && t.pc == 0x102) := by decide

/-- LSR R0,R1 (95_test_vectors.md, section 3.3). -/
theorem test_lsr2_low_byte : gives
    (start 0x40C8 0x100 [(0, 0x80000001), (1, 0x100)] ⟨false, false, false, false⟩ [] {})
    (fun t => t.flags == ⟨true, false, false, false⟩ && t.pc == 0x102) := by decide

/-- ASR R0,R1 (95_test_vectors.md, section 3.3). -/
theorem test_asr2_by_33 : gives
    (start 0x4108 0x100 [(0, 0x80000001), (1, 0x21)] ⟨false, false, false, false⟩ [] {})
    (fun t => t.reg 0 == 0xFFFFFFFF && t.flags == ⟨true, false, true, false⟩ && t.pc == 0x102) := by decide

/-- ASR R0,R1 (95_test_vectors.md, section 3.3). -/
theorem test_asr2_positive_by_32 : gives
    (start 0x4108 0x100 [(0, 0x40000000), (1, 0x20)] ⟨false, false, true, false⟩ [] {})
    (fun t => t.reg 0 == 0x0 && t.flags == ⟨false, true, false, false⟩ && t.pc == 0x102) := by decide

/-- ROR R0,R1 (95_test_vectors.md, section 3.3). -/
theorem test_ror_by_4 : gives
    (start 0x41C8 0x100 [(0, 0x80000012), (1, 0x4)] ⟨false, false, false, false⟩ [] {})
    (fun t => t.reg 0 == 0x28000001 && t.flags == ⟨false, false, false, false⟩ && t.pc == 0x102) := by decide

/-- ROR R0,R1 (95_test_vectors.md, section 3.3). -/
theorem test_ror_by_32 : gives
    (start 0x41C8 0x100 [(0, 0x80000012), (1, 0x20)] ⟨false, false, false, false⟩ [] {})
    (fun t => t.flags == ⟨true, false, true, false⟩ && t.pc == 0x102) := by decide

/-- BNE 0x110 (95_test_vectors.md, section 3.4). -/
theorem test_b1_taken : gives
    (start 0xD106 0x100 [] ⟨false, false, false, false⟩ [] {})
    (fun t => t.flags == ⟨false, false, false, false⟩ && t.pc == 0x110) := by decide

/-- BEQ -256 (95_test_vectors.md, section 3.4). -/
theorem test_b1_backward : gives
    (start 0xD080 0x100 [] ⟨false, true, false, false⟩ [] {})
    (fun t => t.flags == ⟨false, true, false, false⟩ && t.pc == 0x4) := by decide

/-- B +2046 (95_test_vectors.md, section 3.4). -/
theorem test_b2_forward : gives
    (start 0xE3FF 0x100 [] ⟨false, false, false, false⟩ [] {})
    (fun t => t.flags == ⟨false, false, false, false⟩ && t.pc == 0x902) := by decide

/-- B -2048 wraps (95_test_vectors.md, section 3.4). -/
theorem test_b2_wraps : gives
    (start 0xE400 0x100 [] ⟨false, false, false, false⟩ [] {})
    (fun t => t.flags == ⟨false, false, false, false⟩ && t.pc == 0xFFFFF904) := by decide

/-- BL hi=-1 (95_test_vectors.md, section 3.4). -/
theorem test_blH10_negative : gives
    (start 0xF7FF 0x1000 [] ⟨false, false, false, false⟩ [] {})
    (fun t => t.reg 14 == 0x4 && t.flags == ⟨false, false, false, false⟩ && t.pc == 0x1002) := by decide

/-- BL lo=0x7FF (95_test_vectors.md, section 3.4). -/
theorem test_blH11_zero_extends : gives
    (start 0xFFFF 0x100 [(14, 0x2000)] ⟨false, false, false, false⟩ [] {})
    (fun t => t.reg 14 == 0x103 && t.flags == ⟨false, false, false, false⟩ && t.pc == 0x2FFE) := by decide

/-- BL lo=0x7FF (BL_LOW_EXT=sign) (95_test_vectors.md, section 3.4). -/
theorem test_blH11_sign_extends : gives
    (start 0xFFFF 0x100 [(14, 0x2000)] ⟨false, false, false, false⟩ [] { blLowExt := .sign })
    (fun t => t.reg 14 == 0x103 && t.flags == ⟨false, false, false, false⟩ && t.pc == 0x1FFE) := by decide

/-- BLX lo=0x77E (95_test_vectors.md, section 3.4). -/
theorem test_blxH01_leaves_thumb : gives
    (start 0xEF7E 0x102 [(14, 0x104)] ⟨false, false, false, false⟩ [] {})
    (fun t => t.reg 14 == 0x105 && t.flags == ⟨false, false, false, false⟩ && t.pc == 0x1000 && !t.t) := by decide

/-- BLX lo=0x77D (95_test_vectors.md, section 3.4). -/
theorem test_blxH01_aligns : gives
    (start 0xEF7D 0x104 [(14, 0x106)] ⟨false, false, false, false⟩ [] {})
    (fun t => t.reg 14 == 0x107 && t.flags == ⟨false, false, false, false⟩ && t.pc == 0x1000 && !t.t) := by decide

/-- BLX R3 (95_test_vectors.md, section 3.4). -/
theorem test_blx2_thumb : gives
    (start 0x4798 0x100 [(3, 0x2001)] ⟨false, false, false, false⟩ [] {})
    (fun t => t.reg 14 == 0x103 && t.flags == ⟨false, false, false, false⟩ && t.pc == 0x2000 && t.t) := by decide

/-- BLX R3 (95_test_vectors.md, section 3.4). -/
theorem test_blx2_arm : gives
    (start 0x4798 0x100 [(3, 0x2000)] ⟨false, false, false, false⟩ [] {})
    (fun t => t.reg 14 == 0x103 && t.flags == ⟨false, false, false, false⟩ && t.pc == 0x2000 && !t.t) := by decide

/-- BX LR (95_test_vectors.md, section 3.4). -/
theorem test_bx_thumb : gives
    (start 0x4770 0x100 [(14, 0x205)] ⟨false, false, false, false⟩ [] {})
    (fun t => t.flags == ⟨false, false, false, false⟩ && t.pc == 0x204 && t.t) := by decide

/-- BX PC (95_test_vectors.md, section 3.4). -/
theorem test_bx_pc : gives
    (start 0x4778 0x102 [] ⟨false, false, false, false⟩ [] {})
    (fun t => t.flags == ⟨false, false, false, false⟩ && t.pc == 0x106 && !t.t) := by decide

/-- SWI 5 (95_test_vectors.md, section 3.5). -/
theorem test_swi_traps : gives
    (start 0xDF05 0x100 [] ⟨false, false, false, false⟩ [] {})
    (fun t => t.flags == ⟨false, false, false, false⟩ && t.pc == 0x100 &&
      t.trap == some ⟨.softwareInterrupt, 5, 0x00000102⟩) := by decide

/-- SWI 5 (HDL) (95_test_vectors.md, section 3.5). -/
theorem test_swi_halts_hdl : gives
    (start 0xDF05 0x100 [] ⟨false, false, false, false⟩ [] { profile := .hdl })
    (fun t => t.flags == ⟨false, false, false, false⟩ && t.pc == 0x102 && t.halted) := by decide

/-- BKPT 42 (95_test_vectors.md, section 3.5). -/
theorem test_bkpt_traps : gives
    (start 0xBE2A 0x100 [] ⟨false, false, false, false⟩ [] {})
    (fun t => t.flags == ⟨false, false, false, false⟩ && t.pc == 0x100 &&
      t.trap == some ⟨.breakpoint, 42, 0x00000102⟩) := by decide

/-- LDMIA R1!,{R0,R5,R6} (95_test_vectors.md, section 3.6). -/
theorem test_ldmia_ascends : gives
    (start 0xC961 0x100 [(1, 0x1000)] ⟨false, false, false, false⟩ [(0x1000, 0x11111111), (0x1004, 0x22222222), (0x1008, 0x33333333)] {})
    (fun t => t.reg 0 == 0x11111111 && t.reg 1 == 0x100C && t.reg 5 == 0x22222222 && t.reg 6 == 0x33333333 &&
      t.flags == ⟨false, false, false, false⟩ && t.pc == 0x102) := by decide

/-- STMIA R0!,{R1,R2,R7} (95_test_vectors.md, section 3.6). -/
theorem test_stmia_ascends : gives
    (start 0xC086 0x100 [(0, 0x2000), (1, 0xAAAAAAAA), (2, 0xBBBBBBBB), (7, 0xCCCCCCCC)] ⟨false, false, false, false⟩ [] {})
    (fun t => t.reg 0 == 0x200C && t.flags == ⟨false, false, false, false⟩ && t.pc == 0x102 &&
      t.peek 0x2000 .word == 0xAAAAAAAA && t.peek 0x2004 .word == 0xBBBBBBBB && t.peek 0x2008 .word == 0xCCCCCCCC) := by decide

/-- STMIA R0!,{R0,R1} (95_test_vectors.md, section 3.6). -/
theorem test_stmia_stores_old_base : gives
    (start 0xC003 0x100 [(0, 0x2000), (1, 0x55)] ⟨false, false, false, false⟩ [] {})
    (fun t => t.reg 0 == 0x2008 && t.flags == ⟨false, false, false, false⟩ && t.pc == 0x102 &&
      t.peek 0x2000 .word == 0x00002000 && t.peek 0x2004 .word == 0x00000055) := by decide

/-- PUSH {R0,R4,LR} (95_test_vectors.md, section 3.6). -/
theorem test_push_lr_highest : gives
    (start 0xB511 0x100 [(0, 0x10), (4, 0x44), (13, 0x3000), (14, 0x205)] ⟨false, false, false, false⟩ [] {})
    (fun t => t.reg 13 == 0x2FF4 && t.flags == ⟨false, false, false, false⟩ && t.pc == 0x102 &&
      t.peek 0x2FF4 .word == 0x00000010 && t.peek 0x2FF8 .word == 0x00000044 && t.peek 0x2FFC .word == 0x00000205) := by decide

/-- PUSH {R1,R3} (HDL) (95_test_vectors.md, section 3.6). -/
theorem test_push_hdl_single : gives
    (start 0xB40A 0x100 [(1, 0x11), (3, 0x33), (13, 0x3000)] ⟨false, false, false, false⟩ [] { profile := .hdl })
    (fun t => t.reg 13 == 0x2FFC && t.flags == ⟨false, false, false, false⟩ && t.pc == 0x102 &&
      t.peek 0x2FFC .word == 0x00000011) := by decide

/-- POP {R0,R4,PC} (95_test_vectors.md, section 3.6). -/
theorem test_pop_to_pc : gives
    (start 0xBD11 0x100 [(13, 0x2FF4)] ⟨false, false, false, false⟩ [(0x2FF4, 0x10), (0x2FF8, 0x44), (0x2FFC, 0x205)] {})
    (fun t => t.reg 0 == 0x10 && t.reg 4 == 0x44 && t.reg 13 == 0x3000 &&
      t.flags == ⟨false, false, false, false⟩ && t.pc == 0x204) := by decide

/-- POP {R1,R3} (HDL) (95_test_vectors.md, section 3.6). -/
theorem test_pop_hdl_single : gives
    (start 0xBC0A 0x100 [(3, 0x99), (13, 0x2FF8)] ⟨false, false, false, false⟩ [(0x2FF8, 0x22), (0x2FFC, 0x33)] { profile := .hdl })
    (fun t => t.reg 1 == 0x22 && t.reg 13 == 0x2FFC && t.flags == ⟨false, false, false, false⟩ &&
      t.pc == 0x102) := by decide

/-- LDR R0,[R1,#4*1] (95_test_vectors.md, section 3.7). -/
theorem test_ldr1_offset : gives
    (start 0x6848 0x100 [(1, 0x1FFC)] ⟨false, false, false, false⟩ [(0x2000, 0x80C3F1A5), (0x2004, 0x7F80)] {})
    (fun t => t.reg 0 == 0x80C3F1A5 && t.flags == ⟨false, false, false, false⟩ && t.pc == 0x102) := by decide

/-- LDR R1,[R1,#0] (Rd=Rn) (95_test_vectors.md, section 3.7). -/
theorem test_ldr1_base_is_destination : gives
    (start 0x6809 0x100 [(1, 0x2000)] ⟨false, false, false, false⟩ [(0x2000, 0x80C3F1A5), (0x2004, 0x7F80)] {})
    (fun t => t.reg 1 == 0x80C3F1A5 && t.flags == ⟨false, false, false, false⟩ && t.pc == 0x102) := by decide

/-- LDR Rn+Rm wraps (95_test_vectors.md, section 3.7). -/
theorem test_ldr2_wraps : gives
    (start 0x5888 0x100 [(1, 0xFFFFF000), (2, 0x3000)] ⟨false, false, false, false⟩ [(0x2000, 0x80C3F1A5), (0x2004, 0x7F80)] {})
    (fun t => t.reg 0 == 0x80C3F1A5 && t.flags == ⟨false, false, false, false⟩ && t.pc == 0x102) := by decide

/-- LDR R0,[PC,#4*2] pc=0x102 (95_test_vectors.md, section 3.7). -/
theorem test_ldr3_aligns_pc : gives
    (start 0x4802 0x102 [] ⟨false, false, false, false⟩ [(0x10C, 0x80C3F1A5)] {})
    (fun t => t.reg 0 == 0x80C3F1A5 && t.flags == ⟨false, false, false, false⟩ && t.pc == 0x104) := by decide

/-- LDR R0,[SP,#4*1] (95_test_vectors.md, section 3.7). -/
theorem test_ldr4_sp : gives
    (start 0x9801 0x100 [(13, 0x1FFC)] ⟨false, false, false, false⟩ [(0x2000, 0x80C3F1A5), (0x2004, 0x7F80)] {})
    (fun t => t.reg 0 == 0x80C3F1A5 && t.flags == ⟨false, false, false, false⟩ && t.pc == 0x102) := by decide

/-- LDRB R0,[R1,#3] (95_test_vectors.md, section 3.7). -/
theorem test_ldrb1_little : gives
    (start 0x78C8 0x100 [(1, 0x2000)] ⟨false, false, false, false⟩ [(0x2000, 0x80C3F1A5), (0x2004, 0x7F80)] {})
    (fun t => t.reg 0 == 0x80 && t.flags == ⟨false, false, false, false⟩ && t.pc == 0x102) := by decide

/-- LDRB R0,[R1,#3] (95_test_vectors.md, section 3.7). -/
theorem test_ldrb1_big : gives
    (start 0x78C8 0x100 [(1, 0x2000)] ⟨false, false, false, false⟩ [(0x2000, 0x80C3F1A5), (0x2004, 0x7F80)] { endian := .big })
    (fun t => t.reg 0 == 0xA5 && t.flags == ⟨false, false, false, false⟩ && t.pc == 0x102) := by decide

/-- LDRB R0,[R1,R2] (95_test_vectors.md, section 3.7). -/
theorem test_ldrb2_sum : gives
    (start 0x5C88 0x100 [(1, 0x2000), (2, 0x3)] ⟨false, false, false, false⟩ [(0x2000, 0x80C3F1A5), (0x2004, 0x7F80)] {})
    (fun t => t.reg 0 == 0x80 && t.flags == ⟨false, false, false, false⟩ && t.pc == 0x102) := by decide

/-- LDRH R0,[R1,#2*1] (95_test_vectors.md, section 3.7). -/
theorem test_ldrh1_little : gives
    (start 0x8848 0x100 [(1, 0x2000)] ⟨false, false, false, false⟩ [(0x2000, 0x80C3F1A5), (0x2004, 0x7F80)] {})
    (fun t => t.reg 0 == 0x80C3 && t.flags == ⟨false, false, false, false⟩ && t.pc == 0x102) := by decide

/-- LDRH R0,[R1,#2*1] (95_test_vectors.md, section 3.7). -/
theorem test_ldrh1_big : gives
    (start 0x8848 0x100 [(1, 0x2000)] ⟨false, false, false, false⟩ [(0x2000, 0x80C3F1A5), (0x2004, 0x7F80)] { endian := .big })
    (fun t => t.reg 0 == 0xF1A5 && t.flags == ⟨false, false, false, false⟩ && t.pc == 0x102) := by decide

/-- LDRH R0,[R1,R2] (95_test_vectors.md, section 3.7). -/
theorem test_ldrh2_sum : gives
    (start 0x5A88 0x100 [(1, 0x2000), (2, 0x2)] ⟨false, false, false, false⟩ [(0x2000, 0x80C3F1A5), (0x2004, 0x7F80)] {})
    (fun t => t.reg 0 == 0x80C3 && t.flags == ⟨false, false, false, false⟩ && t.pc == 0x102) := by decide

/-- LDRSB R0,[R1,R2] (95_test_vectors.md, section 3.7). -/
theorem test_ldrsb_negative : gives
    (start 0x5688 0x100 [(1, 0x2000), (2, 0x0)] ⟨false, false, false, false⟩ [(0x2000, 0x80C3F1A5), (0x2004, 0x7F80)] {})
    (fun t => t.reg 0 == 0xFFFFFFA5 && t.flags == ⟨false, false, false, false⟩ && t.pc == 0x102) := by decide

/-- LDRSH R0,[R1,R2] (95_test_vectors.md, section 3.7). -/
theorem test_ldrsh_negative : gives
    (start 0x5E88 0x100 [(1, 0x2000), (2, 0x0)] ⟨false, false, false, false⟩ [(0x2000, 0x80C3F1A5), (0x2004, 0x7F80)] {})
    (fun t => t.reg 0 == 0xFFFFF1A5 && t.flags == ⟨false, false, false, false⟩ && t.pc == 0x102) := by decide

/-- LDRSH R0,[R1,R2] (95_test_vectors.md, section 3.7). -/
theorem test_ldrsh_positive : gives
    (start 0x5E88 0x100 [(1, 0x2000), (2, 0x4)] ⟨false, false, false, false⟩ [(0x2000, 0x80C3F1A5), (0x2004, 0x7F80)] {})
    (fun t => t.reg 0 == 0x7F80 && t.flags == ⟨false, false, false, false⟩ && t.pc == 0x102) := by decide

/-- STR R0,[R1,#4*1] (95_test_vectors.md, section 3.7). -/
theorem test_str1_offset : gives
    (start 0x6048 0x100 [(0, 0x80C3F1A5), (1, 0x1FFC)] ⟨false, false, false, false⟩ [] {})
    (fun t => t.flags == ⟨false, false, false, false⟩ && t.pc == 0x102 &&
      t.peek 0x2000 .word == 0x80C3F1A5) := by decide

/-- STR R0,[R1,R2] (95_test_vectors.md, section 3.7). -/
theorem test_str2_sum : gives
    (start 0x5088 0x100 [(0, 0x80C3F1A5), (1, 0x1000), (2, 0x1004)] ⟨false, false, false, false⟩ [] {})
    (fun t => t.flags == ⟨false, false, false, false⟩ && t.pc == 0x102 &&
      t.peek 0x2004 .word == 0x80C3F1A5) := by decide

/-- STR R0,[SP,#4*1] (95_test_vectors.md, section 3.7). -/
theorem test_str3_sp : gives
    (start 0x9001 0x100 [(0, 0x80C3F1A5), (13, 0x1FFC)] ⟨false, false, false, false⟩ [] {})
    (fun t => t.flags == ⟨false, false, false, false⟩ && t.pc == 0x102 &&
      t.peek 0x2000 .word == 0x80C3F1A5) := by decide

/-- STRB R0,[R1,#3] (95_test_vectors.md, section 3.7). -/
theorem test_strb1_low_byte : gives
    (start 0x70C8 0x100 [(0, 0x80C3F1A5), (1, 0x2000)] ⟨false, false, false, false⟩ [] {})
    (fun t => t.flags == ⟨false, false, false, false⟩ && t.pc == 0x102 && t.peek 0x2003 .byte == 0xA5) := by decide

/-- STRB R0,[R1,R2] (95_test_vectors.md, section 3.7). -/
theorem test_strb2_sum : gives
    (start 0x5488 0x100 [(0, 0x80C3F1A5), (1, 0x2000), (2, 0x5)] ⟨false, false, false, false⟩ [] {})
    (fun t => t.flags == ⟨false, false, false, false⟩ && t.pc == 0x102 && t.peek 0x2005 .byte == 0xA5) := by decide

/-- STRH R0,[R1,#2*1] (95_test_vectors.md, section 3.7). -/
theorem test_strh1_little : gives
    (start 0x8048 0x100 [(0, 0x80C3F1A5), (1, 0x2000)] ⟨false, false, false, false⟩ [] {})
    (fun t => t.flags == ⟨false, false, false, false⟩ && t.pc == 0x102 && t.peek 0x2002 .half == 0xF1A5) := by decide

/-- STRH R0,[R1,#2*1] (95_test_vectors.md, section 3.7). -/
theorem test_strh1_big : gives
    (start 0x8048 0x100 [(0, 0x80C3F1A5), (1, 0x2000)] ⟨false, false, false, false⟩ [] { endian := .big })
    (fun t => t.flags == ⟨false, false, false, false⟩ && t.pc == 0x102 && t.peek 0x2002 .half == 0xF1A5) := by decide

/-- STRH R0,[R1,R2] (95_test_vectors.md, section 3.7). -/
theorem test_strh2_sum : gives
    (start 0x5288 0x100 [(0, 0x80C3F1A5), (1, 0x2000), (2, 0x6)] ⟨false, false, false, false⟩ [] {})
    (fun t => t.flags == ⟨false, false, false, false⟩ && t.pc == 0x102 && t.peek 0x2006 .half == 0xF1A5) := by decide

/-! ## Stops -/

theorem test_undefined_word :
    step (start 0xB100 0x100 [] {} [] {}) = .fault (.undefinedInstruction 0xB100#16) := rfl
theorem test_misaligned_load :
    step (start 0x6808 0x100 [(1, 0x2002)] {} [] {}) = .fault (.alignmentFault 0x2002 .word) := rfl
theorem test_absent_load :
    step (start 0x6808 0x100 [(1, 0x4000)] {} [] { admitted := [⟨0x100, 2⟩] }) =
      .fault (.memoryNotAdmitted 0x4000 .word) := rfl
theorem test_pc_wrap :
    step (start 0x2001 0xFFFFFFFE [] {} [] {}) = .refused (.unpredictable .pcWrap) := rfl

/-! ## Witnesses: a state and operands that meet the hypotheses of each obligation -/

theorem witness_DecodeReadsBackEveryEncodedInstruction :
    (Instr.add1 1 7 7).encodable = true ∧ (Instr.blH11 0x7FF).encodable = true := by decide

theorem witness_EncodeRebuildsEveryDecodedWord : decode 0xFFFF#16 = .ok (.blH11 0x7FF) := by decide

theorem witness_AtMostOneRowCoversAWord :
    (rowsAt 3).countP (·.covers 0x1C08#16) = 1 ∧ (rowsAt 27).countP (·.covers 0xDF00#16) = 1 := by decide

theorem witness_UnallocatedWordsAreUndefined :
    let s := start 0xBF00 0x100 [] {} [] {}
    s.halted = false ∧ s.t = true ∧ s.trap = none ∧ s.fetch = .ok 0xBF00#16 ∧
      decode 0xBF00#16 = .error (.unallocated 0xBF00#16) := ⟨rfl, rfl, rfl, rfl, rfl⟩

theorem witness_UnallocatedWordsAreUndefined_v4 :
    let s := start 0xBE2A 0x100 [] {} [] { tvariant := .v4 }
    s.halted = false ∧ s.t = true ∧ s.trap = none ∧ s.fetch = .ok 0xBE2A#16 ∧ s.cfg.tvariant = .v4 ∧
      (0xBE2A#16).extractLsb' 8 8 = 0b10111110#8 ∧ (0xEFFF#16).extractLsb' 11 5 = 0b11101#5 ∧
      (0x47FF#16).extractLsb' 7 9 = 0b010001111#9 := ⟨rfl, rfl, rfl, rfl, rfl, rfl, rfl, rfl⟩

theorem witness_StepRunsTheInstructionAtThePc :
    let s := start 0xE7FE 0xFFFFFFFE [] {} [] {}
    s.halted = false ∧ s.t = true ∧ s.trap = none ∧ s.pc.getLsbD 0 = false ∧ Admitted s s.pc.toNat 2 ∧
      (s.cfg.smc = .fault → s.pc.toNat ∉ s.stored ∧ s.pc.toNat + 1 ∉ s.stored) ∧
      decodeBytes s.cfg.endian (Memory.byteAt s.mem s.pc.toNat) (Memory.byteAt s.mem (s.pc.toNat + 1)) =
        .ok (.b2 0x7FE) :=
  ⟨rfl, rfl, rfl, by decide, admitted (by decide) (by decide), by decide, by decide⟩

theorem witness_StepChecksInOrder_halted : ({ hdl with halted := true } : State).halted = true := rfl
theorem witness_StepChecksInOrder_arm :
    let s : State := { State.reset with t := false }
    s.halted = false ∧ s.t = false := ⟨rfl, rfl⟩
theorem witness_StepChecksInOrder_trapped :
    let s : State := { State.reset with trap := some ⟨.breakpoint, 255, 2⟩ }
    s.halted = false ∧ s.t = true ∧ s.trap = some ⟨.breakpoint, 255, 2⟩ := ⟨rfl, rfl, rfl⟩
theorem witness_StepChecksInOrder_absent :
    let s := under { admitted := [⟨1, 1⟩] }
    s.halted = false ∧ s.t = true ∧ s.trap = none ∧ s.pc.getLsbD 0 = false ∧ ¬ Admitted s s.pc.toNat 2 :=
  ⟨rfl, rfl, rfl, by decide, fun h => absurd (h 0 (by decide) (by decide)) (by decide)⟩
theorem witness_StepChecksInOrder_stored :
    let s : State := { State.reset with stored := [1] }
    s.halted = false ∧ s.t = true ∧ s.trap = none ∧ s.pc.getLsbD 0 = false ∧ Admitted s s.pc.toNat 2 ∧
      s.cfg.smc = .fault ∧ s.pc.toNat + 1 ∈ s.stored :=
  ⟨rfl, rfl, rfl, by decide, admitted rfl (by decide), rfl, by decide⟩

/-- The reset state satisfies the invariant; the proof reads off its fields. -/
theorem reset_inv : State.reset.Inv where
  cfg_wf := by decide
  pc_even := by decide
  mem_wf := by decide
  mem_admitted := by decide
  stored_rising := by decide
  stored_admitted := by decide
  stored_coherent := by decide
  halted_hdl := by decide
  arm_arch := by decide
  trap_arch := by decide
  trap_ret := by intro e h; cases h

theorem witness_StepKeepsInvariant : State.reset.Inv ∧ ∃ t, step State.reset = .next t ∧ (t.pc == 2) = true :=
  ⟨reset_inv, exists_of_nextIs (p := fun t => t.pc == 2) (by decide)⟩

theorem witness_LaunchEstablishesInvariant :
    let cfg : Config := { admitted := [⟨4294967294, 2⟩] }
    let mem : Memory := [(4294967294, 0xDF#8), (4294967295, 1#8)]
    cfg.wf ∧ (0xFFFFFFFE#32).getLsbD 0 = false ∧ Memory.wf mem ∧ ∀ c ∈ mem, cfg.admits c.1 = true := by decide

theorem witness_NonBranchesAdvanceThePc :
    (∃ t, exec (.mov1 7 255) State.reset = .next t ∧ (t.pc == 2) = true) ∧ branchesIn State.reset (.mov1 7 255) = false ∧
      trapsIn State.reset (.mov1 7 255) = false :=
  ⟨exists_of_nextIs (p := fun t => t.pc == 2) (by decide), rfl, rfl⟩

theorem witness_NonBranchesAdvanceThePc_not_taken :
    (∃ t, exec (.b1 .eq 0x80) State.reset = .next t ∧ (t.pc == 2) = true) ∧
      branchesIn State.reset (.b1 .eq 0x80) = false ∧ trapsIn State.reset (.b1 .eq 0x80) = false :=
  ⟨exists_of_nextIs (p := fun t => t.pc == 2) (by decide), rfl, rfl⟩

theorem witness_NonBranchesAdvanceThePc_trap :
    (∃ t, exec (.swi 255) State.reset = .next t ∧ (t.pc == 0) = true) ∧ trapsIn State.reset (.swi 255) = true :=
  ⟨exists_of_nextIs (p := fun t => t.pc == 0) (by decide), rfl⟩

/-- The reset state at the top of the address space. -/
def top : State := { State.reset with pc := 0xFFFFFFFE }

theorem witness_SequentialExecutionDoesNotWrap :
    top.pc = topPc ∧ top.cfg.profile = .arch ∧ top.cfg.tvariant = .v5 ∧ plain (.blH10 0) = true ∧
      tablePasses .eq top.flags = false ∧ (14 : Reg) ≠ pcReg ∧ 8 ≤ (8 : Reg).val ∧
      ∃ t, exec (.b2 0x7FE) top = .next t ∧ (t.pc == top.pc) = true :=
  ⟨rfl, rfl, rfl, rfl, rfl, by decide, by decide, exists_of_nextIs (p := fun t => t.pc == top.pc) (by decide)⟩

theorem witness_SequentialExecutionDoesNotWrap_access :
    accessIn top (.str3 7 255) = some (0x33FC#32, .word) ∧ Accessible top 0x33FC#32 Width.word.bytes :=
  ⟨by decide, by decide, admitted rfl (by decide)⟩

theorem witness_SequentialExecutionDoesNotWrap_block :
    BlockOk top (top.reg (lo 7)) (size 0x81#8) ∧ (0x7F#8).getLsbD (7 : LowReg).val = false ∧
      rank 0x80#8 (7 : LowReg).val = 0 ∧ BlockOk top (top.reg spReg) (size 0xFF#8) ∧
      4 * (size 0xFF#8 + true.toNat) ≤ (top.reg spReg).toNat ∧
      BlockOk top (top.reg spReg - BitVec.ofNat 32 (4 * (size 0xFF#8 + true.toNat))) (size 0xFF#8 + true.toNat) :=
  ⟨⟨by decide, by decide, by decide, admitted rfl (by decide)⟩, by decide, by decide,
    ⟨by decide, by decide, by decide, admitted rfl (by decide)⟩, by decide,
    ⟨by decide, by decide, by decide, admitted rfl (by decide)⟩⟩

/-- An HDL state at the top, where POP with `R = 1`, PUSH and SWI are refused as they do not branch. -/
theorem witness_SequentialExecutionDoesNotWrap_hdl :
    let s : State := { hdl with pc := 0xFFFFFFFE }
    s.pc = topPc ∧ s.cfg.profile = .hdl ∧ (0x80#8) ≠ 0#8 ∧ BlockOk s (s.reg spReg) 1 ∧ 4 ≤ (s.reg spReg).toNat ∧
      BlockOk s (s.reg spReg - 4#32) 1 ∧
      exec (.pop true 0x80#8) s = .refused (.unpredictable .pcWrap) :=
  ⟨rfl, rfl, by decide, ⟨by decide, by decide, by decide, admitted rfl (by decide)⟩, by decide,
    ⟨by decide, by decide, by decide, admitted rfl (by decide)⟩, rfl⟩

theorem witness_OnlyExchangesWriteT :
    (∃ t, exec (.bx 15 0) State.reset = .next t ∧ (t.t != State.reset.t) = true) ∧
    (∃ t, exec (.blx2 0 0) State.reset = .next t ∧ (t.t != State.reset.t) = true) ∧
    (∃ t, exec (.blxH01 0x7FF) State.reset = .next t ∧ (t.t != State.reset.t) = true) :=
  ⟨exists_of_nextIs (p := fun t => t.t != State.reset.t) (by decide),
   exists_of_nextIs (p := fun t => t.t != State.reset.t) (by decide),
   exists_of_nextIs (p := fun t => t.t != State.reset.t) (by decide)⟩

theorem witness_HighRegistersChangeOnlyByName :
    (∃ t, exec (.add4 13 8) State.reset = .next t ∧ (t.reg 8 != State.reset.reg 8) = true) ∧
    (∃ t, exec (.mov3 13 12) State.reset = .next t ∧ (t.reg 12 != State.reset.reg 12) = true) :=
  ⟨exists_of_nextIs (p := fun t => t.reg 8 != State.reset.reg 8) (by decide),
   exists_of_nextIs (p := fun t => t.reg 12 != State.reset.reg 12) (by decide)⟩

theorem witness_LinkRegisterChangesOnlyByCalls :
    ∃ t, exec (.blH11 0) State.reset = .next t ∧ (t.reg lrReg != State.reset.reg lrReg) = true :=
  exists_of_nextIs (p := fun t => t.reg lrReg != State.reset.reg lrReg) (by decide)

theorem witness_FlagsAreWrittenAsTheTableSays :
    (∃ t, exec (.push true 0xFF) State.reset = .next t ∧ (t.flags == State.reset.flags) = true) ∧
    writesNZ (.push true 0xFF) = false ∧ writesC (.mul 0 0) = false ∧ writesV (.ror 0 0) = false :=
  ⟨exists_of_nextIs (p := fun t => t.flags == State.reset.flags) (by decide +kernel), rfl, rfl, rfl⟩

theorem witness_FlagsAreWrittenAsTheTableSays_shift :
    let s : State := { (State.reset.setReg 1 0x100) with flags := ⟨false, false, true, true⟩ }
    (∃ t, exec (.lsl2 1 0) s = .next t ∧ (t.flags.c == s.flags.c) = true) ∧ (s.reg (lo 1)).toNat % 256 = 0 :=
  ⟨exists_of_nextIs (p := fun t => t.flags.c == true) (by decide), by decide⟩

theorem witness_FlagsAreReadOnlyAsTheTableSays :
    let f : Flags := ⟨true, true, false, true⟩
    (∀ rm rd, Instr.mul 0 1 ≠ .adc rm rd ∧ Instr.mul 0 1 ≠ .sbc rm rd) ∧ (∀ c d, Instr.mul 0 1 ≠ .b1 c d) ∧
      f.c = State.reset.flags.c ∧ tablePasses .ge f = tablePasses .ge State.reset.flags :=
  ⟨fun _ _ => ⟨nofun, nofun⟩, fun _ _ => nofun, rfl, rfl⟩

/-- Both runs reach a next state, for an instruction that writes all four flags and a shift by a nonzero amount. -/
theorem witness_FlagsAreReadOnlyAsTheTableSays_runs :
    let s : State := { State.reset with flags := ⟨true, true, true, true⟩ }
    (∃ t, exec (.cmp2 0 1) State.reset = .next t ∧ t.flags.z = true) ∧
    (∃ t, exec (.cmp2 0 1) s = .next t ∧ t.flags.z = true) ∧
      writesNZ (.cmp2 0 1) = true ∧ writesC (.cmp2 0 1) = true ∧ writesV (.cmp2 0 1) = true ∧
      writesC (.lsl1 1 0 0) = true ∧ shiftsByZero s (.lsl1 1 0 0) = false :=
  ⟨exists_of_nextIs (p := fun t => t.flags.z) (by decide), exists_of_nextIs (p := fun t => t.flags.z) (by decide),
    rfl, rfl, rfl, rfl, rfl⟩

theorem witness_MemoryChangesOnlyByStoresInsideMem :
    ∃ t, exec (.strb2 0 0 0) (State.reset.setReg 0 0x7FFFFFFF) = .next t ∧
      (Memory.byteAt t.mem 0xFFFFFFFE != Memory.byteAt State.reset.mem 0xFFFFFFFE) = true :=
  exists_of_nextIs (p := fun t => Memory.byteAt t.mem 0xFFFFFFFE != Memory.byteAt State.reset.mem 0xFFFFFFFE)
    (by decide)

theorem witness_RegistersReadAsWritten : (14 : Reg) ≠ pcReg ∧ (0 : Reg) ≠ pcReg ∧ (0 : Reg) ≠ 14 := by decide

/-- The hypothesis `pc ≠ topPc` of the results of the data instructions, one instruction below the top and at reset. -/
theorem witness_pc_below_top : (0xFFFFFFFC#32) ≠ topPc ∧ State.reset.pc ≠ topPc := by decide

theorem witness_AddResults : State.reset.pc ≠ topPc ∧ (1 : BitVec 3) ≠ 0#3 := by decide
theorem witness_CarryArithmeticResults : State.reset.pc ≠ topPc := by decide
theorem witness_SubtractResults : State.reset.pc ≠ topPc := by decide
theorem witness_CompareResults : State.reset.pc ≠ topPc := by decide
theorem witness_AddressArithmeticResults : State.reset.pc ≠ topPc := by decide
theorem witness_MultiplyResults : State.reset.pc ≠ topPc := by decide
theorem witness_LogicalResults : State.reset.pc ≠ topPc := by decide
theorem witness_ImmediateShiftResults : State.reset.pc ≠ topPc := by decide
theorem witness_RegisterShiftResults : State.reset.pc ≠ topPc := by decide

theorem witness_ConditionsAfterCompareMeanTheirNames :
    ∃ t, exec (.cmp2 0 1) (State.reset.setReg 1 0x80000000) = .next t ∧ (t.flags.v == false) = true :=
  exists_of_nextIs (p := fun t => t.flags.v == false) (by decide)

theorem witness_HighCompareResults :
    hdl.cfg.profile = .hdl ∧ State.reset.cfg.profile = .arch ∧ (7 : Reg).val < 8 ∧ 8 ≤ (8 : Reg).val ∧
      8 ≤ (15 : Reg).val ∧ State.reset.pc ≠ topPc := by decide

theorem witness_HighAddResults :
    hdl.cfg.profile = .hdl ∧ State.reset.cfg.profile = .arch ∧ (14 : Reg) ≠ pcReg ∧ State.reset.pc ≠ topPc := by decide

theorem witness_HighMoveResults :
    hdl.cfg.profile = .hdl ∧ State.reset.cfg.profile = .arch ∧ (7 : Reg).val < 8 ∧ 8 ≤ (8 : Reg).val ∧
      (8 : Reg) ≠ pcReg ∧ (14 : Reg) ≠ pcReg ∧ State.reset.pc ≠ topPc := by decide

theorem witness_ConditionalBranchResults :
    (under { cond1110 := .undefined }).cfg.cond1110 = .undefined ∧ State.reset.cfg.cond1110 = .always ∧
      tablePasses .al State.reset.flags = true ∧ tablePasses .ne State.reset.flags = true ∧ Cond.ne ≠ .al ∧
      tablePasses .eq State.reset.flags = false ∧ State.reset.pc ≠ topPc := by decide

theorem witness_BranchWithLinkResults : State.reset.pc ≠ topPc := by decide

theorem witness_BranchWithLinkPairReachesItsTarget :
    let s := start 0xF000 0x100 [] {} [] {}
    let d : Word := 0x1000 - (s.pc + 4#32)
    s.cfg.pcReadOffset = 4#32 ∧ s.pc.getLsbD 0 = false ∧ d.getLsbD 0 = false ∧ -2 ^ 22 ≤ d.toInt ∧
      d.toInt ≤ 2 ^ 22 - 2 ∧ s.cfg.blLowExt = .zero ∧ 0x000#11 = d.extractLsb' 12 11 ∧ 0x77E#11 = d.extractLsb' 1 11 ∧
      ∃ t, exec (.blH10 0x000) s = .next t ∧
        (nextIs (exec (.blH11 0x77E) t) (fun u => u.pc == 0x1000) &&
          nextIs (exec (.blxH01 0x77E) t) (fun u => u.pc == 0x1000)) = true :=
  ⟨by decide, by decide, by decide, by decide, by decide, by decide, by decide, by decide,
    exists_of_nextIs (p := fun t => nextIs (exec (.blH11 0x77E) t) (fun u => u.pc == 0x1000) &&
      nextIs (exec (.blxH01 0x77E) t) (fun u => u.pc == 0x1000)) (by decide)⟩

/-- The offsets at both ends of the range. -/
theorem witness_BranchWithLinkPairReachesItsTarget_ends :
    (0xFFC00000#32).getLsbD 0 = false ∧ (0xFFC00000#32).toInt = -2 ^ 22 ∧
      (0x003FFFFE#32).getLsbD 0 = false ∧ (0x003FFFFE#32).toInt = 2 ^ 22 - 2 := by decide

theorem witness_BranchLinkExchangeImmediateResults :
    (under { tvariant := .v4 }).cfg.tvariant = .v4 ∧ hdl.cfg.tvariant = .v5 ∧ hdl.cfg.profile = .hdl ∧
      State.reset.cfg.tvariant = .v5 ∧ State.reset.cfg.profile = .arch ∧ State.reset.halted = false := by decide

theorem witness_BranchLinkExchangeRegisterResults :
    (under { tvariant := .v4 }).cfg.tvariant = .v4 ∧ hdl.cfg.tvariant = .v5 ∧ hdl.cfg.profile = .hdl ∧
      State.reset.cfg.tvariant = .v5 ∧ State.reset.cfg.profile = .arch ∧ (4 : BitVec 3) ≠ 0#3 ∧ (15 : Reg) ≠ lrReg ∧
      (State.reset.reg 15).getLsbD 0 = false ∧ State.reset.halted = false := by decide

theorem witness_BranchExchangeResults :
    hdl.cfg.profile = .hdl ∧ State.reset.cfg.profile = .arch ∧ (1 : BitVec 3) ≠ 0#3 ∧
      (State.reset.reg 14).getLsbD 0 = false ∧ State.reset.halted = false := by decide

theorem witness_BreakpointResults :
    (under { tvariant := .v4 }).cfg.tvariant = .v4 ∧ hdl.cfg.tvariant = .v5 ∧ hdl.cfg.profile = .hdl ∧
      State.reset.cfg.tvariant = .v5 ∧ State.reset.cfg.profile = .arch ∧ State.reset.halted = false ∧
      State.reset.t = true ∧ State.reset.pc ≠ topPc ∧ top.pc = topPc := by decide

theorem witness_SoftwareInterruptResults :
    hdl.cfg.profile = .hdl ∧ hdl.pc ≠ topPc ∧ State.reset.cfg.profile = .arch ∧ State.reset.halted = false ∧
      State.reset.t = true ∧ State.reset.pc ≠ topPc ∧ top.pc = topPc := by
  decide

theorem witness_ExitsAreTakenOnlyBySystemInstructions :
    (∃ t, exec (.swi 0) hdl = .next t ∧ (t.halted != hdl.halted) = true) ∧
    (∃ t, exec (.bkpt 255) State.reset = .next t ∧ (t.trap != State.reset.trap) = true) :=
  ⟨exists_of_nextIs (p := fun t => t.halted != hdl.halted) (by decide),
   exists_of_nextIs (p := fun t => t.trap != State.reset.trap) (by decide)⟩

theorem witness_TrapReturnResumesAfterTheTrap :
    State.reset.trap = none ∧ State.reset.cfg.profile = .arch ∧
      ∃ t, exec (.swi 255) State.reset = .next t ∧ (t.pc == 0) = true :=
  ⟨rfl, rfl, exists_of_nextIs (p := fun t => t.pc == 0) (by decide)⟩

/-- The reset state passes the checks of any aligned block that ends below 2^32. -/
theorem block {start : Word} {k : Nat} (h0 : k ≠ 0) (h1 : start.toNat % 4 = 0) (h2 : start.toNat + 4 * k ≤ 2 ^ 32) :
    BlockOk State.reset start k := ⟨h0, h1, h2, admitted rfl (by omega)⟩

theorem witness_ConstrainedEncodingsAreRefused :
    State.reset.cfg.profile = .arch ∧ State.reset.cfg.tvariant = .v5 ∧ (7 : Reg).val < 8 ∧ (1 : BitVec 3) ≠ 0#3 ∧
      State.reset.pc ≠ topPc ∧
      (0x80#8).getLsbD (7 : LowReg).val = true ∧ (0x81#8).getLsbD (7 : LowReg).val = true ∧
      rank 0x81#8 (7 : LowReg).val ≠ 0 := by decide

theorem witness_ConstrainedEncodingsAreRefused_pop :
    BlockOk State.reset (State.reset.reg spReg) (size 0#8 + 1) ∧
      State.reset.memRead (State.reset.reg spReg + BitVec.ofNat 32 (4 * size 0#8)) .word = .ok 0#32 ∧
      (0#32).getLsbD 0 = false :=
  ⟨block (by decide) (by decide) (by decide), rfl, by decide⟩

theorem witness_HdlProfileRefusesWhatItLacks : hdl.cfg.profile = .hdl ∧ hdl.cfg.tvariant = .v5 := by decide

theorem witness_MemReadValues :
    (0xFFFFFFFD#32).toNat % Width.half.bytes ≠ 0 ∧ (0xFFFFFFFE#32).toNat % Width.half.bytes = 0 ∧
      ¬ Admitted (under { admitted := [⟨0, 4294967295⟩] }) (0xFFFFFFFE#32).toNat Width.half.bytes ∧
      Accessible State.reset 0xFFFFFFFF#32 1 ∧ Accessible State.reset 0xFFFFFFFE#32 2 ∧
      Accessible State.reset 0xFFFFFFFC#32 4 :=
  ⟨by decide, by decide, fun h => absurd (h 4294967295 (by decide) (by decide)) (by decide),
    ⟨by decide, admitted rfl (by decide)⟩, ⟨by decide, admitted rfl (by decide)⟩, ⟨by decide, admitted rfl (by decide)⟩⟩

theorem witness_MemWriteBytes :
    (1#32).toNat % Width.word.bytes ≠ 0 ∧ (4#32).toNat % Width.word.bytes = 0 ∧
      ¬ Admitted (under { admitted := [⟨0, 7⟩] }) (4#32).toNat Width.word.bytes ∧
      Accessible State.reset 0xFFFFFFFC#32 Width.word.bytes :=
  ⟨by decide, by decide, fun h => absurd (h 7 (by decide) (by decide)) (by decide),
    ⟨by decide, admitted rfl (by decide)⟩⟩

theorem witness_LoadAfterStoreSeesTheStore :
    (∃ t, State.reset.memWrite 4#32 .word 0x12345678#32 = .ok t) ∧ Memory.wf State.reset.mem ∧
      (4#32).toNat + Width.word.bytes ≤ (8#32).toNat ∧ (3#32).toNat + Width.byte.bytes ≤ (4#32).toNat :=
  ⟨⟨_, rfl⟩, by decide, by decide, by decide⟩

/-- Accesses of each width at the last place they fit. -/
theorem witness_WordLoadResults :
    State.reset.pc ≠ topPc ∧ Accessible State.reset (State.reset.addrPc 255) Width.word.bytes ∧
      Accessible State.reset (State.reset.addrSp 255) Width.word.bytes ∧
      Accessible State.reset (State.reset.addrImmediate 7 31 4) Width.word.bytes ∧
      Accessible State.reset (State.reset.addrRegister 6 7) Width.word.bytes :=
  ⟨by decide, ⟨by decide, admitted rfl (by decide)⟩, ⟨by decide, admitted rfl (by decide)⟩,
    ⟨by decide, admitted rfl (by decide)⟩, ⟨by decide, admitted rfl (by decide)⟩⟩

theorem witness_NarrowLoadResults :
    State.reset.pc ≠ topPc ∧ Accessible State.reset (State.reset.addrImmediate 7 31 1) Width.byte.bytes ∧
      Accessible State.reset (State.reset.addrImmediate 7 31 2) Width.half.bytes ∧
      Accessible State.reset (State.reset.addrRegister 6 7) Width.half.bytes :=
  ⟨by decide, ⟨by decide, admitted rfl (by decide)⟩, ⟨by decide, admitted rfl (by decide)⟩,
    ⟨by decide, admitted rfl (by decide)⟩⟩

theorem witness_StoreResults :
    State.reset.pc ≠ topPc ∧ Accessible State.reset (State.reset.addrSp 255) Width.word.bytes ∧
      Accessible State.reset (State.reset.addrImmediate 7 31 4) Width.word.bytes ∧
      Accessible State.reset (State.reset.addrImmediate 7 31 1) Width.byte.bytes ∧
      Accessible State.reset (State.reset.addrImmediate 7 31 2) Width.half.bytes ∧
      Accessible State.reset (State.reset.addrRegister 6 7) Width.word.bytes :=
  ⟨by decide, ⟨by decide, admitted rfl (by decide)⟩, ⟨by decide, admitted rfl (by decide)⟩,
    ⟨by decide, admitted rfl (by decide)⟩, ⟨by decide, admitted rfl (by decide)⟩,
    ⟨by decide, admitted rfl (by decide)⟩⟩

/-- An access that is misaligned, and one that is aligned and outside `MEM`: the faults of the loads and stores. -/
theorem witness_WordLoadResults_faults :
    (let s := State.reset.setReg 1 1
     (s.addrImmediate 1 0 4).toNat % Width.word.bytes ≠ 0 ∧ (s.addrRegister 1 0).toNat % Width.half.bytes ≠ 0) ∧
    (let s := under { admitted := [] }
     (s.addrImmediate 1 31 1).toNat % Width.byte.bytes = 0 ∧
       ¬ Admitted s (s.addrImmediate 1 31 1).toNat Width.byte.bytes) :=
  ⟨⟨by decide, by decide⟩, by decide, fun h => absurd (h 31 (by decide) (by decide)) (by decide)⟩

/-- Blocks that are misaligned, that wrap, and that would go below address 0. -/
theorem witness_block_results_stops :
    State.reset.cfg.profile = .arch ∧ (0xFE#8) ≠ 0#8 ∧ (0xFE#8).getLsbD (0 : LowReg).val = false ∧
      rank 0xFF#8 (0 : LowReg).val = 0 ∧ size 0xFF#8 + true.toNat = 9 ∧
      ((State.reset.setReg 0 2).reg (lo 0)).toNat % 4 ≠ 0 ∧
      2 ^ 32 < ((State.reset.setReg 0 0xFFFFFFFC).reg (lo 0)).toNat + 4 * size 0xFE#8 ∧
      ((State.reset.setReg spReg 0x20).reg spReg).toNat < 4 * 9 ∧
      4 * 9 ≤ ((State.reset.setReg spReg 0x24).reg spReg).toNat := by decide

/-- A block whose second word is outside `MEM`. -/
theorem witness_block_results_absent :
    let s := under { admitted := [⟨0, 4⟩] }
    s.cfg.profile = .arch ∧ (s.reg (lo 0)).toNat % 4 = 0 ∧ (s.reg (lo 0)).toNat + 4 * size 0x06#8 ≤ 2 ^ 32 ∧
      1 < size 0x06#8 ∧ Admitted s (s.reg (lo 0)).toNat (4 * 1) ∧ ¬ Admitted s ((s.reg (lo 0)).toNat + 4 * 1) 4 := by
  refine ⟨rfl, by decide, by decide, by decide, ?_, fun h => absurd (h 4 (by decide) (by decide)) (by decide)⟩
  have all : ∀ x : Fin 4, (under { admitted := [⟨0, 4⟩] }).cfg.admits x.val = true := by decide
  exact fun x _ h => all ⟨x, h⟩

theorem witness_LoadMultipleResults :
    hdl.cfg.profile = .hdl ∧ State.reset.cfg.profile = .arch ∧ (0xFE#8).getLsbD (0 : LowReg).val = false ∧
      BlockOk State.reset (State.reset.reg (lo 0)) (size 0xFE#8) ∧ State.reset.pc ≠ topPc :=
  ⟨rfl, rfl, by decide, block (by decide) (by decide) (by decide), by decide⟩

theorem witness_StoreMultipleResults :
    hdl.cfg.profile = .hdl ∧ State.reset.cfg.profile = .arch ∧ (0xFF#8).getLsbD (0 : LowReg).val = true ∧
      rank 0xFF#8 (0 : LowReg).val = 0 ∧ rank 0xFF#8 (7 : LowReg).val ≠ 0 ∧
      BlockOk State.reset (State.reset.reg (lo 0)) (size 0xFF#8) ∧ State.reset.pc ≠ topPc :=
  ⟨rfl, rfl, by decide, by decide, by decide, block (by decide) (by decide) (by decide), by decide⟩

theorem witness_PopResults :
    let s := start 0xBD00 0x100 [] {} [(0x3000, 0x205)] {}
    s.cfg.profile = .arch ∧ BlockOk s (s.reg spReg) (size 1#8) ∧ s.pc ≠ topPc ∧
      BlockOk s (s.reg spReg) (size 0#8 + 1) ∧
      s.memRead (s.reg spReg + BitVec.ofNat 32 (4 * size 0#8)) .word = .ok 0x205#32 ∧
      (0x205#32).getLsbD 0 = true :=
  ⟨rfl, ⟨by decide, by decide, by decide, admitted rfl (by decide)⟩, by decide,
    ⟨by decide, by decide, by decide, admitted rfl (by decide)⟩, rfl, by decide⟩

theorem witness_PushResults :
    let s := State.reset.setReg spReg 0x24
    let k := size 0xFF#8 + true.toNat
    let start := s.reg spReg - BitVec.ofNat 32 (4 * k)
    s.cfg.profile = .arch ∧ 4 * k ≤ (s.reg spReg).toNat ∧ BlockOk s start k ∧ s.pc ≠ topPc :=
  ⟨rfl, by decide, ⟨by decide, by decide, by decide, admitted rfl (by decide)⟩, by decide⟩

theorem witness_PopResults_PushResults_hdl :
    hdl.cfg.profile = .hdl ∧ (0x80#8).getLsbD (7 : LowReg).val = true ∧ rank 0x80#8 (7 : LowReg).val = 0 ∧
      hdl.pc ≠ topPc ∧ BlockOk hdl (hdl.reg spReg) 1 ∧ 4 ≤ (hdl.reg spReg).toNat ∧
      BlockOk hdl (hdl.reg spReg - 4#32) 1 :=
  ⟨rfl, by decide, by decide, by decide, ⟨by decide, by decide, by decide, admitted rfl (by decide)⟩, by decide,
    ⟨by decide, by decide, by decide, admitted rfl (by decide)⟩⟩

/-- Empty transfers, and SP just below the four bytes a single word takes. -/
theorem witness_PopResults_PushResults_empty :
    size 0#8 + false.toNat = 0 ∧ (1#8) ≠ 0#8 ∧ ((hdl.setReg spReg 3).reg spReg).toNat < 4 ∧
      4 ≤ ((hdl.setReg spReg 4).reg spReg).toNat := by decide

theorem witness_PopUndoesPush :
    let s := State.reset.setReg lrReg 0x205
    s.cfg.profile = .arch ∧ ∃ t, exec (.push true 0x81) s = .next t ∧
      (nextIs (exec (.pop true 0x81) { t with regs := State.resetRegs.set 13 (t.reg spReg) })
        (fun u => u.pc == 0x204) && (State.resetRegs.set 13 (t.reg spReg))[13] == t.reg spReg) = true :=
  ⟨rfl, exists_of_nextIs (p := fun t =>
    nextIs (exec (.pop true 0x81) { t with regs := State.resetRegs.set 13 (t.reg spReg) })
      (fun u => u.pc == 0x204) && (State.resetRegs.set 13 (t.reg spReg))[13] == t.reg spReg) (by decide +kernel)⟩

end Sys2Proof.Tests
end

/-! The single memory access of 20_memory.md: its checks (R56, R57), the value a read composes and the bytes a write
stores, in both byte orders, and what a write leaves unchanged. -/

namespace Sys2Proof.Machine

open Sys2Proof Sys2Proof.Claims

/-! ## The checks of an access -/

theorem State.accessFault_eq_none_iff_accessible {s : State} {a : Word} {n : Width} :
    s.accessFault a n = none ↔ Accessible s a n.bytes := by
  rw [State.accessFault_eq_none, State.admitsAll_iff, Accessible, Admitted]

theorem State.accessFault_of_misaligned {s : State} {a : Word} {n : Width} (h : a.toNat % n.bytes ≠ 0) :
    s.accessFault a n = some (.alignmentFault a n) := if_pos h

theorem State.accessFault_of_not_admitted {s : State} {a : Word} {n : Width} (h : a.toNat % n.bytes = 0)
    (hm : ¬ Admitted s a.toNat n.bytes) : s.accessFault a n = some (.memoryNotAdmitted a n) := by
  have absent : ¬ s.admitsAll a n = true := fun hall => hm (State.admitsAll_iff.1 hall)
  rw [State.accessFault, if_neg (not_not.2 h), if_neg absent]

theorem State.memRead_of_fault {s : State} {a : Word} {n : Width} {f : Fault} (h : s.accessFault a n = some f) :
    s.memRead a n = .error f := by rw [State.memRead, h]

theorem State.memWrite_of_fault {s : State} {a v : Word} {n : Width} {f : Fault} (h : s.accessFault a n = some f) :
    s.memWrite a n v = .error f := by rw [State.memWrite, h]

theorem State.memRead_of_accessible {s : State} {a : Word} {n : Width} (h : Accessible s a n.bytes) :
    s.memRead a n = .ok (s.peek a n) :=
  State.memRead_eq_ok.2 ⟨State.accessFault_eq_none_iff_accessible.2 h, rfl⟩

theorem State.memWrite_of_accessible {s : State} {a : Word} {n : Width} (v : Word) (h : Accessible s a n.bytes) :
    s.memWrite a n v = .ok (s.poke a n v) :=
  State.memWrite_eq_ok.2 ⟨State.accessFault_eq_none_iff_accessible.2 h, rfl⟩

/-! ## The value of bytes in sequence -/

/-- A byte put below a bit vector is the low digit to base 256, as in `joinBytes`. -/
theorem toNat_append_byte {w : Nat} (hi : BitVec w) (b : Byte) : (hi ++ b).toNat = b.toNat + 256 * hi.toNat := by
  rw [BitVec.toNat_append, ← Nat.shiftLeft_add_eq_or_of_lt b.isLt, Nat.shiftLeft_eq]
  omega

theorem ofNat_joinBytes_singleton (b : Byte) : BitVec.ofNat 32 (joinBytes [b]) = b.setWidth 32 :=
  BitVec.ofNat_toNat 32 b

theorem ofNat_joinBytes_pair (b₀ b₁ : Byte) :
    BitVec.ofNat 32 (joinBytes [b₀, b₁]) = (b₁ ++ b₀).setWidth 32 := by
  rw [← BitVec.ofNat_toNat, toNat_append_byte]; rfl

theorem ofNat_joinBytes_quadruple (b₀ b₁ b₂ b₃ : Byte) :
    BitVec.ofNat 32 (joinBytes [b₀, b₁, b₂, b₃]) = b₃ ++ b₂ ++ b₁ ++ b₀ := by
  have digits : joinBytes [b₀, b₁, b₂, b₃] = (b₃ ++ b₂ ++ b₁ ++ b₀).toNat := by
    rw [toNat_append_byte, toNat_append_byte, toNat_append_byte]; rfl
  rw [digits, BitVec.ofNat_toNat]; exact BitVec.setWidth_eq _

/-! ## The value read -/

theorem State.peek_byte (s : State) (a : Word) :
    s.peek a .byte = (Memory.byteAt s.mem a.toNat).setWidth 32 := by
  unfold State.peek
  cases s.cfg.endian
  case little => exact ofNat_joinBytes_singleton _
  case big => exact ofNat_joinBytes_singleton _

theorem State.peek_half_little {s : State} (a : Word) (h : s.cfg.endian = .little) :
    s.peek a .half = (Memory.byteAt s.mem (a.toNat + 1) ++ Memory.byteAt s.mem a.toNat).setWidth 32 := by
  rw [State.peek, h]; exact ofNat_joinBytes_pair ..

theorem State.peek_half_big {s : State} (a : Word) (h : s.cfg.endian = .big) :
    s.peek a .half = (Memory.byteAt s.mem a.toNat ++ Memory.byteAt s.mem (a.toNat + 1)).setWidth 32 := by
  rw [State.peek, h]; exact ofNat_joinBytes_pair ..

theorem State.peek_word_little {s : State} (a : Word) (h : s.cfg.endian = .little) :
    s.peek a .word = Memory.byteAt s.mem (a.toNat + 3) ++ Memory.byteAt s.mem (a.toNat + 2) ++
      Memory.byteAt s.mem (a.toNat + 1) ++ Memory.byteAt s.mem a.toNat := by
  rw [State.peek, h]; exact ofNat_joinBytes_quadruple ..

theorem State.peek_word_big {s : State} (a : Word) (h : s.cfg.endian = .big) :
    s.peek a .word = Memory.byteAt s.mem a.toNat ++ Memory.byteAt s.mem (a.toNat + 1) ++
      Memory.byteAt s.mem (a.toNat + 2) ++ Memory.byteAt s.mem (a.toNat + 3) := by
  rw [State.peek, h]; exact ofNat_joinBytes_quadruple ..

/-! ## The bytes stored -/

theorem State.poke_byteAt_little {s : State} (a v : Word) {n : Width} {i : Nat} (hi : i < n.bytes)
    (h : s.cfg.endian = .little) :
    Memory.byteAt (s.poke a n v).mem (a.toNat + i) = v.extractLsb' (8 * i) 8 := by
  rw [State.poke, Memory.byteAt_setBytes_of_mem _ _ _ _ (by simpa using hi)]
  simp only [h, splitOrdered, getElem_splitBytes]

theorem State.poke_byteAt_big {s : State} (a v : Word) {n : Width} {i : Nat} (hi : i < n.bytes)
    (h : s.cfg.endian = .big) :
    Memory.byteAt (s.poke a n v).mem (a.toNat + i) = v.extractLsb' (8 * (n.bytes - 1 - i)) 8 := by
  rw [State.poke, Memory.byteAt_setBytes_of_mem _ _ _ _ (by simpa using hi)]
  simp only [h, splitOrdered, List.getElem_reverse, length_splitBytes, getElem_splitBytes]

/-- The frame of a store: of memory and the stored set it changes its own addresses only. Flags and pc, which
`KeepsBut` leaves open, are `State.poke_flags` and `State.poke_pc`. -/
theorem State.poke_keepsBut (s : State) (a v : Word) (n : Width) :
    KeepsBut s (s.poke a n v) [] a.toNat n.bytes :=
  ⟨fun _ _ _ => State.poke_reg .., State.poke_t .., ⟨State.poke_halted .., State.poke_trap .., State.poke_cfg ..⟩,
    State.poke_byteAt_of_not_mem s a v n, fun h _ => State.mem_poke_stored h, State.poke_stored_coherent⟩

/-! ## The obligations -/

/-- Settles O46: the first failing check decides the fault, and the value is the bytes composed in the machine's order. -/
theorem memReadValues : Obligations.MemReadValues := by
  intro s a b
  refine ⟨fun n h => ?misaligned, fun n h hm => ?absent, fun h => ?byte, fun h => ?half, fun h => ?word⟩
  case misaligned => exact State.memRead_of_fault (State.accessFault_of_misaligned h)
  case absent => exact State.memRead_of_fault (State.accessFault_of_not_admitted h hm)
  case byte => rw [State.memRead_of_accessible (n := .byte) h, State.peek_byte]; rfl
  case half =>
    rw [State.memRead_of_accessible (n := .half) h]
    cases he : s.cfg.endian
    case little => rw [State.peek_half_little a he]; rfl
    case big => rw [State.peek_half_big a he]; rfl
  case word =>
    rw [State.memRead_of_accessible (n := .word) h]
    cases he : s.cfg.endian
    case little => rw [State.peek_word_little a he]; rfl
    case big => rw [State.peek_word_big a he]; rfl

/-- Settles O47: the checks precede the first byte, and a write that passes them is `poke`, with its bytes in the
machine's order and its frame. -/
theorem memWriteBytes : Obligations.MemWriteBytes := by
  intro s a v n
  refine ⟨fun h => ?misaligned, fun h hm => ?absent, fun h => ?stored⟩
  case misaligned => exact State.memWrite_of_fault (State.accessFault_of_misaligned h)
  case absent => exact State.memWrite_of_fault (State.accessFault_of_not_admitted h hm)
  case stored =>
    refine ⟨s.poke a n v, State.memWrite_of_accessible v h, fun i hi => ?_, State.poke_flags .., State.poke_pc ..,
      State.poke_keepsBut s a v n⟩
    cases he : s.cfg.endian
    case little => exact State.poke_byteAt_little a v hi he
    case big => exact State.poke_byteAt_big a v hi he

end Sys2Proof.Machine

/-! The words without an instruction (30_encoding.md R98): which words the rows of the top-level map leave out, and what
a step does on them, and with `TVARIANT = 4` on the words of BLX_H01, BKPT and BLX_2. -/

namespace Sys2Proof

open Laws

/-! ## Fields of a word -/

/-- Masking off all but the `m` top bits leaves their field in place. -/
theorem and_topMask {m n : Nat} (w : BitVec (m + n)) :
    w &&& (BitVec.allOnes m ++ 0#n) = w.extractLsb' n m ++ 0#n := by
  conv_lhs => rw [← BitVec.extractLsb'_append_extractLsb' (x := w)]
  exact EncodesInRow.fixed1 _ _

theorem and_0xF800 (w : InstrWord) : w &&& 0xF800#16 = w.extractLsb' 11 5 ++ 0#11 :=
  and_topMask (m := 5) (n := 11) w

theorem and_0xFF00 (w : InstrWord) : w &&& 0xFF00#16 = w.extractLsb' 12 4 ++ w.extractLsb' 8 4 ++ 0#8 := by
  rw [BitVec.extractLsb'_append_extractLsb'_eq_extractLsb' (by rfl)]
  exact and_topMask (m := 8) (n := 8) w

theorem and_0xFFC0 (w : InstrWord) : w &&& 0xFFC0#16 = w.extractLsb' 11 5 ++ w.extractLsb' 6 5 ++ 0#6 := by
  rw [BitVec.extractLsb'_append_extractLsb'_eq_extractLsb' (by rfl)]
  exact and_topMask (m := 10) (n := 6) w

theorem extractLsb'_extractLsb' {n : Nat} (v : BitVec n) {lsb len i k : Nat} (h : i + k ≤ len) :
    (v.extractLsb' lsb len).extractLsb' i k = v.extractLsb' (lsb + i) k := by
  ext j hj
  simp only [BitVec.getElem_extractLsb', BitVec.getLsbD_extractLsb', Nat.add_assoc,
    show i + j < len by omega, decide_true, Bool.true_and]

/-! ## What it takes for a row to cover a word -/

theorem Row.covers_iff {r : Row} {w : InstrWord} :
    r.covers w = true ↔ w &&& r.mask = r.pattern ∧ ∀ e ∈ r.exclude, w &&& e.1 ≠ e.2 := by
  simp [Row.covers]

/-- In every field of a covered word the row's fixed bits are as the row says. -/
theorem Row.field_of_covers {r : Row} {w : InstrWord} (h : r.covers w = true) (lsb len : Nat) :
    w.extractLsb' lsb len &&& r.mask.extractLsb' lsb len = r.pattern.extractLsb' lsb len := by
  rw [← BitVec.extractLsb'_and, (Row.covers_iff.1 h).1]

/-- A row whose fixed bits are just [15:11] covers every word that has them. -/
theorem Row.covers_of_top {r : Row} {w : InstrWord} (hmask : r.mask = 0xF800#16)
    (hpattern : r.pattern = w.extractLsb' 11 5 ++ 0#11) (hexclude : r.exclude = []) : r.covers w = true := by
  rw [Row.covers_iff, hmask, hpattern, hexclude]
  exact ⟨and_0xF800 w, fun e he => absurd he List.not_mem_nil⟩

/-- No row looks below bit 6. -/
theorem rowsAt_masks : ∀ a : BitVec 5, (rowsAt a.toNat).all (fun r =>
    r.mask &&& 0xFFC0#16 == r.mask && r.exclude.all (fun e => e.1 &&& 0xFFC0#16 == e.1)) = true := by decide

/-- So the ten top bits of a word decide whether a row covers it. -/
theorem covers_eq_covers_head {r : Row} {a : BitVec 5} (hr : r ∈ rowsAt a.toNat) (w : InstrWord) :
    r.covers w = r.covers (w.extractLsb' 11 5 ++ w.extractLsb' 6 5 ++ 0#6) := by
  have masks := List.all_eq_true.1 (rowsAt_masks a) r hr
  simp only [Bool.and_eq_true, beq_iff_eq, List.all_eq_true] at masks
  obtain ⟨hmask, hexclude⟩ := masks
  have head : ∀ {m : InstrWord}, m &&& 0xFFC0#16 = m → w &&& 0xFFC0#16 &&& m = w &&& m := by
    intro m hm
    rw [BitVec.and_assoc, BitVec.and_comm _ m, hm]
  rw [← and_0xFFC0, Bool.eq_iff_iff, Row.covers_iff, Row.covers_iff, head hmask]
  exact and_congr_right' (forall₂_congr fun e he => by rw [head (hexclude e he)])

/-! ## Every covered word is read -/

theorem ofCode_isSome_iff : ∀ c : BitVec 4, (Cond.ofCode c).isSome = true ↔ c ≠ 0b1111#4 := by decide

/-- The condition code 1111 is excluded from B_1, so its row reads every word it covers (30_encoding.md R87, R101). -/
theorem conditionalRow_build_isSome {w : InstrWord} (h : conditionalRow.covers w = true) :
    (conditionalRow.build w).isSome = true := by
  have fixed : w.extractLsb' 12 4 = 0b1101#4 := by
    rw [← BitVec.and_allOnes (x := w.extractLsb' 12 4)]
    exact Row.field_of_covers h 12 4
  have notSwi : w &&& 0xFF00#16 ≠ 0xDF00#16 := (Row.covers_iff.1 h).2 _ List.mem_cons_self
  change (readBC .b1 w).isSome = true
  rw [readBC, Option.isSome_map, ofCode_isSome_iff]
  intro code
  rw [and_0xFF00, fixed, code] at notSwi
  exact notSwi rfl

/-- Every other row reads whatever word it is given. -/
theorem rowsAt_build_isSome {k : Nat} {w : InstrWord} :
    ∀ r ∈ rowsAt k, r.covers w = true → (r.build w).isSome = true := by
  unfold rowsAt
  split
  case h_27 => simpa using conditionalRow_build_isSome
  case h_28 => simpa [swiRow, readI8] using conditionalRow_build_isSome
  all_goals simp [addSubRows, aluRows, highRows, storeOffsetRows, loadOffsetRows, stackRows, popRows, readSHI, readRRR,
    readAS3I, readRI8, readALU, readHI, readBXF, readSP7, readPP, readI8, readB11]

/-- An instruction is read by a row of the word's group that covers the word. -/
theorem exists_row_of_decode {w : InstrWord} {i : Instr} (h : decode w = .ok i) :
    ∃ r ∈ rowsAt (w.extractLsb' 11 5).toNat, r.covers w = true ∧ r.build w = some i := by
  unfold decode at h
  split at h
  case h_1 r hr =>
    split at h
    · cases h
      exact ⟨r, List.mem_of_find?_eq_some hr, List.find?_some (p := fun q : Row => q.covers w) hr, ‹_›⟩
    · cases h
  case h_2 => cases h

theorem exists_decode_error_iff {w : InstrWord} :
    (∃ e, decode w = .error e) ↔ (rowsAt (w.extractLsb' 11 5).toNat).any (·.covers w) = false := by
  rw [Bool.eq_false_iff, ne_eq, List.any_eq_true]
  constructor
  · rintro ⟨e, he⟩ ⟨r, hr, hcovers⟩
    unfold decode at he
    split at he
    case h_1 q hq =>
      obtain ⟨i, hi⟩ := Option.isSome_iff_exists.1
        (rowsAt_build_isSome q (List.mem_of_find?_eq_some hq) (List.find?_some (p := fun q : Row => q.covers w) hq))
      simp [hi] at he
    case h_2 hnone => exact List.find?_eq_none.1 hnone r hr hcovers
  · intro uncovered
    cases hd : decode w with
    | error e => exact ⟨e, rfl⟩
    | ok i =>
      obtain ⟨r, hr, hcovers, -⟩ := exists_row_of_decode hd
      exact absurd ⟨r, hr, hcovers⟩ uncovered

/-! ## The words no row covers -/

/-- The values of [11:8] that the miscellaneous group leaves unallocated (30_encoding.md R98). -/
def unallocatedOps : List (BitVec 4) :=
  [0b0001#4, 0b0010#4, 0b0011#4, 0b0110#4, 0b0111#4, 0b1000#4, 0b1001#4, 0b1010#4, 0b1011#4, 0b1111#4]

/-- The two halves of the miscellaneous group, by [15:11] (30_encoding.md R93). -/
def miscTops : List (BitVec 5) := [0b10110#5, 0b10111#5]

/-- The other values of [15:11] that stand for more than one row (30_encoding.md R89 to R92, R97). -/
def sharedTops : List (BitVec 5) := [0b00011#5, 0b01000#5, 0b01010#5, 0b01011#5, 0b11010#5, 0b11011#5]

theorem mem_miscTops_iff : ∀ a : BitVec 5, a ∈ miscTops ↔ a.extractLsb' 1 4 = 0b1011#4 := by decide

theorem rowsAt_of_ownRow : ∀ a : BitVec 5, a ∉ miscTops → a ∉ sharedTops → (rowsAt a.toNat).any (fun r =>
    r.mask == 0xF800#16 && r.pattern == a ++ 0#11 && r.exclude == []) = true := by decide

theorem sharedTops_covered : ∀ a ∈ sharedTops, ∀ b : BitVec 5,
    (rowsAt a.toNat).any (·.covers (a ++ b ++ 0#6)) = true := by decide

theorem miscTops_uncovered_iff : ∀ a ∈ miscTops, ∀ b : BitVec 5,
    (rowsAt a.toNat).any (·.covers (a ++ b ++ 0#6)) = false ↔ (a ++ b).extractLsb' 2 4 ∈ unallocatedOps := by decide

theorem any_covers_eq_head (w : InstrWord) :
    (rowsAt (w.extractLsb' 11 5).toNat).any (·.covers w) =
      (rowsAt (w.extractLsb' 11 5).toNat).any (·.covers (w.extractLsb' 11 5 ++ w.extractLsb' 6 5 ++ 0#6)) := by
  rw [Bool.eq_iff_iff, List.any_eq_true, List.any_eq_true]
  exact exists_congr fun r => and_congr_right fun hr => by rw [covers_eq_covers_head hr w]

/-- Outside the miscellaneous group some row covers every word. -/
theorem any_covers_of_not_misc {w : InstrWord} (h : w.extractLsb' 11 5 ∉ miscTops) :
    (rowsAt (w.extractLsb' 11 5).toNat).any (·.covers w) = true := by
  by_cases shared : w.extractLsb' 11 5 ∈ sharedTops
  case pos => rw [any_covers_eq_head]; exact sharedTops_covered _ shared _
  case neg =>
    obtain ⟨r, hr, row⟩ := List.any_eq_true.1 (rowsAt_of_ownRow _ h shared)
    simp only [Bool.and_eq_true, beq_iff_eq] at row
    obtain ⟨⟨hmask, hpattern⟩, hexclude⟩ := row
    exact List.any_eq_true.2 ⟨r, hr, Row.covers_of_top hmask hpattern hexclude⟩

/-- 30_encoding.md R98: the decoder rejects the words of the miscellaneous group with the listed [11:8] and no other. -/
theorem exists_decode_error_iff_unallocated (w : InstrWord) :
    (∃ e, decode w = .error e) ↔ w.extractLsb' 12 4 = 0b1011#4 ∧ w.extractLsb' 8 4 ∈ unallocatedOps := by
  have group : w.extractLsb' 12 4 = (w.extractLsb' 11 5).extractLsb' 1 4 :=
    (extractLsb'_extractLsb' w (lsb := 11) (len := 5) (i := 1) (by decide)).symm
  have op : w.extractLsb' 8 4 = (w.extractLsb' 11 5 ++ w.extractLsb' 6 5).extractLsb' 2 4 := by
    rw [BitVec.extractLsb'_append_extractLsb'_eq_extractLsb' (by rfl)]
    exact (extractLsb'_extractLsb' w (lsb := 6) (len := 10) (i := 2) (by decide)).symm
  rw [exists_decode_error_iff, group, ← mem_miscTops_iff, op]
  by_cases misc : w.extractLsb' 11 5 ∈ miscTops
  case pos => rw [any_covers_eq_head, miscTops_uncovered_iff _ misc]; exact (and_iff_right misc).symm
  case neg => rw [any_covers_of_not_misc misc]; exact iff_of_false Bool.noConfusion fun h => misc h.1

/-! ## The words of BLX_H01, BKPT and BLX_2 -/

/-- The rows with top bits `top` whose fixed bits agree with the value `v` of the field of `len` bits at `lsb`. -/
def rowsWith (top : BitVec 5) (lsb len : Nat) (v : BitVec len) : List Row :=
  (rowsAt top.toNat).filter (fun r => v &&& r.mask.extractLsb' lsb len == r.pattern.extractLsb' lsb len)

theorem exists_rowWith_of_decode {w : InstrWord} {i : Instr} {top : BitVec 5} {lsb len : Nat} {v : BitVec len}
    (htop : w.extractLsb' 11 5 = top) (hv : w.extractLsb' lsb len = v) (h : decode w = .ok i) :
    ∃ r ∈ rowsWith top lsb len v, r.build w = some i := by
  subst htop hv
  obtain ⟨r, hr, hcovers, hbuild⟩ := exists_row_of_decode h
  exact ⟨r, List.mem_filter.2 ⟨hr, beq_iff_eq.2 (Row.field_of_covers hcovers lsb len)⟩, hbuild⟩

theorem rowsWith_blxH01 : (rowsWith 0b11101#5 11 5 0b11101#5).map Row.build = [readB11 .blxH01] := rfl
theorem rowsWith_bkpt : (rowsWith 0b10111#5 8 8 0b10111110#8).map Row.build = [readI8 .bkpt] := rfl
theorem rowsWith_blx2 : (rowsWith 0b01000#5 7 9 0b010001111#9).map Row.build = [readBXF .blx2] := rfl

/-- Where one row agrees with a field of the word, that row reads it. -/
theorem build_of_decode {w : InstrWord} {i : Instr} {top : BitVec 5} {lsb len : Nat} {v : BitVec len}
    {build : InstrWord → Option Instr} (hrows : (rowsWith top lsb len v).map Row.build = [build])
    (htop : w.extractLsb' 11 5 = top) (hv : w.extractLsb' lsb len = v) (h : decode w = .ok i) : build w = some i := by
  obtain ⟨r, hr, hbuild⟩ := exists_rowWith_of_decode htop hv h
  have : r.build ∈ [build] := hrows ▸ List.mem_map_of_mem hr
  rwa [List.mem_singleton.1 this] at hbuild

theorem encode_blxH01_of_field {w : InstrWord} (h : w.extractLsb' 11 5 = 0b11101#5) :
    encode (.blxH01 (w.extractLsb' 0 11)) = w := by
  rw [encode, ← h]; exact BitVec.extractLsb'_append_extractLsb'

theorem encode_bkpt_of_field {w : InstrWord} (h : w.extractLsb' 8 8 = 0b10111110#8) :
    encode (.bkpt (w.extractLsb' 0 8)) = w := by
  rw [encode, ← h]; exact BitVec.extractLsb'_append_extractLsb'

/-- The register number `H2:Rm` is written back to the bits it was read from. -/
theorem highBit_h2Field (w : InstrWord) : highBit (h2Field w) = w.extractLsb' 6 1 :=
  BitVec.extractLsb'_append_eq_left

theorem lowBits_h2Field (w : InstrWord) : lowBits (h2Field w) = w.extractLsb' 3 3 :=
  BitVec.extractLsb'_append_eq_right

theorem encode_blx2_of_field {w : InstrWord} (h : w.extractLsb' 7 9 = 0b010001111#9) :
    encode (.blx2 (h2Field w) (w.extractLsb' 0 3)) = w := by
  rw [encode, ← h, highBit_h2Field, lowBits_h2Field, BitVec.extractLsb'_append_extractLsb'_eq_extractLsb' (by rfl),
    BitVec.extractLsb'_append_extractLsb'_eq_extractLsb' (by rfl)]
  exact BitVec.extractLsb'_append_extractLsb'

end Sys2Proof

namespace Sys2Proof.Machine

open Sys2Proof

/-! ## A step on a fetched word -/

section
variable {s : State} {w : InstrWord} (hhalted : s.halted = false) (ht : s.t = true) (htrap : s.trap = none)
  (hfetch : s.fetch = .ok w)
include hhalted ht htrap hfetch

theorem step_of_decode_error {e : DecodeReject} (h : decode w = .error e) :
    step s = .fault (.undefinedInstruction w) := by
  simp [step, hhalted, ht, htrap, hfetch, h]

theorem step_of_decode_ok {i : Instr} (h : decode w = .ok i) : step s = exec i s := by
  simp [step, hhalted, ht, htrap, hfetch, h]

end

/-- With `TVARIANT = 4` an instruction read from a word of BLX_H01, BKPT or BLX_2 is that word's fault (30_encoding.md
R98, R108). -/
theorem exec_of_v5_word {s : State} {w : InstrWord} {i : Instr} (hv4 : s.cfg.tvariant = .v4)
    (hword : w.extractLsb' 11 5 = 0b11101#5 ∨ w.extractLsb' 8 8 = 0b10111110#8 ∨ w.extractLsb' 7 9 = 0b010001111#9)
    (h : decode w = .ok i) : exec i s = .fault (.undefinedInstruction w) := by
  rcases hword with hblx | hbkpt | hblx2
  case inl =>
    cases build_of_decode rowsWith_blxH01 hblx hblx h
    exact (State.fromV5_v4 hv4).trans (by rw [encode_blxH01_of_field hblx])
  case inr.inl =>
    have htop : w.extractLsb' 11 5 = 0b10111#5 := by
      rw [← extractLsb'_extractLsb' (lsb := 8) (len := 8) (i := 3) w (by decide), hbkpt]; rfl
    cases build_of_decode rowsWith_bkpt htop hbkpt h
    exact (State.fromV5_v4 hv4).trans (by rw [encode_bkpt_of_field hbkpt])
  case inr.inr =>
    have htop : w.extractLsb' 11 5 = 0b01000#5 := by
      rw [← extractLsb'_extractLsb' (lsb := 7) (len := 9) (i := 4) w (by decide), hblx2]; rfl
    cases build_of_decode rowsWith_blx2 htop hblx2 h
    exact (State.fromV5_v4 hv4).trans (by rw [encode_blx2_of_field hblx2])

/-- Settles O4: a word is rejected when no row of its group covers it, which the ten top bits decide; the v5 words carry
their own instruction, whose first check is the version. -/
theorem unallocatedWordsAreUndefined : Obligations.UnallocatedWordsAreUndefined := by
  refine ⟨exists_decode_error_iff_unallocated, fun s w hhalted ht htrap hfetch => ⟨?rejected, fun hv4 hword => ?v4⟩⟩
  case rejected =>
    rintro ⟨e, he⟩
    exact step_of_decode_error hhalted ht htrap hfetch he
  case v4 =>
    cases hd : decode w with
    | error e => exact step_of_decode_error hhalted ht htrap hfetch hd
    | ok i => rw [step_of_decode_ok hhalted ht htrap hfetch hd, exec_of_v5_word hv4 hword hd]

end Sys2Proof.Machine

/-! The constrained encodings (30_encoding.md R100): what a register list names, the order of the refusals, and the
low/low ADD_4, which is not among them. -/

namespace Sys2Proof.Machine

open Sys2Proof Sys2Proof.Claims

/-! ## Register lists -/

theorem length_listRegs (list : BitVec 8) : (listRegs list).length = size list := by
  rw [listRegs, List.length_map, ← List.countP_eq_length_filter]
  exact (List.countP_map (l := lowRegs) (f := Fin.val) (p := fun j => list.getLsbD j)).symm

theorem length_listRegsWith_true (list : BitVec 8) (extra : Reg) :
    (listRegsWith list true extra).length = size list + 1 := by
  simp [listRegsWith, length_listRegs]

theorem lo_mem_listRegs {list : BitVec 8} {i : LowReg} (h : list.getLsbD i.val = true) : lo i ∈ listRegs list :=
  mem_listRegs.2 ⟨i, h, rfl⟩

theorem length_listRegs_ne_zero {list : BitVec 8} {i : LowReg} (h : list.getLsbD i.val = true) :
    (listRegs list).length ≠ 0 :=
  (List.length_pos_of_mem (lo_mem_listRegs h)).ne'

theorem exists_listed_below {list : BitVec 8} {i : LowReg} (h : rank list i.val ≠ 0) :
    ∃ j : LowReg, j < i ∧ list.getLsbD j.val = true := by
  obtain ⟨j, hj, hlisted⟩ := List.countP_pos_iff.1 (Nat.pos_of_ne_zero h)
  have hlt : j < i.val := List.mem_range.1 hj
  exact ⟨⟨j, hlt.trans i.isLt⟩, hlt, hlisted⟩

/-- The lists ascend, so a register above another listed one is not the first. -/
theorem head?_listRegs_ne {list : BitVec 8} {i j : LowReg} (hlt : j < i) (h : list.getLsbD j.val = true) :
    (listRegs list).head? ≠ some (lo i) := by
  intro hhead
  obtain ⟨rest, hrest⟩ := List.head?_eq_some_iff.1 hhead
  have ascending := listRegs_ascending list
  have hmem := lo_mem_listRegs h
  rw [hrest] at ascending hmem
  rcases List.mem_cons.1 hmem with heq | hin
  · exact hlt.ne ((lo_inj j i).1 heq)
  · exact lt_asymm (Fin.lt_def.2 hlt : lo j < lo i) (List.rel_of_pairwise_cons ascending hin)

/-! ## The refusals: the profile and version checks pass, and the rule's own check is the first to fail -/

theorem execPush_nothing (s : State) : execPush false 0#8 s = .refused (.unpredictable .emptyList) := by
  unfold execPush
  cases s.cfg.profile <;> rfl

theorem execPop_nothing (s : State) : execPop false 0#8 s = .refused (.unpredictable .emptyList) := by
  unfold execPop
  cases s.cfg.profile <;> rfl

section
variable {s : State} (harch : s.cfg.profile = .arch)
include harch

theorem execCmp3_low {rm rn : Reg} (hn : rn.val < 8) (hm : rm.val < 8) :
    execCmp3 rm rn s = .refused (.unpredictable .cmp3LowLow) :=
  (State.archOnly_arch harch).trans (if_pos ⟨hn, hm⟩)

theorem execMov3_low {rm rd : Reg} (hd : rd.val < 8) (hm : rm.val < 8) :
    execMov3 rm rd s = .refused (.unpredictable .mov3LowLow) :=
  (State.archOnly_arch harch).trans (if_pos ⟨hd, hm⟩)

theorem execLdmia_empty (rn : LowReg) : execLdmia rn 0#8 s = .refused (.unpredictable .emptyList) :=
  State.archOnly_arch harch

theorem execStmia_empty (rn : LowReg) : execStmia rn 0#8 s = .refused (.unpredictable .emptyList) :=
  State.archOnly_arch harch

theorem execBx_sbz (rm : Reg) {sbz : BitVec 3} (h : sbz ≠ 0#3) :
    execBx rm sbz s = .refused (.unpredictable .sbz) :=
  (State.archOnly_arch harch).trans (if_pos h)

theorem execBlx2_sbz (rm : Reg) {sbz : BitVec 3} (h : sbz ≠ 0#3) (hv5 : s.cfg.tvariant = .v5) :
    execBlx2 rm sbz s = .refused (.unpredictable .sbz) :=
  (State.fromV5_v5 hv5).trans ((State.archOnly_arch harch).trans (if_pos h))

theorem execBlx2_lrReg (hv5 : s.cfg.tvariant = .v5) :
    execBlx2 lrReg 0#3 s = .refused (.unpredictable .blxLr) :=
  (State.fromV5_v5 hv5).trans (State.archOnly_arch harch)

theorem execLdmia_base {rn : LowReg} {list : BitVec 8} (h : list.getLsbD rn.val = true) :
    execLdmia rn list s = .refused (.unpredictable .ldmiaBaseInList) :=
  (State.archOnly_arch harch).trans ((if_neg (length_listRegs_ne_zero h)).trans (if_pos h))

theorem execStmia_base {rn : LowReg} {list : BitVec 8} (h : list.getLsbD rn.val = true) (hrank : rank list rn.val ≠ 0) :
    execStmia rn list s = .refused (.unpredictable .stmiaBaseInList) := by
  obtain ⟨j, hlt, hj⟩ := exists_listed_below hrank
  exact (State.archOnly_arch harch).trans
    ((if_neg (length_listRegs_ne_zero h)).trans (if_pos ⟨h, head?_listRegs_ne hlt hj⟩))

/-- The word for the pc is the last of the block, after those of the list. -/
theorem execPop_pc_bit0 {list : BitVec 8} {v : Word} (hblock : BlockOk s (s.reg spReg) (size list + 1))
    (hread : s.memRead (s.reg spReg + BitVec.ofNat 32 (4 * size list)) .word = .ok v) (hbit : v.getLsbD 0 = false) :
    execPop true list s = .refused (.unpredictable .popPcBit0) := by
  have hcheck : s.checkBlock (s.reg spReg) (size list + 1) = none := State.checkBlock_eq_none.2 hblock
  have htarget : (s.peek (wordAddr (s.reg spReg) (size list)) .word).getLsbD 0 = false := by
    rw [wordAddr, ← (State.memRead_eq_ok.1 hread).2, hbit]
  simp only [execPop, harch, State.popBlock, length_listRegsWith_true, Nat.add_sub_cancel, hcheck, afterCheck, if_true,
    htarget, Bool.false_eq_true, if_false, unpredictable]

end

/-! ## The move that is not refused -/

theorem State.setReg_nextPc_moveInto (s : State) {d : Reg} (r : Word) (hd : d ≠ pcReg) :
    MoveInto s d r { s.setReg d r with pc := s.nextPc } := by
  have sameRegs (i : Reg) (hi : i ≠ pcReg) :
      ({ s.setReg d r with pc := s.nextPc } : State).reg i = (s.setReg d r).reg i := State.reg_congr rfl hi
  refine ⟨(sameRegs d hd).trans (s.setReg_reg r hd), s.setReg_flags d r, rfl, fun i hi hne => ?_,
    ⟨fun a => ?_, s.setReg_stored d r⟩, s.setReg_t d r, s.setReg_halted d r, s.setReg_trap d r, s.setReg_cfg d r⟩
  · rw [sameRegs i hi, State.setReg_reg_ne s r hi (List.ne_of_not_mem_cons hne)]
  · exact congrArg (Memory.byteAt · a) (s.setReg_mem d r)

theorem State.writeBack_moveInto {s : State} {d : Reg} (r : Word) (hd : d ≠ pcReg) (hpc : s.pc ≠ topPc) :
    ∃ t, s.writeBack d r = .next t ∧ MoveInto s d r t :=
  ⟨_, State.writeBack_eq r hd hpc, s.setReg_nextPc_moveInto r hd⟩

theorem ne_pcReg_of_low {i : Reg} (h : i.val < 8) : i ≠ pcReg := by
  rintro rfl
  exact absurd h (by decide)

theorem execAdd4_of_low_dest {s : State} (rm : Reg) {rd : Reg} (harch : s.cfg.profile = .arch) (hd : rd.val < 8)
    (hpc : s.pc ≠ topPc) : Gives (.add4 rm rd) s (MoveInto s rd (s.reg rd + s.reg rm)) := by
  obtain ⟨t, ht, hmove⟩ := State.writeBack_moveInto (s.reg rd + s.reg rm) (ne_pcReg_of_low hd) hpc
  exact ⟨t, (State.archOnly_arch harch).trans ht, hmove⟩

/-- Settles O44, one lemma for each line of the rule's table. -/
theorem constrainedEncodingsAreRefused : Obligations.ConstrainedEncodingsAreRefused := by
  intro s rm rd rn list sbz
  exact ⟨execPush_nothing s, execPop_nothing s, fun harch =>
    ⟨execCmp3_low harch, execMov3_low harch, execLdmia_empty harch rn, execStmia_empty harch rn, execBx_sbz harch rm,
      execBlx2_sbz harch rm, execLdmia_base harch, execStmia_base harch, fun _ => execPop_pc_bit0 harch,
      execBlx2_lrReg harch, fun hd _ => execAdd4_of_low_dest rm harch hd⟩⟩

end Sys2Proof.Machine

/-! The words of the arithmetic instructions (30_encoding.md R82): the fields a format reads are those its word was
written from, and the head of the word picks the row. -/

namespace Sys2Proof

/-! ## Fields of a word written from bit 15 down -/

/-- A field above the last one is where it was before the last one was added. -/
theorem extractLsb'_append_add {m n : Nat} (a : BitVec m) (x : BitVec n) (lsb len : Nat) :
    (a ++ x).extractLsb' (n + lsb) len = a.extractLsb' lsb len := by
  rw [BitVec.extractLsb'_append_eq_of_le (Nat.le_add_right n lsb), Nat.add_sub_cancel_left]

theorem extractLsb'_append₂ {m k n : Nat} (a : BitVec m) (x : BitVec k) (y : BitVec n) :
    (a ++ x ++ y).extractLsb' n k = x :=
  (extractLsb'_append_add _ y 0 k).trans BitVec.extractLsb'_append_eq_right

theorem extractLsb'_append₃ {m k n l : Nat} (a : BitVec m) (x : BitVec k) (y : BitVec n) (z : BitVec l) :
    (a ++ x ++ y ++ z).extractLsb' (l + n) k = x :=
  (extractLsb'_append_add _ z n k).trans (extractLsb'_append₂ a x y)

theorem extractLsb'_append₄ {m k n l j : Nat} (a : BitVec m) (x : BitVec k) (y : BitVec n) (z : BitVec l)
    (u : BitVec j) : (a ++ x ++ y ++ z ++ u).extractLsb' (j + (l + n)) k = x :=
  (extractLsb'_append_add _ u (l + n) k).trans (extractLsb'_append₃ a x y z)

theorem head_append₂ {m k n : Nat} (a : BitVec m) (x : BitVec k) (y : BitVec n) :
    (a ++ x ++ y).extractLsb' (n + k) m = a :=
  (extractLsb'_append_add _ y k m).trans BitVec.extractLsb'_append_eq_left

theorem head_append₃ {m k n l : Nat} (a : BitVec m) (x : BitVec k) (y : BitVec n) (z : BitVec l) :
    (a ++ x ++ y ++ z).extractLsb' (l + (n + k)) m = a :=
  (extractLsb'_append_add _ z (n + k) m).trans (head_append₂ a x y)

theorem head_append₄ {m k n l j : Nat} (a : BitVec m) (x : BitVec k) (y : BitVec n) (z : BitVec l) (u : BitVec j) :
    (a ++ x ++ y ++ z ++ u).extractLsb' (j + (l + (n + k))) m = a :=
  (extractLsb'_append_add _ u (l + (n + k)) m).trans (head_append₃ a x y z)

/-! ## What a format reads -/

theorem lowField_eq_of_bits3 {w : InstrWord} {lsb : Nat} {r : LowReg} (h : w.extractLsb' lsb 3 = bits3 r) :
    lowField w lsb = r := congrArg BitVec.toFin h

/-- The two parts of a four-bit register number, put together again (30_encoding.md R84). -/
theorem toFin_highBit_append_lowBits : ∀ r : Reg, (highBit r ++ lowBits r : BitVec 4).toFin = r := by decide

section
variable {w : InstrWord} {x y z : LowReg}

theorem readRRR_eq (f : LowReg → LowReg → LowReg → Instr) (hx : w.extractLsb' 6 3 = bits3 x)
    (hy : w.extractLsb' 3 3 = bits3 y) (hz : w.extractLsb' 0 3 = bits3 z) : readRRR f w = some (f x y z) := by
  rw [readRRR, lowField_eq_of_bits3 hx, lowField_eq_of_bits3 hy, lowField_eq_of_bits3 hz]

theorem readAS3I_eq (f : BitVec 3 → LowReg → LowReg → Instr) {v : BitVec 3} (hv : w.extractLsb' 6 3 = v)
    (hy : w.extractLsb' 3 3 = bits3 y) (hz : w.extractLsb' 0 3 = bits3 z) : readAS3I f w = some (f v y z) := by
  rw [readAS3I, hv, lowField_eq_of_bits3 hy, lowField_eq_of_bits3 hz]

theorem readRI8_eq (f : LowReg → BitVec 8 → Instr) {v : BitVec 8} (hx : w.extractLsb' 8 3 = bits3 x)
    (hv : w.extractLsb' 0 8 = v) : readRI8 f w = some (f x v) := by
  rw [readRI8, lowField_eq_of_bits3 hx, hv]

theorem readALU_eq (f : LowReg → LowReg → Instr) (hx : w.extractLsb' 3 3 = bits3 x)
    (hy : w.extractLsb' 0 3 = bits3 y) : readALU f w = some (f x y) := by
  rw [readALU, lowField_eq_of_bits3 hx, lowField_eq_of_bits3 hy]

/-- `H1` and `H2` stand together, apart from the low bits of their registers. -/
theorem readHI_eq (f : Reg → Reg → Instr) {m d : Reg} (hdHigh : w.extractLsb' 7 1 = highBit d)
    (hdLow : w.extractLsb' 0 3 = lowBits d) (hmHigh : w.extractLsb' 6 1 = highBit m)
    (hmLow : w.extractLsb' 3 3 = lowBits m) : readHI f w = some (f m d) := by
  rw [readHI, h1Field, h2Field, hdHigh, hdLow, hmHigh, hmLow, toFin_highBit_append_lowBits,
    toFin_highBit_append_lowBits]

end

/-! ## The row a head picks -/

/-- The head of a word is allocated: outside the miscellaneous group, or with a listed operation in it
(30_encoding.md R98). -/
def allocatedHead {len : Nat} (head : BitVec len) : Bool :=
  head.extractLsb' (len - 4) 4 != 0b1011#4 || 8 ≤ len && !unallocatedOps.contains (head.extractLsb' (len - 8) 4)

theorem exists_decode_of_allocatedHead {w : InstrWord} {lsb len : Nat} (hlen : 4 ≤ len) (hend : lsb + len = 16)
    (halloc : allocatedHead (w.extractLsb' lsb len) = true) : ∃ i, decode w = .ok i := by
  cases hd : decode w with
  | ok i => exact ⟨i, rfl⟩
  | error e =>
    exfalso
    obtain ⟨hmisc, hop⟩ := (exists_decode_error_iff_unallocated w).1 ⟨e, hd⟩
    simp only [allocatedHead, Bool.or_eq_true, Bool.and_eq_true, bne_iff_ne, decide_eq_true_eq, Bool.not_eq_true',
      List.contains_eq_mem, decide_eq_false_iff_not] at halloc
    rcases halloc with hgroup | ⟨hlen8, hlisted⟩
    · rw [extractLsb'_extractLsb' w (by omega), show lsb + (len - 4) = 12 by omega] at hgroup
      exact hgroup hmisc
    · rw [extractLsb'_extractLsb' w (by omega), show lsb + (len - 8) = 8 by omega] at hlisted
      exact hlisted hop

/-- Where the head of a word agrees with one row of its group, the word is read as that row reads it. -/
theorem decode_of_head {w : InstrWord} {i : Instr} {lsb len : Nat} {head : BitVec len}
    {build : InstrWord → Option Instr} (hlen : 5 ≤ len) (hend : lsb + len = 16)
    (hrows : (rowsWith (head.extractLsb' (len - 5) 5) lsb len head).map Row.build = [build])
    (halloc : allocatedHead head = true) (hhead : w.extractLsb' lsb len = head) (hbuild : build w = some i) :
    decode w = .ok i := by
  subst hhead
  have htop : w.extractLsb' 11 5 = (w.extractLsb' lsb len).extractLsb' (len - 5) 5 := by
    rw [extractLsb'_extractLsb' w (by omega), show lsb + (len - 5) = 11 by omega]
  obtain ⟨j, hj⟩ := exists_decode_of_allocatedHead (by omega) hend halloc
  have hread := build_of_decode hrows htop rfl hj
  rw [hj, Option.some.inj (hread.symm.trans hbuild)]

/-! ## Decoding a format -/

theorem decode_readRRR {head : BitVec 7} {f : LowReg → LowReg → LowReg → Instr}
    (hrows : (rowsWith (head.extractLsb' 2 5) 9 7 head).map Row.build = [readRRR f])
    (halloc : allocatedHead head = true) (x y z : LowReg) :
    decode (head ++ bits3 x ++ bits3 y ++ bits3 z) = .ok (f x y z) :=
  decode_of_head (by decide) rfl hrows halloc (head_append₃ ..)
    (readRRR_eq f (extractLsb'_append₃ ..) (extractLsb'_append₂ ..) BitVec.extractLsb'_append_eq_right)

theorem decode_readAS3I {head : BitVec 7} {f : BitVec 3 → LowReg → LowReg → Instr}
    (hrows : (rowsWith (head.extractLsb' 2 5) 9 7 head).map Row.build = [readAS3I f])
    (halloc : allocatedHead head = true) (v : BitVec 3) (y z : LowReg) :
    decode (head ++ v ++ bits3 y ++ bits3 z) = .ok (f v y z) :=
  decode_of_head (by decide) rfl hrows halloc (head_append₃ ..)
    (readAS3I_eq f (extractLsb'_append₃ ..) (extractLsb'_append₂ ..) BitVec.extractLsb'_append_eq_right)

theorem decode_readRI8 {head : BitVec 5} {f : LowReg → BitVec 8 → Instr}
    (hrows : (rowsWith (head.extractLsb' 0 5) 11 5 head).map Row.build = [readRI8 f])
    (halloc : allocatedHead head = true) (x : LowReg) (v : BitVec 8) :
    decode (head ++ bits3 x ++ v) = .ok (f x v) :=
  decode_of_head (by decide) rfl hrows halloc (head_append₂ ..)
    (readRI8_eq f (extractLsb'_append₂ ..) BitVec.extractLsb'_append_eq_right)

theorem decode_readALU {head : BitVec 10} {f : LowReg → LowReg → Instr}
    (hrows : (rowsWith (head.extractLsb' 5 5) 6 10 head).map Row.build = [readALU f])
    (halloc : allocatedHead head = true) (x y : LowReg) :
    decode (head ++ bits3 x ++ bits3 y) = .ok (f x y) :=
  decode_of_head (by decide) rfl hrows halloc (head_append₂ ..)
    (readALU_eq f (extractLsb'_append₂ ..) BitVec.extractLsb'_append_eq_right)

theorem decode_readSP7 {head : BitVec 9} {f : BitVec 7 → Instr}
    (hrows : (rowsWith (head.extractLsb' 4 5) 7 9 head).map Row.build = [readSP7 f])
    (halloc : allocatedHead head = true) (v : BitVec 7) : decode (head ++ v) = .ok (f v) :=
  decode_of_head (by decide) rfl hrows halloc BitVec.extractLsb'_append_eq_left
    (congrArg (fun u => some (f u)) BitVec.extractLsb'_append_eq_right)

theorem decode_readHI {head : BitVec 8} {f : Reg → Reg → Instr}
    (hrows : (rowsWith (head.extractLsb' 3 5) 8 8 head).map Row.build = [readHI f])
    (halloc : allocatedHead head = true) (m d : Reg) :
    decode (head ++ highBit d ++ highBit m ++ lowBits m ++ lowBits d) = .ok (f m d) :=
  decode_of_head (by decide) rfl hrows halloc (head_append₄ ..)
    (readHI_eq f (extractLsb'_append₄ ..) BitVec.extractLsb'_append_eq_right (extractLsb'_append₃ ..)
      (extractLsb'_append₂ ..))

end Sys2Proof

/-! The arithmetic instructions (40_arithmetic.md): the flags of a sum and of a difference, the state each of the shared
endings leaves, and the operands their immediates stand for. -/

namespace Sys2Proof.Machine

open Sys2Proof Sys2Proof.Claims

/-! ## The flags of sums and differences -/

theorem State.setNZCV_nzOf (s : State) (r : Sum) : NZOf r.result (s.setNZCV r).flags :=
  ⟨(BitVec.msb_eq_getLsbD_last _).symm, by rw [State.setNZCV_z, beq_iff_eq]⟩

theorem addWithCarry_result_eq_add (a b : Word) (cin : Bool) :
    (addWithCarry a b cin).result = a + b + BitVec.ofNat 32 (if cin then 1 else 0) := by
  rw [addWithCarry_result, Bool.toNat, Bool.cond_eq_ite]

/-- The borrow a subtraction takes in is the complement of the carry. -/
theorem borrow_add_carry (cin : Bool) : (if cin then 0 else 1) + cin.toNat = 1 := by
  cases cin <;> rfl

/-- Adding the complement with a carry subtracts; without one, a borrow is taken as well. -/
theorem addWithCarry_not_result (a b : Word) (cin : Bool) :
    (addWithCarry a (~~~b) cin).result = a - b - BitVec.ofNat 32 (if cin then 0 else 1) := by
  have hborrow := borrow_add_carry cin
  rw [addWithCarry_result, BitVec.not_eq_neg_add]
  bv_omega

theorem State.setNZCV_addFlags (s : State) (a b : Word) (cin : Bool) :
    AddFlags a b (if cin then 1 else 0) (s.setNZCV (addWithCarry a b cin)).flags := by
  have hcin : cin.toNat = if cin then 1 else 0 := cond_eq_ite cin 1 0
  refine ⟨addWithCarry_result_eq_add a b cin ▸ s.setNZCV_nzOf _, ?carry, ?overflow⟩
  case carry => rw [State.setNZCV_c, addWithCarry, decide_eq_true_iff, hcin]; omega
  case overflow => rw [State.setNZCV_v, addWithCarry, decide_eq_true_iff, hcin]; omega

/-- Over the integers too, the complement with a carry is the operand taken away with a borrow. -/
theorem State.setNZCV_subFlags (s : State) (a b : Word) (cin : Bool) :
    SubFlags a b (if cin then 0 else 1) (s.setNZCV (addWithCarry a (~~~b) cin)).flags := by
  have hborrow := borrow_add_carry cin
  refine ⟨addWithCarry_not_result a b cin ▸ s.setNZCV_nzOf _, ?carry, ?overflow⟩
  case carry => rw [State.setNZCV_c, addWithCarry, decide_eq_true_iff, BitVec.toNat_not]; omega
  case overflow => rw [State.setNZCV_v, addWithCarry, decide_eq_true_iff, toInt_not]; omega

/-! ## The states the shared endings leave -/

theorem keeps_flags_pc (s : State) (f : Flags) (v : Word) : Keeps s { s with flags := f, pc := v } [] :=
  ⟨fun _ hi _ => State.reg_congr rfl hi, ⟨fun _ => rfl, rfl⟩, rfl, rfl, rfl, rfl⟩

section
variable {s : State} (hpc : s.pc ≠ topPc)
include hpc

/-- A sum is written like a moved value, with its flags besides. -/
theorem State.writeSum_result (rd : LowReg) (r : Sum) :
    ∃ t, s.writeSum rd r = .next t ∧ t.reg (lo rd) = r.result ∧ t.flags = (s.setNZCV r).flags ∧
      t.pc = s.pc + 2#32 ∧ Keeps s t [lo rd] := by
  obtain ⟨hreg, -, hnext, hkeeps⟩ := s.setReg_nextPc_moveInto r.result (lo_ne_pcReg rd)
  exact ⟨_, State.writeSum_eq r hpc, hreg, rfl, hnext, hkeeps⟩

theorem State.writeSum_addInto (rd : LowReg) (a b : Word) (cin : Bool) :
    ∃ t, s.writeSum rd (addWithCarry a b cin) = .next t ∧ AddInto s rd a b (if cin then 1 else 0) t := by
  obtain ⟨t, ht, hreg, hflags, hnext, hkeeps⟩ := State.writeSum_result hpc rd (addWithCarry a b cin)
  exact ⟨t, ht, hreg.trans (addWithCarry_result_eq_add a b cin), hflags ▸ s.setNZCV_addFlags a b cin, hnext, hkeeps⟩

theorem State.writeSum_subInto (rd : LowReg) (a b : Word) (cin : Bool) :
    ∃ t, s.writeSum rd (addWithCarry a (~~~b) cin) = .next t ∧ SubInto s rd a b (if cin then 0 else 1) t := by
  obtain ⟨t, ht, hreg, hflags, hnext, hkeeps⟩ := State.writeSum_result hpc rd (addWithCarry a (~~~b) cin)
  exact ⟨t, ht, hreg.trans (addWithCarry_not_result a b cin), hflags ▸ s.setNZCV_subFlags a b cin, hnext, hkeeps⟩

theorem State.compareSum_addition (a b : Word) :
    ∃ t, s.compareSum (addition a b) = .next t ∧
      AddFlags a b 0 t.flags ∧ t.pc = s.pc + 2#32 ∧ Keeps s t [] :=
  ⟨_, State.compareSum_eq _ hpc, State.setNZCV_addFlags s a b false, rfl, keeps_flags_pc s _ _⟩

theorem State.compareSum_subtraction (a b : Word) :
    ∃ t, s.compareSum (subtraction a b) = .next t ∧
      SubFlags a b 0 t.flags ∧ t.pc = s.pc + 2#32 ∧ Keeps s t [] :=
  ⟨_, State.compareSum_eq _ hpc, State.setNZCV_subFlags s a b true, rfl, keeps_flags_pc s _ _⟩

end

/-! ## Immediate operands and addresses -/

theorem ofNat_toNat_eq_immediate {w : Nat} (v : BitVec w) : BitVec.ofNat 32 v.toNat = immediate v :=
  BitVec.ofNat_toNat 32 v

theorem scaled_eq_ofNat {w : Nat} (v : BitVec w) (scale : Nat) :
    scaled v scale = BitVec.ofNat 32 (scale * v.toNat) := by
  rw [scaled, ← ofNat_toNat_eq_immediate, ← BitVec.ofNat_mul, Nat.mul_comm]

theorem clearLow2_eq_ofNat (v : Word) : clearLow2 v = BitVec.ofNat 32 (v.toNat / 4 * 4) := by
  rw [← clearLow2_toNat, BitVec.ofNat_toNat, BitVec.setWidth_eq]

/-! ## The obligations -/

/-- Settles O20: both are sums with the carry flag, SBC's with the complement of Rm. -/
theorem carryArithmeticResults : Obligations.CarryArithmeticResults := by
  intro s rm rd hpc
  exact ⟨decode_readALU rfl (by decide) rm rd, decode_readALU rfl (by decide) rm rd,
    State.writeSum_addInto hpc rd _ _ s.flags.c, State.writeSum_subInto hpc rd _ _ s.flags.c⟩

/-- Settles O21: a subtraction is the sum with the complement and a carry, which takes no borrow. -/
theorem subtractResults : Obligations.SubtractResults := by
  intro s rm rn rd immed3 immed8 hpc
  rw [ofNat_toNat_eq_immediate, ofNat_toNat_eq_immediate]
  exact ⟨decode_readRRR rfl (by decide) rm rn rd, decode_readAS3I rfl (by decide) immed3 rn rd,
    decode_readRI8 rfl (by decide) rd immed8, decode_readALU rfl (by decide) rm rd,
    State.writeSum_subInto hpc rd _ _ true, State.writeSum_subInto hpc rd _ _ true,
    State.writeSum_subInto hpc rd _ _ true, State.writeSum_subInto hpc rd _ _ true⟩

/-- Settles O22: the flags are those of the sums of O20 and O21, and the frame names no register. -/
theorem compareResults : Obligations.CompareResults := by
  intro s rm rn immed8 hpc
  rw [ofNat_toNat_eq_immediate]
  exact ⟨decode_readALU rfl (by decide) rm rn, decode_readRI8 rfl (by decide) rn immed8,
    decode_readALU rfl (by decide) rm rn, State.compareSum_addition hpc _ _,
    State.compareSum_subtraction hpc _ _, State.compareSum_subtraction hpc _ _⟩

/-- Settles O24: past the checks of the profile and of the two registers it compares as CMP_2 does. -/
theorem highCompareResults : Obligations.HighCompareResults := by
  intro s rm rn
  refine ⟨decode_readHI rfl (by decide) rm rn, fun hhdl => State.archOnly_hdl hhdl,
    fun harch hn hm => execCmp3_low harch hn hm, fun harch hhigh hpc => ?compare⟩
  case compare =>
    have notLow : ¬ (rn.val < 8 ∧ rm.val < 8) := by omega
    obtain ⟨t, ht, hcompare⟩ := State.compareSum_subtraction hpc (s.reg rn) (s.reg rm)
    exact ⟨t, (State.archOnly_arch harch).trans ((if_neg notLow).trans ht), hcompare⟩

/-- Settles O25: the sum is written back, to a register as a move and to register 15 as a branch. -/
theorem highAddResults : Obligations.HighAddResults := by
  intro s rm rd
  refine ⟨decode_readHI rfl (by decide) rm rd, fun hhdl => State.archOnly_hdl hhdl,
    fun harch hd hpc => ?register, fun harch => ?branch⟩
  case register =>
    obtain ⟨t, ht, hmove⟩ := State.writeBack_moveInto (s.reg rd + s.reg rm) hd hpc
    exact ⟨t, (State.archOnly_arch harch).trans ht, hmove⟩
  case branch =>
    refine ⟨_, (State.archOnly_arch harch).trans (State.writeBack_pcReg s _), clearBit0_getLsbD_zero _,
      fun j hj => ?_, rfl, keeps_flags_pc s s.flags _⟩
    rw [clearBit0_getLsbD, decide_eq_true hj, Bool.and_true, State.reg_pcReg]

/-- Settles O27: each writes an address back, its immediate a multiple of 4 and PCval rounded down to one. -/
theorem addressArithmeticResults : Obligations.AddressArithmeticResults := by
  intro s rd immed8 immed7 hpc
  rw [BitVec.ofNat_add, ← clearLow2_eq_ofNat, ← scaled_eq_ofNat, ← scaled_eq_ofNat]
  exact ⟨decode_readRI8 rfl (by decide) rd immed8, decode_readRI8 rfl (by decide) rd immed8,
    decode_readSP7 rfl (by decide) immed7, decode_readSP7 rfl (by decide) immed7,
    State.writeBack_moveInto _ (lo_ne_pcReg rd) hpc, State.writeBack_moveInto _ (lo_ne_pcReg rd) hpc,
    State.writeBack_moveInto _ spReg_ne_pcReg hpc, State.writeBack_moveInto _ spReg_ne_pcReg hpc⟩

end Sys2Proof.Machine

/-! The logical and move instructions (41_logical_move.md): N and Z of a result with C and V kept, the states the shared
endings leave, and a write of register 15 as a branch. -/

namespace Sys2Proof.Machine

open Sys2Proof Sys2Proof.Claims

/-! ## The states the shared endings leave -/

theorem State.setNZ_nzOf (s : State) (r : Word) : NZOf r (s.setNZ r).flags :=
  ⟨(BitVec.msb_eq_getLsbD_last _).symm, by rw [State.setNZ_z, beq_iff_eq]⟩

section
variable {s : State} (hpc : s.pc ≠ topPc)
include hpc

/-- A logical result is written like a moved value, which keeps every flag, with N and Z set besides. -/
theorem State.writeLogical_logicInto (rd : LowReg) (r : Word) :
    ∃ t, s.writeLogical rd r = .next t ∧ LogicInto s rd r t := by
  obtain ⟨hreg, hflags, hnext, hkeeps⟩ := s.setReg_nextPc_moveInto r (lo_ne_pcReg rd)
  have hc : (s.setReg (lo rd) r).flags.c = s.flags.c := congrArg Flags.c hflags
  have hv : (s.setReg (lo rd) r).flags.v = s.flags.v := congrArg Flags.v hflags
  exact ⟨_, State.writeLogical_eq r hpc, hreg, State.setNZ_nzOf _ r, hc, hv, hnext, hkeeps⟩

/-- TST ends as a compare does, with the flags of a logical result. -/
theorem State.setNZ_retire_result (r : Word) :
    ∃ t, (s.setNZ r).retire = .next t ∧
      NZOf r t.flags ∧ t.flags.c = s.flags.c ∧ t.flags.v = s.flags.v ∧ t.pc = s.pc + 2#32 ∧ Keeps s t [] :=
  ⟨_, State.retire_of_ne hpc, s.setNZ_nzOf r, s.setNZ_c r, s.setNZ_v r, rfl, keeps_flags_pc s _ _⟩

end

/-- A write of register 15 completes from every pc: it is a branch (10_state.md R27). -/
theorem State.writeBack_pcReg_branch (s : State) (v : Word) :
    ∃ t, s.writeBack pcReg v = .next t ∧
      t.pc.getLsbD 0 = false ∧ (∀ j, 1 ≤ j → t.pc.getLsbD j = v.getLsbD j) ∧ t.flags = s.flags ∧ Keeps s t [] := by
  refine ⟨_, s.writeBack_pcReg v, clearBit0_getLsbD_zero v, fun j hj => ?_, rfl, keeps_flags_pc s s.flags _⟩
  rw [clearBit0_getLsbD, decide_eq_true hj, Bool.and_true]

/-! ## MOV_3 past its checks -/

/-- With a high register among the two MOV_3 writes Rm back, register 15 as destination included. -/
theorem execMov3_of_high {s : State} {rm rd : Reg} (harch : s.cfg.profile = .arch) (hhigh : 8 ≤ rd.val ∨ 8 ≤ rm.val) :
    execMov3 rm rd s = s.writeBack rd (s.reg rm) :=
  have notLow : ¬ (rd.val < 8 ∧ rm.val < 8) := by omega
  (State.archOnly_arch harch).trans (if_neg notLow)

/-! ## The obligations -/

/-- Settles O26: past its two checks the value is written back, to a register as a move and to register 15, which is
itself a high register, as a branch. -/
theorem highMoveResults : Obligations.HighMoveResults := by
  intro s rm rd
  refine ⟨decode_readHI rfl (by decide) rm rd, fun hhdl => State.archOnly_hdl hhdl,
    fun harch hd hm => execMov3_low harch hd hm, fun harch hhigh hd hpc => ?register, fun harch => ?branch⟩
  case register =>
    obtain ⟨t, ht, hmove⟩ := State.writeBack_moveInto (s.reg rm) hd hpc
    exact ⟨t, (execMov3_of_high harch hhigh).trans ht, hmove⟩
  case branch =>
    have pcHigh : 8 ≤ pcReg.val := by decide
    obtain ⟨t, ht, hbranch⟩ := s.writeBack_pcReg_branch (s.reg rm)
    exact ⟨t, (execMov3_of_high harch (.inl pcHigh)).trans ht, hbranch⟩

/-- Settles O29: six forms write their result with its N and Z, and TST writes those two flags only. -/
theorem logicalResults : Obligations.LogicalResults := by
  intro s rm rd immed8 hpc
  rw [ofNat_toNat_eq_immediate]
  exact ⟨decode_readALU rfl (by decide) rm rd, decode_readALU rfl (by decide) rm rd,
    decode_readALU rfl (by decide) rm rd, decode_readRI8 rfl (by decide) rd immed8,
    decode_readALU rfl (by decide) rm rd, decode_readALU rfl (by decide) rm rd,
    decode_readALU rfl (by decide) rm rd, State.writeLogical_logicInto hpc rd _,
    State.writeLogical_logicInto hpc rd _, State.writeLogical_logicInto hpc rd _,
    State.writeLogical_logicInto hpc rd _, State.writeLogical_logicInto hpc rd _,
    State.writeLogical_logicInto hpc rd _, State.setNZ_retire_result hpc _⟩

end Sys2Proof.Machine

/-! The words of the shifts by an immediate (format SHI, 30_encoding.md R82). -/

namespace Sys2Proof

theorem readSHI_eq (f : BitVec 5 → LowReg → LowReg → Instr) {w : InstrWord} {v : BitVec 5} {y z : LowReg}
    (hv : w.extractLsb' 6 5 = v) (hy : w.extractLsb' 3 3 = bits3 y) (hz : w.extractLsb' 0 3 = bits3 z) :
    readSHI f w = some (f v y z) := by
  rw [readSHI, hv, lowField_eq_of_bits3 hy, lowField_eq_of_bits3 hz]

theorem decode_readSHI {head : BitVec 5} {f : BitVec 5 → LowReg → LowReg → Instr}
    (hrows : (rowsWith (head.extractLsb' 0 5) 11 5 head).map Row.build = [readSHI f])
    (halloc : allocatedHead head = true) (v : BitVec 5) (y z : LowReg) :
    decode (head ++ v ++ bits3 y ++ bits3 z) = .ok (f v y z) :=
  decode_of_head (by decide) rfl hrows halloc (head_append₃ ..)
    (readSHI_eq f (extractLsb'_append₃ ..) (extractLsb'_append₂ ..) BitVec.extractLsb'_append_eq_right)

end Sys2Proof

/-! The shifts and rotates (42_shift_rotate.md): each shift function of 00_scope.md R11 by bit position, the amounts,
and the state the shared ending leaves. -/

namespace Sys2Proof.Machine

open Sys2Proof Sys2Proof.Claims

/-! ## The results are the library's shifts, from every amount -/

theorem lslC_result (v : Word) (n : Nat) : (lslC v n).result = v <<< n := by
  unfold lslC
  split_ifs with hzero hle h32
  · rw [hzero, BitVec.shiftLeft_zero]
  · rfl
  · exact (BitVec.shiftLeft_eq_zero (by omega)).symm
  · exact (BitVec.shiftLeft_eq_zero (by omega)).symm

theorem lsrC_result (v : Word) (n : Nat) : (lsrC v n).result = v >>> n := by
  unfold lsrC
  split_ifs with hzero hle h32
  · rw [hzero, BitVec.ushiftRight_zero]
  · rfl
  · exact (BitVec.ushiftRight_eq_zero (by omega)).symm
  · exact (BitVec.ushiftRight_eq_zero (by omega)).symm

/-- A shift by the width or more leaves the sign in every position. -/
theorem sshiftRight_of_width_le (v : Word) {n : Nat} (hn : 32 ≤ n) :
    v.sshiftRight n = if v.getLsbD 31 then 0xFFFFFFFF#32 else 0#32 := by
  have hmsb : v.msb = v.getLsbD 31 := BitVec.msb_eq_getLsbD_last v
  split_ifs with hsign
  · rw [BitVec.sshiftRight_eq_of_msb_true (hmsb.trans hsign), BitVec.ushiftRight_eq_zero hn]
    rfl
  · rw [BitVec.sshiftRight_eq_of_msb_false (hmsb.trans (Bool.eq_false_of_not_eq_true hsign)),
      BitVec.ushiftRight_eq_zero hn]

theorem asrC_result (v : Word) (n : Nat) : (asrC v n).result = v.sshiftRight n := by
  unfold asrC
  split
  next hzero => rw [hzero, BitVec.sshiftRight_zero]
  next =>
    split
    · rfl
    · exact (sshiftRight_of_width_le v (by omega)).symm

/-- A rotation by a multiple of the width is none. -/
theorem rotateRight_of_mod_eq_zero (v : Word) {n : Nat} (hn : n % 32 = 0) : v.rotateRight n = v := by
  rw [BitVec.rotateRight_def, hn, BitVec.ushiftRight_zero, BitVec.shiftLeft_eq_zero le_rfl, BitVec.or_zero]

theorem rorC_result (v : Word) (n : Nat) : (rorC v n).result = v.rotateRight n := by
  unfold rorC
  split_ifs with hzero hmod
  · exact (rotateRight_of_mod_eq_zero v (by omega)).symm
  · exact (rotateRight_of_mod_eq_zero v hmod).symm
  · exact BitVec.rotateRight_def.symm

/-! ## Each bit of the results -/

theorem lslC_getLsbD (v : Word) (n j : Nat) (hj : j < 32) :
    (lslC v n).result.getLsbD j = leftBit v n j := by
  rw [lslC_result, BitVec.getLsbD_shiftLeft, leftBit, decide_eq_true hj, Bool.true_and, ← decide_not,
    decide_eq_decide.2 Nat.not_lt]

theorem lsrC_getLsbD (v : Word) (n j : Nat) : (lsrC v n).result.getLsbD j = rightBit v n j := by
  rw [lsrC_result, BitVec.getLsbD_ushiftRight, rightBit, Nat.add_comm]

theorem asrC_getLsbD (v : Word) (n j : Nat) (hj : j < 32) :
    (asrC v n).result.getLsbD j = signedBit v n j := by
  have hmsb : v.msb = v.getLsbD 31 := BitVec.msb_eq_getLsbD_last v
  rw [asrC_result, BitVec.getLsbD_sshiftRight, signedBit, decide_eq_false (Nat.not_le.2 hj), Bool.not_false,
    Bool.true_and, hmsb, ← apply_ite v.getLsbD]
  congr 1
  split_ifs <;> omega

theorem rorC_getLsbD (v : Word) (n j : Nat) (hj : j < 32) :
    (rorC v n).result.getLsbD j = rotatedBit v n j := by
  rw [rorC_result, BitVec.getLsbD_rotateRight, rotatedBit, decide_eq_true hj, Bool.true_and, Bool.cond_decide,
    ← apply_ite v.getLsbD]
  congr 1
  split_ifs <;> omega

/-! ## The last bit out; a shift by zero leaves C -/

theorem lslC_carry (v : Word) (n : Nat) (c : Bool) : (lslC v n).carry.getD c = leftOut v n c := by
  unfold lslC leftOut
  split_ifs with hzero hle h32
  · rfl
  · simp [show n ≤ 32 by omega]
  · simp [h32]
  · simp [show ¬ n ≤ 32 by omega]

theorem lsrC_carry (v : Word) (n : Nat) (c : Bool) : (lsrC v n).carry.getD c = rightOut v n c := by
  unfold lsrC rightOut
  split_ifs with hzero hle h32
  · rfl
  · rfl
  · rw [h32]; rfl
  · exact (BitVec.getLsbD_of_ge v (n - 1) (by omega)).symm

theorem asrC_carry (v : Word) (n : Nat) (c : Bool) : (asrC v n).carry.getD c = signedOut v n c := by
  unfold asrC signedOut
  split
  next => rfl
  next =>
    split
    · rw [min_eq_left (by omega)]; rfl
    · rw [min_eq_right (by omega)]; rfl

theorem rorC_carry (v : Word) (n : Nat) (c : Bool) : (rorC v n).carry.getD c = rotatedOut v n c := by
  unfold rorC rotatedOut
  split_ifs with hzero hmod
  · rfl
  · rw [show (n - 1) % 32 = 31 by omega]; rfl
  · rw [show (n - 1) % 32 = n % 32 - 1 by omega]; rfl

/-! ## The amounts -/

theorem rightAmount_eq_oneTo32 (immed5 : BitVec 5) : rightAmount immed5 = oneTo32 immed5 :=
  if_congr BitVec.toNat_inj.symm rfl rfl

theorem registerAmount_eq_mod (rs : Word) : registerAmount rs = rs.toNat % 256 := rfl

/-! ## The state the shared ending leaves -/

theorem State.setNZC_nzOf (s : State) (r : Shifted) : NZOf r.result (s.setNZC r).flags :=
  ⟨(BitVec.msb_eq_getLsbD_last _).symm, by rw [State.setNZC_z, beq_iff_eq]⟩

section
variable {s : State} (hpc : s.pc ≠ topPc)
include hpc

/-- A shifted value is written like a moved one, which keeps every flag, with N, Z and C set besides. -/
theorem State.writeShifted_result (rd : LowReg) (r : Shifted) :
    ∃ t, s.writeShifted rd r = .next t ∧ t.reg (lo rd) = r.result ∧ t.flags = (s.setNZC r).flags ∧
      t.pc = s.pc + 2#32 ∧ Keeps s t [lo rd] := by
  obtain ⟨hreg, hflags, hnext, hkeeps⟩ := s.setReg_nextPc_moveInto r.result (lo_ne_pcReg rd)
  have hwritten : ((s.setReg (lo rd) r.result).setNZC r).flags = (s.setNZC r).flags := by
    rw [State.setNZC, State.setReg_flags, State.setNZC]
  exact ⟨_, State.writeShifted_eq r hpc, hreg, hwritten, hnext, hkeeps⟩

/-- The bits of a shifted value and its carry settle the state it is written into. -/
theorem State.writeShifted_shiftInto (rd : LowReg) {r : Shifted} {bit : Nat → Bool} {c : Bool}
    (hbit : ∀ j, j < 32 → r.result.getLsbD j = bit j) (hcarry : r.carry.getD s.flags.c = c) :
    ∃ t, s.writeShifted rd r = .next t ∧ ShiftInto s rd bit c t := by
  obtain ⟨t, ht, hreg, hflags, hnext, hkeeps⟩ := State.writeShifted_result hpc rd r
  refine ⟨t, ht, ?_⟩
  rw [ShiftInto, hreg, hflags]
  exact ⟨hbit, s.setNZC_nzOf r, (s.setNZC_c r).trans hcarry, s.setNZC_v r, hnext, hkeeps⟩

theorem State.writeShifted_asrC (rd : LowReg) (v : Word) (n : Nat) :
    ∃ t, s.writeShifted rd (asrC v n) = .next t ∧
      ShiftInto s rd (signedBit v n) (signedOut v n s.flags.c) t :=
  State.writeShifted_shiftInto hpc rd (asrC_getLsbD v n) (asrC_carry v n _)

theorem State.writeShifted_lslC (rd : LowReg) (v : Word) (n : Nat) :
    ∃ t, s.writeShifted rd (lslC v n) = .next t ∧ ShiftInto s rd (leftBit v n) (leftOut v n s.flags.c) t :=
  State.writeShifted_shiftInto hpc rd (lslC_getLsbD v n) (lslC_carry v n _)

theorem State.writeShifted_lsrC (rd : LowReg) (v : Word) (n : Nat) :
    ∃ t, s.writeShifted rd (lsrC v n) = .next t ∧ ShiftInto s rd (rightBit v n) (rightOut v n s.flags.c) t :=
  State.writeShifted_shiftInto hpc rd (fun j _ => lsrC_getLsbD v n j) (lsrC_carry v n _)

theorem State.writeShifted_rorC (rd : LowReg) (v : Word) (n : Nat) :
    ∃ t, s.writeShifted rd (rorC v n) = .next t ∧
      ShiftInto s rd (rotatedBit v n) (rotatedOut v n s.flags.c) t :=
  State.writeShifted_shiftInto hpc rd (rorC_getLsbD v n) (rorC_carry v n _)

end

/-! ## The obligations -/

/-- Settles O30: the right shifts read their amount as 1 to 32, and LSL_1 reads it as it stands. -/
theorem immediateShiftResults : Obligations.ImmediateShiftResults := by
  intro s immed5 rm rd hpc
  rw [← rightAmount_eq_oneTo32]
  exact ⟨decode_readSHI rfl (by decide) immed5 rm rd, decode_readSHI rfl (by decide) immed5 rm rd,
    decode_readSHI rfl (by decide) immed5 rm rd, State.writeShifted_asrC hpc rd _ _,
    State.writeShifted_lslC hpc rd _ _, State.writeShifted_lsrC hpc rd _ _⟩

/-- Settles O31: as O30, with the low byte of Rs for the amount and the value of Rd shifted in place. -/
theorem registerShiftResults : Obligations.RegisterShiftResults := by
  intro s rs rd hpc
  rw [← registerAmount_eq_mod]
  exact ⟨decode_readALU rfl (by decide) rs rd, decode_readALU rfl (by decide) rs rd,
    decode_readALU rfl (by decide) rs rd, decode_readALU rfl (by decide) rs rd,
    State.writeShifted_asrC hpc rd _ _, State.writeShifted_lslC hpc rd _ _,
    State.writeShifted_lsrC hpc rd _ _, State.writeShifted_rorC hpc rd _ _⟩

end Sys2Proof.Machine

/-! The words of the branches: formats BC and B11 (30_encoding.md R82). -/

namespace Sys2Proof

theorem decode_readB11 {head : BitVec 5} {f : BitVec 11 → Instr}
    (hrows : (rowsWith (head.extractLsb' 0 5) 11 5 head).map Row.build = [readB11 f])
    (halloc : allocatedHead head = true) (v : BitVec 11) : decode (head ++ v) = .ok (f v) :=
  decode_of_head (by decide) rfl hrows halloc BitVec.extractLsb'_append_eq_left
    (congrArg (fun u => some (f u)) BitVec.extractLsb'_append_eq_right)

theorem ofCode_code (cond : Cond) : Cond.ofCode cond.code = some cond := by
  cases cond <;> rfl

theorem readBC_eq (f : Cond → BitVec 8 → Instr) {w : InstrWord} {cond : Cond} {v : BitVec 8}
    (hcode : w.extractLsb' 8 4 = cond.code) (hv : w.extractLsb' 0 8 = v) : readBC f w = some (f cond v) := by
  rw [readBC, hcode, ofCode_code, hv, Option.map_some]

/-- No condition has the code 1111, which is SWI's, so the eight top bits pick the row (30_encoding.md R101). -/
theorem rowsWith_b1 (cond : Cond) :
    (rowsWith ((0b1101#4 ++ cond.code).extractLsb' 3 5) 8 8 (0b1101#4 ++ cond.code)).map Row.build =
      [readBC .b1] := by
  cases cond <;> rfl

theorem allocatedHead_b1 : ∀ code : BitVec 4, allocatedHead (0b1101#4 ++ code) = true := by decide

theorem decode_b1 (cond : Cond) (d : BitVec 8) : decode (0b1101#4 ++ cond.code ++ d) = .ok (.b1 cond d) :=
  decode_of_head (by decide) rfl (rowsWith_b1 cond) (allocatedHead_b1 _) BitVec.extractLsb'_append_eq_left
    (readBC_eq .b1 (extractLsb'_append₂ ..) BitVec.extractLsb'_append_eq_right)

end Sys2Proof

/-! The branches (43_branch.md R190 to R193): the integers their displacements stand for, Table A.1, and the states a
branch and a call leave. -/

namespace Sys2Proof.Machine

open Sys2Proof Sys2Proof.Claims

/-! ## Displacements -/

/-- A signed field above `n` zeroes is `2 ^ n` times its value, sign-extended. -/
theorem signExtend_append_zero {w : Nat} (v : BitVec w) (n : Nat) :
    (v ++ 0#n).signExtend 32 = BitVec.ofInt 32 (2 ^ n * v.toInt) :=
  congrArg (BitVec.ofInt 32) BitVec.toInt_append_zero

theorem branchOffset_eq_ofInt {w : Nat} (v : BitVec w) : branchOffset v = BitVec.ofInt 32 (2 * v.toInt) :=
  signExtend_append_zero v 1

theorem blHigh_eq_ofInt (o : BitVec 11) : blHigh o = BitVec.ofInt 32 (4096 * o.toInt) :=
  signExtend_append_zero o 12

theorem State.blLow_sign {s : State} (h : s.cfg.blLowExt = .sign) (o : BitVec 11) :
    s.blLow o = BitVec.ofInt 32 (2 * o.toInt) := by
  rw [State.blLow, h]; exact signExtend_append_zero o 1

theorem State.blLow_zero {s : State} (h : s.cfg.blLowExt = .zero) (o : BitVec 11) :
    s.blLow o = BitVec.ofNat 32 (2 * o.toNat) := by
  have doubled : (o ++ 0#1).toNat = 2 * o.toNat := by
    rw [BitVec.toNat_append, Nat.shiftLeft_eq, Nat.mul_comm]; exact Nat.or_zero _
  rw [State.blLow, h, ← doubled, BitVec.ofNat_toNat]

/-! ## Table A.1 -/

/-- Each condition with an odd code is the negation of the one before it, so the table's test by code bits is the test
by name (00_scope.md R12). -/
theorem tablePasses_eq_conditionPassed (cond : Cond) (f : Flags) : tablePasses cond f = conditionPassed cond f := by
  cases cond with
  | eq | cs | mi | vs | hi | ge | gt => exact Bool.xor_false _
  | ne | cc | pl | vc | lt => exact Bool.xor_true _
  | ls =>
    calc tablePasses .ls f
      _ = !(f.c && !f.z) := Bool.xor_true _
      _ = (!f.c || f.z) := by rw [Bool.not_and, Bool.not_not]
  | le =>
    calc tablePasses .le f
      _ = !(!f.z && f.n == f.v) := Bool.xor_true _
      _ = (f.z || f.n != f.v) := by rw [Bool.not_and, Bool.not_not]; rfl
  | al => rfl

/-! ## The states a branch and a call leave -/

/-- The frame says nothing of the pc. -/
theorem keeps_pc {s t : State} {dests : List Reg} (h : Keeps s t dests) (v : Word) :
    Keeps s { t with pc := v } dests := by
  obtain ⟨hregs, hrest⟩ := h
  refine ⟨fun i hi hne => ?_, hrest⟩
  calc ({ t with pc := v } : State).reg i
    _ = t.reg i := State.reg_congr rfl hi
    _ = s.reg i := hregs i hi hne

theorem State.branchTo_branchesTo (s : State) (target : Word) :
    ∃ t, s.branchTo target = .next t ∧ BranchesTo s target [] t :=
  ⟨_, rfl, rfl, rfl, keeps_flags_pc s s.flags target⟩

theorem State.retire_branchesTo {s : State} (hpc : s.pc ≠ topPc) :
    ∃ t, s.retire = .next t ∧ BranchesTo s (s.pc + 2#32) [] t :=
  ⟨_, State.retire_of_ne hpc, rfl, rfl, keeps_flags_pc s s.flags _⟩

/-- A call writes the link value like a moved value and branches besides. -/
theorem State.call_branchesTo (s : State) (target : Word) :
    ∃ t, (s.setReg lrReg s.linkValue).branchTo target = .next t ∧
      t.reg lrReg = (s.pc + 2#32) ||| 1#32 ∧ BranchesTo s target [lrReg] t := by
  obtain ⟨-, hflags, -, hkeeps⟩ := s.setReg_nextPc_moveInto s.linkValue lrReg_ne_pcReg
  have hlink : (s.setReg lrReg s.linkValue).reg lrReg = s.linkValue := s.setReg_reg _ lrReg_ne_pcReg
  exact ⟨_, rfl, (State.reg_congr rfl lrReg_ne_pcReg).trans hlink, rfl, hflags, keeps_pc hkeeps target⟩

/-! ## The three ends of B_1 -/

theorem execB1_undefined {s : State} (h : s.cfg.cond1110 = .undefined) (d : BitVec 8) :
    execB1 .al d s = .fault (.undefinedInstruction (0b11011110#8 ++ d)) := if_pos ⟨rfl, h⟩

theorem execB1_taken {s : State} {cond : Cond} (hdefined : ¬ (cond = .al ∧ s.cfg.cond1110 = .undefined))
    (hpass : tablePasses cond s.flags = true) (d : BitVec 8) :
    execB1 cond d s = s.branchTo (s.pcValue + branchOffset d) := by
  rw [tablePasses_eq_conditionPassed] at hpass
  exact (if_neg hdefined).trans (if_pos hpass)

/-- The condition 1110 always passes, so the parameter has no say where the test fails. -/
theorem execB1_not_taken {s : State} {cond : Cond} (hfail : tablePasses cond s.flags = false) (d : BitVec 8) :
    execB1 cond d s = s.retire := by
  have hdefined : ¬ (cond = .al ∧ s.cfg.cond1110 = .undefined) := by
    rintro ⟨rfl, -⟩
    exact Bool.noConfusion hfail
  rw [tablePasses_eq_conditionPassed] at hfail
  exact (if_neg hdefined).trans (if_neg (Bool.eq_false_iff.1 hfail))

/-! ## The obligations -/

/-- Settles O33: the parameter decides whether condition 1110 has a meaning, and Table A.1 whether the branch is
taken. -/
theorem conditionalBranchResults : Obligations.ConditionalBranchResults := by
  intro s cond d
  rw [← branchOffset_eq_ofInt]
  refine ⟨decode_b1 cond d, ?undefined, fun hdefined hpass => ?taken, fun hfail hpc => ?notTaken⟩
  case undefined =>
    rintro rfl h
    exact execB1_undefined h d
  case taken =>
    have notUndefined : ¬ (cond = .al ∧ s.cfg.cond1110 = .undefined) := by
      rintro ⟨hal, hundefined⟩
      rcases hdefined with hne | halways
      · exact hne hal
      · exact Cond1110.noConfusion (hundefined.symm.trans halways)
    obtain ⟨t, ht, hbranch⟩ := s.branchTo_branchesTo (s.pcValue + branchOffset d)
    exact ⟨t, (execB1_taken notUndefined hpass d).trans ht, hbranch⟩
  case notTaken =>
    obtain ⟨t, ht, hnext⟩ := State.retire_branchesTo hpc
    exact ⟨t, (execB1_not_taken hfail d).trans ht, hnext⟩

/-- Settles O34: the branch is B_1's when taken, with a wider immediate and no check. -/
theorem unconditionalBranchResults : Obligations.UnconditionalBranchResults := by
  intro s d
  rw [← branchOffset_eq_ofInt]
  exact ⟨decode_readB11 rfl (by decide) d, s.branchTo_branchesTo _⟩

/-- Settles O35: the first half writes LR back, the second is a call whose low part depends on `BL_LOW_EXT`. -/
theorem branchWithLinkResults : Obligations.BranchWithLinkResults := by
  intro s o
  rw [← blHigh_eq_ofInt]
  refine ⟨decode_readB11 rfl (by decide) o, decode_readB11 rfl (by decide) o,
    State.writeBack_moveInto _ lrReg_ne_pcReg, ?call⟩
  case call =>
    obtain ⟨t, ht, hlink, hpc, hflags, hkeeps⟩ := s.call_branchesTo (clearBit0 (s.blTarget o))
    have hbit0 : t.pc.getLsbD 0 = false := hpc ▸ clearBit0_getLsbD_zero _
    have hbits (j : Nat) (hj : 1 ≤ j) : t.pc.getLsbD j = (s.reg lrReg + s.blLow o).getLsbD j := by
      rw [hpc, clearBit0_getLsbD, decide_eq_true hj, Bool.and_true, State.blTarget]
    refine ⟨t, ht, hlink, hbit0, ?_, hflags, hkeeps⟩
    cases hext : s.cfg.blLowExt with
    | zero => exact State.blLow_zero hext o ▸ hbits
    | sign => exact State.blLow_sign hext o ▸ hbits

end Sys2Proof.Machine

/-! The words of PUSH and POP (format PP, 30_encoding.md R82, R86). -/

namespace Sys2Proof

theorem readPP_eq (f : Bool → BitVec 8 → Instr) {w : InstrWord} {r : Bool} {v : BitVec 8}
    (hr : w.extractLsb' 8 1 = BitVec.ofBool r) (hv : w.extractLsb' 0 8 = v) : readPP f w = some (f r v) := by
  have hbit : w.getLsbD 8 = r := by
    have hfield : (w.extractLsb' 8 1).getLsbD 0 = w.getLsbD 8 := by simp
    rw [← hfield, hr, BitVec.getLsbD_ofBool]
    simp
  rw [readPP, hbit, hv]

/-- `R` stands in the eight top bits, which pick the row in the miscellaneous group (30_encoding.md R93). -/
theorem decode_readPP {head : BitVec 7} {f : Bool → BitVec 8 → Instr} {r : Bool}
    (hrows : (rowsWith ((head ++ BitVec.ofBool r).extractLsb' 3 5) 8 8 (head ++ BitVec.ofBool r)).map Row.build =
      [readPP f])
    (halloc : allocatedHead (head ++ BitVec.ofBool r) = true) (v : BitVec 8) :
    decode (head ++ BitVec.ofBool r ++ v) = .ok (f r v) :=
  decode_of_head (by decide) rfl hrows halloc BitVec.extractLsb'_append_eq_left
    (readPP_eq f (extractLsb'_append₂ ..) BitVec.extractLsb'_append_eq_right)

theorem decode_pop (r : Bool) (list : BitVec 8) : decode (0b1011110#7 ++ BitVec.ofBool r ++ list) = .ok (.pop r list) :=
  decode_readPP (by cases r <;> rfl) (by cases r <;> rfl) list

theorem decode_push (r : Bool) (list : BitVec 8) :
    decode (0b1011010#7 ++ BitVec.ofBool r ++ list) = .ok (.push r list) :=
  decode_readPP (by cases r <;> rfl) (by cases r <;> rfl) list

end Sys2Proof

/-! The block transfers (45_load_store_multiple.md): the places of a list's registers, how `CheckBlock` stops, and the
states that loading and storing a block leave. -/

namespace Sys2Proof.Machine

open Sys2Proof Sys2Proof.Claims

/-! ## The places of the registers of a list -/

theorem size_eq_zero_iff {list : BitVec 8} : size list = 0 ↔ list = 0#8 := by
  constructor
  · intro h
    have none_listed : ∀ j ∈ List.range 8, ¬ list.getLsbD j = true := List.countP_eq_zero.1 h
    refine BitVec.eq_of_getLsbD_eq fun j hj => ?_
    rw [BitVec.getLsbD_zero]
    exact Bool.eq_false_iff.2 (none_listed j (List.mem_range.2 hj))
  · rintro rfl
    rfl

theorem lowRegs_split : ∀ i : LowReg, lowRegs = lowRegs.take i.val ++ i :: lowRegs.drop (i.val + 1) := by decide

theorem map_val_take_lowRegs : ∀ i : LowReg, (lowRegs.take i.val).map Fin.val = List.range i.val := by decide

theorem length_filter_take_lowRegs (list : BitVec 8) (i : LowReg) :
    ((lowRegs.take i.val).filter (listed list)).length = rank list i.val := by
  rw [← List.countP_eq_length_filter, rank, ← map_val_take_lowRegs i, List.countP_map]
  rfl

/-- A listed register stands after as many others as its rank says (45_load_store_multiple.md R220). -/
theorem getElem?_listRegs_rank {list : BitVec 8} {i : LowReg} (h : list.getLsbD i.val = true) :
    (listRegs list)[rank list i.val]? = some (lo i) := by
  have hlisted : listed list i = true := h
  rw [listRegs, lowRegs_split i, List.filter_append, List.filter_cons_of_pos hlisted, List.getElem?_map,
    ← length_filter_take_lowRegs, List.getElem?_append_right (Nat.le_refl _), Nat.sub_self]
  rfl

theorem getElem?_listRegsWith_rank {list : BitVec 8} {i : LowReg} (r : Bool) (extra : Reg)
    (h : list.getLsbD i.val = true) : (listRegsWith list r extra)[rank list i.val]? = some (lo i) := by
  have hplace := getElem?_listRegs_rank h
  obtain ⟨hlt, -⟩ := List.getElem?_eq_some_iff.1 hplace
  exact (List.getElem?_append_left hlt).trans hplace

theorem getElem?_listRegsWith_size (list : BitVec 8) (extra : Reg) :
    (listRegsWith list true extra)[size list]? = some extra := by
  rw [← length_listRegs]
  exact List.getElem?_concat_length

theorem length_listRegsWith (list : BitVec 8) (r : Bool) (extra : Reg) :
    (listRegsWith list r extra).length = size list + r.toNat := by
  cases r with
  | false => rw [listRegsWith, List.length_append, length_listRegs]; rfl
  | true => exact length_listRegsWith_true list extra

/-- The first register found when the list is scanned from bit 0 is the one of rank 0. -/
theorem firstListed_of_rank {list : BitVec 8} {i : LowReg} (h : list.getLsbD i.val = true)
    (hrank : rank list i.val = 0) : firstListed list = some (lo i) := by
  have hplace := getElem?_listRegs_rank h
  rwa [hrank, ← List.head?_eq_getElem?] at hplace

theorem exists_firstListed {list : BitVec 8} (h : list ≠ 0#8) : ∃ i : LowReg, firstListed list = some (lo i) := by
  cases hregs : listRegs list with
  | nil =>
    have hsize := length_listRegs list
    rw [hregs] at hsize
    exact absurd (size_eq_zero_iff.1 hsize.symm) h
  | cons r rest =>
    obtain ⟨i, -, rfl⟩ := mem_listRegs.1 (hregs ▸ List.mem_cons_self : r ∈ listRegs list)
    exact ⟨i, by rw [firstListed, hregs, List.head?_cons]⟩

theorem lo_not_mem_listRegs {list : BitVec 8} {i : LowReg} (h : list.getLsbD i.val = false) :
    lo i ∉ listRegs list := by
  intro hmem
  obtain ⟨j, hj, heq⟩ := mem_listRegs.1 hmem
  rw [(lo_inj i j).1 heq, hj] at h
  exact Bool.noConfusion h

theorem spReg_not_mem_listRegs {list : BitVec 8} : spReg ∉ listRegs list := fun h => listRegs_ne_spReg h rfl

theorem pcReg_not_mem_listRegs {list : BitVec 8} : pcReg ∉ listRegs list := fun h => listRegs_ne_pcReg h rfl

theorem pcReg_not_mem_singleton (i : LowReg) : pcReg ∉ [lo i] :=
  fun h => lo_ne_pcReg i (List.mem_singleton.1 h).symm

theorem spReg_not_mem_singleton (i : LowReg) : spReg ∉ [lo i] :=
  fun h => lo_ne_spReg i (List.mem_singleton.1 h).symm

theorem nothing_of_size_add_eq_zero {list : BitVec 8} {r : Bool} (h : size list + r.toNat = 0) :
    r = false ∧ list = 0#8 := by
  obtain ⟨hsize, hr⟩ := Nat.add_eq_zero_iff.1 h
  exact ⟨Bool.toNat_eq_zero.1 hr, size_eq_zero_iff.1 hsize⟩

/-- A listed base passes STMIA's check when no listed register is below it. -/
theorem head?_listRegs_of_not_misplaced {list : BitVec 8} {i : LowReg}
    (h : ¬ (list.getLsbD i.val = true ∧ rank list i.val ≠ 0)) :
    ¬ (listed list i = true ∧ (listRegs list).head? ≠ some (lo i)) := by
  rintro ⟨hlisted, hhead⟩
  exact h ⟨hlisted, fun hrank => hhead (firstListed_of_rank hlisted hrank)⟩

/-! ## Addresses, block sizes and the loaded pc -/

theorem wordAddr_zero (start : Word) : wordAddr start 0 = start := BitVec.add_zero start

theorem blockBytes_one : blockBytes 1 = 4#32 := rfl

/-- An odd address with its bit 0 dropped. -/
theorem clearBit0_eq_sub_one {v : Word} (h : v.getLsbD 0 = true) : clearBit0 v = v - 1#32 := by
  have hodd : v.toNat % 2 = 1 := by simpa [BitVec.getLsbD, Nat.testBit_zero] using h
  have heven := clearBit0_toNat v
  bv_omega

/-! ## `CheckBlock` (45_load_store_multiple.md R220) -/

section
variable {s : State} {start : Word} {k : Nat}

theorem State.checkBlock_of_blockOk (h : BlockOk s start k) : s.checkBlock start k = none :=
  State.checkBlock_eq_none.2 h

theorem State.checkBlock_of_misaligned (hk : k ≠ 0) (h : start.toNat % 4 ≠ 0) :
    s.checkBlock start k = some (.fault (.alignmentFault start .word)) := by
  rw [State.checkBlock, if_neg hk, if_pos h]

theorem State.checkBlock_of_wrap (hk : k ≠ 0) (halign : start.toNat % 4 = 0) (h : 2 ^ 32 < start.toNat + 4 * k) :
    s.checkBlock start k = some (.refusal (.unpredictable .addressWrap)) := by
  rw [State.checkBlock, if_neg hk, if_neg (not_not.2 halign)]
  exact if_pos h

theorem State.admitsAll_wordAddr {j : Nat} (h : start.toNat + 4 * j < 2 ^ 32) :
    s.admitsAll (wordAddr start j) .word = true ↔ Admitted s (start.toNat + 4 * j) 4 := by
  rw [State.admitsAll_iff, wordAddr_toNat h]
  rfl

/-- The words are checked upward, so the first one outside `MEM` is reported. -/
theorem State.checkBlock_of_not_admitted {j : Nat} (hj : j < k) (halign : start.toNat % 4 = 0)
    (hwrap : start.toNat + 4 * k ≤ 2 ^ 32) (hbelow : Admitted s start.toNat (4 * j))
    (hout : ¬ Admitted s (start.toNat + 4 * j) 4) :
    s.checkBlock start k = some (.fault (.memoryNotAdmitted (wordAddr start j) .word)) := by
  have inside (i : Nat) (hi : i < j) : s.admitsAll (wordAddr start i) .word = true :=
    (State.admitsAll_wordAddr (by omega)).2 fun x hlow hhigh => hbelow x (by omega) (by omega)
  have outside : ¬ s.admitsAll (wordAddr start j) .word = true :=
    fun hall => hout ((State.admitsAll_wordAddr (by omega)).1 hall)
  have hfind : (List.range k).find? (fun i => !s.admitsAll (wordAddr start i) .word) = some j := by
    rw [List.find?_range_eq_some]
    exact ⟨by simpa using outside, List.mem_range.2 hj, fun i hi => by simp [inside i hi]⟩
  rw [State.checkBlock, if_neg (by omega), if_neg (not_not.2 halign), if_neg (by omega), hfind]

/-- An instruction that checks the block first stops as `CheckBlock` says. -/
theorem stopsAt_of_exec {i : Instr} {next : Result} (hk : k ≠ 0)
    (h : exec i s = afterCheck (s.checkBlock start k) next) : StopsAt i s start k := by
  refine ⟨fun hmis => ?misaligned, fun halign hover => ?wraps, fun halign hwrap j hj hbelow hout => ?absent⟩
  case misaligned => rw [h, State.checkBlock_of_misaligned hk hmis]; rfl
  case wraps => rw [h, State.checkBlock_of_wrap hk halign hover]; rfl
  case absent => rw [h, State.checkBlock_of_not_admitted hj halign hwrap hbelow hout]; rfl

/-- Each word of a block that passes its checks can be read. -/
theorem accessible_of_blockOk {j : Nat} (h : BlockOk s start k) (hj : j < k) :
    Accessible s (wordAddr start j) Width.word.bytes := by
  obtain ⟨-, halign, hwrap, hadmitted⟩ := h
  rw [Accessible, wordAddr_toNat (by omega)]
  refine ⟨?aligned, fun x hlow hhigh => ?admitted⟩
  case aligned => simp only [Width.bytes]; omega
  case admitted =>
    simp only [Width.bytes] at hhigh
    exact hadmitted x (by omega) (by omega)

end

/-! ## How a transfer ends -/

theorem afterCheck_none (k : Result) : afterCheck none k = k := rfl

/-- The end of an instruction whose writes left the pc alone. -/
theorem State.retire_of_pc_eq {s u : State} (h : u.pc = s.pc) :
    u.retire = s.unlessTop (.next { u with pc := s.nextPc }) := by
  rw [State.retire, State.unlessTop, State.unlessTop, State.nextPc, h, ← State.nextPc]

theorem exec_eq_next_of_checks {i : Instr} {s t : State} {check : Option Stop}
    (h : exec i s = afterCheck check (s.unlessTop (.next t))) (hcheck : check = none) (hpc : s.pc ≠ topPc) :
    exec i s = .next t := by
  rw [h, hcheck, afterCheck_none, State.unlessTop_of_ne hpc]

/-! ## Loading a block -/

/-- The state after `regs` are loaded from the `k` words at `base` upward, `base` rises by their size and the pc goes to
`next` (45_load_store_multiple.md R221, R222). -/
def State.loadBlock (s : State) (base : Reg) (regs : List Reg) (k : Nat) (next : Word) : State :=
  { (s.setRegs (regs.zip (s.peekWords (s.reg base) k))).setReg base (s.reg base + blockBytes k) with pc := next }

section
variable {s : State} {base : Reg} {regs : List Reg} {k : Nat} {next : Word}

theorem State.loadBlock_retire (hbase : base ≠ pcReg) (hpc : pcReg ∉ regs) :
    ((s.setRegs (regs.zip (s.peekWords (s.reg base) k))).setReg base (s.reg base + blockBytes k)).retire =
      s.unlessTop (.next (s.loadBlock base regs k s.nextPc)) :=
  State.retire_of_pc_eq ((State.setReg_pc _ _ hbase).trans (State.setRegs_zip_pc s regs _ hpc))

theorem State.loadBlock_base (hbase : base ≠ pcReg) :
    (s.loadBlock base regs k next).reg base = s.reg base + blockBytes k :=
  calc (s.loadBlock base regs k next).reg base
    _ = ((s.setRegs (regs.zip (s.peekWords (s.reg base) k))).setReg base (s.reg base + blockBytes k)).reg base :=
      State.reg_congr rfl hbase
    _ = s.reg base + blockBytes k := State.setReg_reg _ _ hbase

@[simp] theorem State.loadBlock_flags : (s.loadBlock base regs k next).flags = s.flags := by simp [State.loadBlock]

/-- Register `j` of the list takes word `j` of the block. -/
theorem State.loadBlock_reg (hnodup : regs.Nodup) (hpc : pcReg ∉ regs) (hbase : base ∉ regs) (hk : regs.length ≤ k)
    {j : Nat} {r : Reg} (hj : regs[j]? = some r) :
    (s.loadBlock base regs k next).reg r = s.peek (wordAddr (s.reg base) j) .word := by
  obtain ⟨hlt, rfl⟩ := List.getElem?_eq_some_iff.1 hj
  have hmem : regs[j] ∈ regs := List.getElem_mem hlt
  have hne : regs[j] ≠ pcReg := fun h => hpc (h ▸ hmem)
  calc (s.loadBlock base regs k next).reg regs[j]
    _ = ((s.setRegs (regs.zip (s.peekWords (s.reg base) k))).setReg base _).reg regs[j] := State.reg_congr rfl hne
    _ = (s.setRegs (regs.zip (s.peekWords (s.reg base) k))).reg regs[j] :=
      State.setReg_reg_ne _ _ hne fun h => hbase (h ▸ hmem)
    _ = s.peek (wordAddr (s.reg base) j) .word := State.setRegs_peekWords_reg s regs _ k j hlt hk hnodup hne

theorem State.loadBlock_keeps : Keeps s (s.loadBlock base regs k next) (base :: regs) := by
  refine ⟨fun i hi hnot => ?regs, ⟨fun a => ?mem, ?stored⟩, ?t, ?halted, ?trap, ?cfg⟩
  case regs =>
    obtain ⟨hbase, hregs⟩ := List.ne_and_not_mem_of_not_mem_cons hnot
    calc (s.loadBlock base regs k next).reg i
      _ = ((s.setRegs (regs.zip (s.peekWords (s.reg base) k))).setReg base _).reg i := State.reg_congr rfl hi
      _ = (s.setRegs (regs.zip (s.peekWords (s.reg base) k))).reg i := State.setReg_reg_ne _ _ hi hbase
      _ = s.reg i := State.setRegs_zip_reg_ne s regs _ hi hregs
  case mem | stored | t | halted | trap | cfg => simp [State.loadBlock]

/-- Each register of a list takes the word at its rank. -/
theorem State.loadBlock_loadedFrom {list : BitVec 8} (hbase : base ∉ listRegs list) (hk : size list ≤ k)
    (hblock : BlockOk s (s.reg base) k) :
    LoadedFrom s (s.loadBlock base (listRegs list) k next) (s.reg base) list := by
  intro i hi
  have hplace := getElem?_listRegs_rank hi
  obtain ⟨hlt, -⟩ := List.getElem?_eq_some_iff.1 hplace
  rw [← length_listRegs] at hk
  rw [State.loadBlock_reg (listRegs_nodup list) pcReg_not_mem_listRegs hbase hk hplace]
  exact State.memRead_of_accessible (accessible_of_blockOk hblock (by omega))

/-- The only register of a block of one takes the word at SP, as in the HDL profile's POP. -/
theorem State.loadBlock_single (i : LowReg) :
    (s.loadBlock spReg [lo i] 1 next).reg (lo i) = s.peek (s.reg spReg) .word := by
  rw [State.loadBlock_reg (List.nodup_singleton _) (pcReg_not_mem_singleton i) (spReg_not_mem_singleton i)
    (Nat.le_refl 1) (j := 0) rfl, wordAddr_zero]

end

theorem keeps_swap {s t : State} {i j : Reg} (h : Keeps s t [i, j]) : Keeps s t [j, i] := by
  obtain ⟨hregs, hrest⟩ := h
  exact ⟨fun x hx hnot => hregs x hx fun hmem => hnot ((List.Perm.swap j i []).mem_iff.1 hmem), hrest⟩

/-! ## Storing a block -/

/-- The state after `regs` are stored from `start` upward, `base` takes `v` and the next instruction follows
(45_load_store_multiple.md R223, R224). -/
def State.storeBlock (s : State) (base : Reg) (regs : List Reg) (start v : Word) : State :=
  { (s.pokeWords start (regs.map s.reg)).setReg base v with pc := s.nextPc }

section
variable {s : State} {base : Reg} {regs : List Reg} {start v : Word}

theorem State.storeBlock_retire (hbase : base ≠ pcReg) :
    ((s.pokeWords start (regs.map s.reg)).setReg base v).retire =
      s.unlessTop (.next (s.storeBlock base regs start v)) :=
  State.retire_of_pc_eq ((State.setReg_pc _ _ hbase).trans (State.pokeWords_pc ..))

theorem State.storeBlock_base (hbase : base ≠ pcReg) : (s.storeBlock base regs start v).reg base = v :=
  calc (s.storeBlock base regs start v).reg base
    _ = ((s.pokeWords start (regs.map s.reg)).setReg base v).reg base := State.reg_congr rfl hbase
    _ = v := State.setReg_reg _ _ hbase

@[simp] theorem State.storeBlock_flags : (s.storeBlock base regs start v).flags = s.flags := by
  simp [State.storeBlock]

@[simp] theorem State.storeBlock_cfg : (s.storeBlock base regs start v).cfg = s.cfg := by
  simp [State.storeBlock]

@[simp] theorem State.storeBlock_mem :
    (s.storeBlock base regs start v).mem = (s.pokeWords start (regs.map s.reg)).mem := by
  simp [State.storeBlock]

@[simp] theorem State.storeBlock_stored :
    (s.storeBlock base regs start v).stored = (s.pokeWords start (regs.map s.reg)).stored := by
  simp [State.storeBlock]

/-- Word `j` of the block reads back as what register `j` of the list held, the base included. -/
theorem State.memRead_storeBlock (hblock : BlockOk s start regs.length) {j : Nat} {r : Reg}
    (hj : regs[j]? = some r) :
    (s.storeBlock base regs start v).memRead (wordAddr start j) .word = .ok (s.reg r) := by
  obtain ⟨hlt, rfl⟩ := List.getElem?_eq_some_iff.1 hj
  obtain ⟨haligned, hadmitted⟩ := accessible_of_blockOk hblock hlt
  obtain ⟨-, -, hwrap, -⟩ := hblock
  have haccess : Accessible (s.storeBlock base regs start v) (wordAddr start j) Width.word.bytes :=
    ⟨haligned, fun x hlow hhigh => by rw [State.storeBlock_cfg]; exact hadmitted x hlow hhigh⟩
  have hpeek : (s.storeBlock base regs start v).peek (wordAddr start j) .word =
      (s.pokeWords start (regs.map s.reg)).peek (wordAddr start j) .word :=
    State.peek_congr (by simp) fun x _ _ => by rw [State.storeBlock_mem]
  rw [State.memRead_of_accessible haccess, hpeek,
    State.peek_pokeWords s start (regs.map s.reg) j (by simpa using hlt) (by simpa using hwrap), List.getElem_map]

theorem State.storeBlock_keepsBut (hblock : BlockOk s start regs.length) :
    KeepsBut s (s.storeBlock base regs start v) [base] start.toNat (4 * regs.length) := by
  obtain ⟨-, -, hwrap, -⟩ := hblock
  have hlen : (regs.map s.reg).length = regs.length := List.length_map ..
  refine ⟨fun i hi hnot => ?regs, ?t, ⟨?halted, ?trap, s.storeBlock_cfg⟩, fun x hx => ?bytes,
    fun hsmc x => ?stored, fun hsmc => ?coherent⟩
  case regs =>
    calc (s.storeBlock base regs start v).reg i
      _ = ((s.pokeWords start (regs.map s.reg)).setReg base v).reg i := State.reg_congr rfl hi
      _ = (s.pokeWords start (regs.map s.reg)).reg i := State.setReg_reg_ne _ _ hi (List.ne_of_not_mem_cons hnot)
      _ = s.reg i := State.pokeWords_reg ..
  case t | halted | trap => simp [State.storeBlock]
  case bytes =>
    rw [State.storeBlock_mem]
    exact State.pokeWords_byteAt_of_not_mem s start _ x (hlen ▸ hwrap) (hlen ▸ hx)
  case stored =>
    rw [State.storeBlock_stored, State.mem_pokeWords_stored (hlen ▸ hwrap) hsmc, hlen]
  case coherent =>
    rw [State.storeBlock_stored, State.pokeWords_stored_coherent hsmc]

end

/-! ## The meanings past their refusals -/

section
variable {s : State} {rn : LowReg} {list : BitVec 8}

theorem length_listRegs_ne_zero_of_ne (h : list ≠ 0#8) : (listRegs list).length ≠ 0 := by
  rw [length_listRegs]
  exact fun hsize => h (size_eq_zero_iff.1 hsize)

theorem execLdmia_eq (harch : s.cfg.profile = .arch) (hne : list ≠ 0#8) (hbase : list.getLsbD rn.val = false) :
    execLdmia rn list s = afterCheck (s.checkBlock (s.reg (lo rn)) (size list))
      (s.unlessTop (.next (s.loadBlock (lo rn) (listRegs list) (size list) s.nextPc))) := by
  have notListed : ¬ listed list rn = true := Bool.eq_false_iff.1 hbase
  rw [← State.loadBlock_retire (lo_ne_pcReg rn) pcReg_not_mem_listRegs, ← length_listRegs]
  exact (State.archOnly_arch harch).trans
    ((if_neg (length_listRegs_ne_zero_of_ne hne)).trans (if_neg notListed))

theorem execStmia_eq (harch : s.cfg.profile = .arch) (hne : list ≠ 0#8)
    (hbase : ¬ (list.getLsbD rn.val = true ∧ rank list rn.val ≠ 0)) :
    execStmia rn list s = afterCheck (s.checkBlock (s.reg (lo rn)) (listRegs list).length)
      (s.unlessTop (.next (s.storeBlock (lo rn) (listRegs list) (s.reg (lo rn))
        (s.reg (lo rn) + blockBytes (listRegs list).length)))) := by
  rw [← State.storeBlock_retire (lo_ne_pcReg rn)]
  exact (State.archOnly_arch harch).trans
    ((if_neg (length_listRegs_ne_zero_of_ne hne)).trans (if_neg (head?_listRegs_of_not_misplaced hbase)))

theorem execPop_false_eq (harch : s.cfg.profile = .arch) :
    execPop false list s = afterCheck (s.checkBlock (s.reg spReg) (size list))
      (s.unlessTop (.next (s.loadBlock spReg (listRegs list) (size list) s.nextPc))) := by
  rw [← State.loadBlock_retire spReg_ne_pcReg pcReg_not_mem_listRegs]
  simp only [execPop, harch, State.popBlock, length_listRegsWith, Bool.toNat_false, Nat.add_zero, Bool.false_eq_true,
    if_false]

theorem execPop_true_eq (harch : s.cfg.profile = .arch) :
    execPop true list s = afterCheck (s.checkBlock (s.reg spReg) (size list + 1))
      (let target := s.peek (wordAddr (s.reg spReg) (size list)) .word
      if target.getLsbD 0 then .next (s.loadBlock spReg (listRegs list) (size list + 1) (clearBit0 target))
      else unpredictable .popPcBit0) := by
  simp only [execPop, harch, State.popBlock, length_listRegsWith, Bool.toNat_true, Nat.add_sub_cancel, if_true]
  rfl

/-- The last word of the block is the branch target, and an odd one is accepted at every pc. -/
theorem execPop_true_of_bit0 (harch : s.cfg.profile = .arch) (hblock : BlockOk s (s.reg spReg) (size list + 1))
    {v : Word} (hread : s.memRead (wordAddr (s.reg spReg) (size list)) .word = .ok v) (hbit : v.getLsbD 0 = true) :
    execPop true list s = .next (s.loadBlock spReg (listRegs list) (size list + 1) (clearBit0 v)) := by
  obtain ⟨-, rfl⟩ := State.memRead_eq_ok.1 hread
  rw [execPop_true_eq harch, State.checkBlock_of_blockOk hblock, afterCheck_none]
  exact if_pos hbit

theorem execPop_hdl_empty (hhdl : s.cfg.profile = .hdl) (r : Bool) :
    execPop r 0#8 s = .refused (.unpredictable .emptyList) := by
  rw [execPop, hhdl]
  rfl

/-- The HDL profile's POP is the block of the one register its scan finds. -/
theorem execPop_hdl_eq (hhdl : s.cfg.profile = .hdl) (r : Bool) {i : LowReg} (hi : firstListed list = some (lo i)) :
    execPop r list s = afterCheck (s.checkBlock (s.reg spReg) 1)
      (s.unlessTop (.next (s.loadBlock spReg [lo i] 1 s.nextPc))) := by
  have hwords : s.peekWords (s.reg spReg) 1 = [s.peek (s.reg spReg) .word] :=
    congrArg (fun a => [s.peek a .word]) (wordAddr_zero _)
  rw [← State.loadBlock_retire spReg_ne_pcReg (pcReg_not_mem_singleton i), hwords, execPop, hhdl]
  simp only [State.popSingle, hi]
  rfl

/-- Past the checks of R223, PUSH is a block of stores below SP. -/
theorem State.pushRegs_eq (regs : List Reg) :
    s.pushRegs regs = afterCheck (s.checkPush regs.length) (s.unlessTop (.next
      (s.storeBlock spReg regs (s.reg spReg - blockBytes regs.length) (s.reg spReg - blockBytes regs.length)))) := by
  rw [← State.storeBlock_retire spReg_ne_pcReg]
  rfl

theorem State.checkPush_of_low {k : Nat} (hk : k ≠ 0) (h : (s.reg spReg).toNat < 4 * k) :
    s.checkPush k = some (.refusal (.unpredictable .addressWrap)) := by
  rw [State.checkPush, if_neg hk, if_pos h]

theorem State.checkPush_of_room {k : Nat} (hk : k ≠ 0) (h : 4 * k ≤ (s.reg spReg).toNat) :
    s.checkPush k = s.checkBlock (s.reg spReg - blockBytes k) k := by
  rw [State.checkPush, if_neg hk, if_neg (Nat.not_lt.2 h)]

theorem exec_push (r : Bool) : exec (.push r list) s = execPush r list s := rfl

theorem exec_push_arch (harch : s.cfg.profile = .arch) (r : Bool) :
    exec (.push r list) s = s.pushRegs (listRegsWith list r lrReg) := by rw [exec_push, execPush, harch]

theorem exec_push_hdl (hhdl : s.cfg.profile = .hdl) (r : Bool) {i : LowReg} (hi : firstListed list = some (lo i)) :
    exec (.push r list) s = s.pushRegs [lo i] := by
  rw [exec_push, execPush, hhdl, hi]
  rfl

theorem execPush_hdl_empty (hhdl : s.cfg.profile = .hdl) (r : Bool) :
    execPush r 0#8 s = .refused (.unpredictable .emptyList) := by
  rw [execPush, hhdl]
  rfl

end

section
variable {i : Instr} {s : State} {regs : List Reg} (hexec : exec i s = s.pushRegs regs)
include hexec

theorem pushRegs_refuses_low (hne : regs.length ≠ 0) (h : (s.reg spReg).toNat < 4 * regs.length) :
    exec i s = .refused (.unpredictable .addressWrap) := by
  rw [hexec, State.pushRegs_eq, State.checkPush_of_low hne h]
  rfl

theorem pushRegs_stopsAt (hne : regs.length ≠ 0) (h : 4 * regs.length ≤ (s.reg spReg).toNat) :
    StopsAt i s (s.reg spReg - blockBytes regs.length) regs.length :=
  stopsAt_of_exec hne (hexec.trans (State.checkPush_of_room hne h ▸ State.pushRegs_eq regs))

/-- A push of `regs` with room for them completes: each stands at its place above the new SP. -/
theorem pushRegs_gives (hroom : 4 * regs.length ≤ (s.reg spReg).toNat)
    (hblock : BlockOk s (s.reg spReg - blockBytes regs.length) regs.length) (hpc : s.pc ≠ topPc) :
    Gives i s (fun t =>
      (∀ j r, regs[j]? = some r →
        t.memRead (wordAddr (s.reg spReg - blockBytes regs.length) j) .word = .ok (s.reg r)) ∧
      t.reg spReg = s.reg spReg - blockBytes regs.length ∧ t.flags = s.flags ∧ t.pc = s.pc + 2#32 ∧
      KeepsBut s t [spReg] (s.reg spReg - blockBytes regs.length).toNat (4 * regs.length)) := by
  have hcheck := (State.checkPush_of_room hblock.1 hroom).trans (State.checkBlock_of_blockOk hblock)
  exact ⟨_, exec_eq_next_of_checks (hexec.trans (State.pushRegs_eq regs)) hcheck hpc,
    fun j r hj => State.memRead_storeBlock hblock hj, State.storeBlock_base spReg_ne_pcReg, State.storeBlock_flags,
    rfl, State.storeBlock_keepsBut hblock⟩

end

/-! ## The obligations -/

/-- Settles O53: past the refusals LDMIA is `CheckBlock` and then a loaded block, whose words stand by rank. -/
theorem loadMultipleResults : Obligations.LoadMultipleResults := by
  intro s rn list start
  refine ⟨decode_readRI8 rfl (by decide) rn list, fun hhdl => State.archOnly_hdl hhdl, fun harch =>
    ⟨fun hempty => ?empty, execLdmia_base harch, fun hne hbase => ?stops, fun hbase hblock hpc => ?completes⟩⟩
  case empty => exact hempty ▸ execLdmia_empty harch rn
  case stops =>
    have hsize : size list ≠ 0 := fun h => hne (size_eq_zero_iff.1 h)
    exact stopsAt_of_exec hsize (execLdmia_eq harch hne hbase)
  case completes =>
    have hne : list ≠ 0#8 := fun h => hblock.1 (size_eq_zero_iff.2 h)
    have hnot : lo rn ∉ listRegs list := lo_not_mem_listRegs hbase
    exact ⟨_, exec_eq_next_of_checks (execLdmia_eq harch hne hbase) (State.checkBlock_of_blockOk hblock) hpc,
      State.loadBlock_loadedFrom hnot (Nat.le_refl _) hblock, State.loadBlock_base (lo_ne_pcReg rn),
      State.loadBlock_flags, rfl, State.loadBlock_keeps⟩

/-- Settles O54: past the refusals STMIA is `CheckBlock` and then a stored block, read before the base is written. -/
theorem storeMultipleResults : Obligations.StoreMultipleResults := by
  intro s rn list
  dsimp only
  rw [← length_listRegs list]
  refine ⟨decode_readRI8 rfl (by decide) rn list, fun hhdl => State.archOnly_hdl hhdl, fun harch =>
    ⟨fun hempty => ?empty, fun ⟨hlisted, hrank⟩ => execStmia_base harch hlisted hrank, fun hne hbase => ?stops,
      fun hbase hblock hpc => ?completes⟩⟩
  case empty => exact hempty ▸ execStmia_empty harch rn
  case stops => exact stopsAt_of_exec (length_listRegs_ne_zero_of_ne hne) (execStmia_eq harch hne hbase)
  case completes =>
    have hne : list ≠ 0#8 := fun h => hblock.1 (h ▸ rfl)
    exact ⟨_, exec_eq_next_of_checks (execStmia_eq harch hne hbase) (State.checkBlock_of_blockOk hblock) hpc,
      fun i hi => State.memRead_storeBlock hblock (getElem?_listRegs_rank hi), State.storeBlock_base (lo_ne_pcReg rn),
      State.storeBlock_flags, rfl, State.storeBlock_keepsBut hblock⟩

/-- Settles O55: in ARCH a loaded block, with `R = 1` one word longer, in HDL the block of one register. -/
theorem popResults : Obligations.PopResults := by
  intro s r list start k
  refine ⟨decode_pop r list, fun harch => ⟨fun hk => ?empty, fun hk => ?stops,
    fun hblock hpc => ?registers, fun v hblock hread => ⟨execPop_pc_bit0 harch hblock hread, fun hbit => ?pc⟩⟩,
    fun hhdl => ⟨fun hempty => ?hdlEmpty, fun hne => ?hdlStops, fun i hi hrank hblock hpc => ?hdl⟩⟩
  case empty =>
    obtain ⟨rfl, rfl⟩ := nothing_of_size_add_eq_zero hk
    exact execPop_nothing s
  case stops =>
    cases r with
    | false => exact stopsAt_of_exec hk (execPop_false_eq harch)
    | true => exact stopsAt_of_exec hk (execPop_true_eq harch)
  case registers =>
    exact ⟨_, exec_eq_next_of_checks (execPop_false_eq harch) (State.checkBlock_of_blockOk hblock) hpc,
      State.loadBlock_loadedFrom spReg_not_mem_listRegs (Nat.le_refl _) hblock, State.loadBlock_base spReg_ne_pcReg,
      State.loadBlock_flags, rfl, State.loadBlock_keeps⟩
  case pc =>
    exact ⟨_, execPop_true_of_bit0 harch hblock hread hbit,
      State.loadBlock_loadedFrom spReg_not_mem_listRegs (Nat.le_succ _) hblock, State.loadBlock_base spReg_ne_pcReg,
      clearBit0_eq_sub_one hbit, State.loadBlock_flags, State.loadBlock_keeps⟩
  case hdlEmpty => exact hempty ▸ execPop_hdl_empty hhdl r
  case hdlStops =>
    obtain ⟨i, hi⟩ := exists_firstListed hne
    exact stopsAt_of_exec Nat.one_ne_zero (execPop_hdl_eq hhdl r hi)
  case hdl =>
    have hexec := execPop_hdl_eq hhdl r (firstListed_of_rank hi hrank)
    have hread : s.memRead (wordAddr start 0) .word = .ok (s.peek (wordAddr start 0) .word) :=
      State.memRead_of_accessible (accessible_of_blockOk hblock Nat.one_pos)
    rw [wordAddr_zero] at hread
    exact ⟨_, hread, _, exec_eq_next_of_checks hexec (State.checkBlock_of_blockOk hblock) hpc,
      State.loadBlock_single i, State.loadBlock_base spReg_ne_pcReg, State.loadBlock_flags, rfl,
      keeps_swap State.loadBlock_keeps⟩

/-- Settles O56: both profiles push a list of registers, HDL the first one found, through the same checks. -/
theorem pushResults : Obligations.PushResults := by
  intro s r list
  dsimp only
  rw [← length_listRegsWith list r lrReg]
  refine ⟨decode_push r list, fun harch => ?arch, fun hhdl => ?hdl⟩
  case arch =>
    have hexec := exec_push_arch (list := list) harch r
    refine ⟨fun hk => ?empty, pushRegs_refuses_low hexec, pushRegs_stopsAt hexec, fun hroom hblock hpc => ?completes⟩
    case empty =>
      rw [length_listRegsWith] at hk
      obtain ⟨rfl, rfl⟩ := nothing_of_size_add_eq_zero hk
      exact execPush_nothing s
    case completes =>
      obtain ⟨t, ht, hstored, hsp, hflags, hnext, hkeeps⟩ := pushRegs_gives hexec hroom hblock hpc
      refine ⟨t, ht, fun i hi => hstored _ _ (getElem?_listRegsWith_rank r lrReg hi), ?_, hsp, hflags, hnext, hkeeps⟩
      rintro rfl
      exact hstored _ _ (getElem?_listRegsWith_size list lrReg)
  case hdl =>
    rw [← blockBytes_one]
    refine ⟨fun hempty => hempty ▸ execPush_hdl_empty hhdl r, fun hne hlow => ?low, fun hne hroom => ?stops,
      fun i hi hrank hroom hblock hpc => ?completes⟩
    case low =>
      obtain ⟨i, hi⟩ := exists_firstListed hne
      exact pushRegs_refuses_low (exec_push_hdl hhdl r hi) Nat.one_ne_zero hlow
    case stops =>
      obtain ⟨i, hi⟩ := exists_firstListed hne
      simpa only [List.length_singleton] using pushRegs_stopsAt (exec_push_hdl hhdl r hi) Nat.one_ne_zero hroom
    case completes =>
      have hexec := exec_push_hdl hhdl r (firstListed_of_rank hi hrank)
      obtain ⟨t, ht, hstored, hrest⟩ := pushRegs_gives hexec hroom hblock hpc
      have hword : t.memRead (wordAddr (s.reg spReg - blockBytes 1) 0) .word = .ok (s.reg (lo i)) :=
        hstored 0 (lo i) rfl
      rw [wordAddr_zero] at hword
      exact ⟨t, ht, hword, hrest⟩

end Sys2Proof.Machine

/-! The single loads and stores (46_load_store.md): how an access fails, what a width's value can be, and the states a
load and a store leave. -/

namespace Sys2Proof.Machine

open Sys2Proof Sys2Proof.Claims

/-! ## The value of a width, and its widening (20_memory.md R56, R58) -/

theorem joinBytes_lt (bs : List Byte) : joinBytes bs < 2 ^ (8 * bs.length) := by
  induction bs with
  | nil => exact Nat.one_pos
  | cons b bs ih =>
    have hb : b.toNat < 256 := b.isLt
    rw [joinBytes, List.length_cons, Nat.mul_succ, Nat.pow_add]
    omega

theorem joinOrdered_toNat_lt (e : Endian) (bs : List Byte) : (joinOrdered e bs).toNat < 2 ^ (8 * bs.length) := by
  cases e
  case little => exact (Nat.mod_le ..).trans_lt (joinBytes_lt bs)
  case big => exact (Nat.mod_le ..).trans_lt (List.length_reverse (as := bs) ▸ joinBytes_lt bs.reverse)

theorem State.peek_toNat_lt (s : State) (a : Word) (n : Width) : (s.peek a n).toNat < 2 ^ (8 * n.bytes) := by
  have h := joinOrdered_toNat_lt s.cfg.endian (Memory.bytesAt s.mem a.toNat n.bytes)
  rwa [Memory.length_bytesAt] at h

/-- A value read is zero-extended already, so taking the low bits of its width changes nothing. -/
theorem State.widenZero_peek (s : State) (a : Word) (n : Width) :
    widenZero (s.peek a n) = BitVec.ofNat 32 ((s.peek a n).toNat % 2 ^ (8 * n.bytes)) := by
  rw [Nat.mod_eq_of_lt (s.peek_toNat_lt a n), BitVec.ofNat_toNat, BitVec.setWidth_eq, widenZero]

theorem widenByte_eq_ofInt (v : Word) : widenByte v = BitVec.ofInt 32 (BitVec.ofNat 8 v.toNat).toInt := by
  rw [BitVec.ofNat_toNat]; rfl

theorem widenHalf_eq_ofInt (v : Word) : widenHalf v = BitVec.ofInt 32 (BitVec.ofNat 16 v.toNat).toInt := by
  rw [BitVec.ofNat_toNat]; rfl

/-! ## What a store leaves -/

/-- The frame of a store speaks of no pc. -/
theorem keepsBut_pc {s t : State} {dests : List Reg} {a n : Nat} (h : KeepsBut s t dests a n) (v : Word) :
    KeepsBut s { t with pc := v } dests a n := by
  obtain ⟨hregs, hrest⟩ := h
  refine ⟨fun i hi hnot => ?_, hrest⟩
  calc ({ t with pc := v } : State).reg i
    _ = t.reg i := State.reg_congr rfl hi
    _ = s.reg i := hregs i hi hnot

theorem State.memRead_poke {s : State} {a : Word} {n : Width} (v : Word) (h : Accessible s a n.bytes) :
    (s.poke a n v).memRead a n = .ok (BitVec.ofNat 32 (v.toNat % 2 ^ (8 * n.bytes))) := by
  have haccess : Accessible (s.poke a n v) a n.bytes := h
  rw [State.memRead_of_accessible haccess, State.peek_poke]

/-! ## An instruction that is a load, or a store -/

section
variable {i : Instr} {s : State} {rd : LowReg} {a : Word} {n : Width}

/-- An instruction that answers the fault of its access fails as the two checks do, alignment first. -/
theorem faultsAt_of_exec (h : ∀ f, s.accessFault a n = some f → exec i s = .fault f) : FaultsAt i s a n :=
  ⟨fun hmis => h _ (State.accessFault_of_misaligned hmis),
    fun halign hout => h _ (State.accessFault_of_not_admitted halign hout)⟩

theorem State.loadInto_of_fault {widen : Word → Word} {f : Fault} (h : s.accessFault a n = some f) :
    s.loadInto rd a n widen = .fault f := by rw [State.loadInto, State.memRead_of_fault h]

theorem State.storeFrom_of_fault {f : Fault} (h : s.accessFault a n = some f) :
    s.storeFrom rd a n = .fault f := by rw [State.storeFrom, State.memWrite_of_fault h]

/-- A load moves the value it reads, however its widening is written at that value. -/
theorem loadsInto_of_exec {w widen : Word → Word} (hexec : exec i s = s.loadInto rd a n w)
    (hwiden : w (s.peek a n) = widen (s.peek a n)) : LoadsInto i s rd a n widen := by
  refine ⟨fun hpc haccess => ?completes, faultsAt_of_exec fun f hf => hexec.trans (State.loadInto_of_fault hf)⟩
  case completes =>
    have hload := State.loadInto_eq (rd := rd) (w := w) (State.accessFault_eq_none_iff_accessible.2 haccess) hpc
    rw [hwiden] at hload
    exact ⟨s.peek a n, State.memRead_of_accessible haccess, _, hexec.trans hload,
      s.setReg_nextPc_moveInto _ (lo_ne_pcReg rd)⟩

/-- A store is a `poke` of Rd, and its frame is that of the `poke`. -/
theorem storesFrom_of_exec (hexec : exec i s = s.storeFrom rd a n) : StoresFrom i s rd a n := by
  refine ⟨fun hpc haccess => ?completes, faultsAt_of_exec fun f hf => hexec.trans (State.storeFrom_of_fault hf)⟩
  case completes =>
    have hstore := State.storeFrom_eq (rd := rd) (State.accessFault_eq_none_iff_accessible.2 haccess) hpc
    exact ⟨_, hexec.trans hstore, State.memRead_poke _ haccess, s.poke_flags a (s.reg (lo rd)) n, rfl,
      keepsBut_pc (s.poke_keepsBut a _ n) _⟩

end

/-! ## The obligations -/

/-- Settles O50: a word is loaded as it is read. -/
theorem wordLoadResults : Obligations.WordLoadResults := by
  intro s rm rn rd immed5 immed8
  exact ⟨decode_readSHI rfl (by decide) immed5 rn rd, decode_readRRR rfl (by decide) rm rn rd,
    decode_readRI8 rfl (by decide) rd immed8, decode_readRI8 rfl (by decide) rd immed8,
    loadsInto_of_exec rfl rfl, loadsInto_of_exec rfl rfl, loadsInto_of_exec rfl rfl, loadsInto_of_exec rfl rfl⟩

/-- Settles O51: the unsigned loads keep the value read, which has no bit above its width, and the signed ones read its
low bits as an integer. -/
theorem narrowLoadResults : Obligations.NarrowLoadResults := by
  intro s rm rn rd immed5
  exact ⟨decode_readSHI rfl (by decide) immed5 rn rd, decode_readRRR rfl (by decide) rm rn rd,
    decode_readSHI rfl (by decide) immed5 rn rd, decode_readRRR rfl (by decide) rm rn rd,
    decode_readRRR rfl (by decide) rm rn rd, decode_readRRR rfl (by decide) rm rn rd,
    loadsInto_of_exec rfl (s.widenZero_peek _ .byte), loadsInto_of_exec rfl (s.widenZero_peek _ .byte),
    loadsInto_of_exec rfl (s.widenZero_peek _ .half), loadsInto_of_exec rfl (s.widenZero_peek _ .half),
    loadsInto_of_exec rfl (widenByte_eq_ofInt _), loadsInto_of_exec rfl (widenHalf_eq_ofInt _)⟩

/-- Settles O52: each form is the store of its width at its own address. -/
theorem storeResults : Obligations.StoreResults := by
  intro s rm rn rd immed5 immed8
  exact ⟨decode_readSHI rfl (by decide) immed5 rn rd, decode_readRRR rfl (by decide) rm rn rd,
    decode_readRI8 rfl (by decide) rd immed8, decode_readSHI rfl (by decide) immed5 rn rd,
    decode_readRRR rfl (by decide) rm rn rd, decode_readSHI rfl (by decide) immed5 rn rd,
    decode_readRRR rfl (by decide) rm rn rd, storesFrom_of_exec rfl, storesFrom_of_exec rfl,
    storesFrom_of_exec rfl, storesFrom_of_exec rfl, storesFrom_of_exec rfl, storesFrom_of_exec rfl,
    storesFrom_of_exec rfl⟩

end Sys2Proof.Machine

/-! The decoder and the encoder are each other's inverse (30_encoding.md R82 to R102): no two rows cover one word, a row
that covers a word is the one that reads it, and what a row reads is encoded as the word it was read from. -/

namespace Sys2Proof

open Laws

/-! ## Rows that cover no common word -/

/-- The words of `q` are among those the row `p` leaves out. -/
def Row.excludes (p q : Row) : Bool :=
  p.exclude.any (fun e => q.mask &&& e.1 == e.1 && q.pattern &&& e.1 == e.2)

/-- Some bit that both rows fix differs, or one row leaves the words of the other out. -/
def Row.apart (p q : Row) : Bool :=
  p.mask &&& q.mask &&& (p.pattern ^^^ q.pattern) != 0#16 || p.excludes q || q.excludes p

theorem Row.not_covers_of_excludes {p q : Row} {w : InstrWord} (h : p.excludes q = true) (hq : q.covers w = true) :
    ¬ p.covers w = true := by
  intro hp
  obtain ⟨e, he, hwords⟩ := List.any_eq_true.1 h
  obtain ⟨hmask, hpattern⟩ : q.mask &&& e.1 = e.1 ∧ q.pattern &&& e.1 = e.2 := by simpa using hwords
  obtain ⟨-, hnot⟩ := Row.covers_iff.1 hp
  obtain ⟨hfixed, -⟩ := Row.covers_iff.1 hq
  refine hnot e he ?_
  calc w &&& e.1
    _ = w &&& q.mask &&& e.1 := by rw [BitVec.and_assoc, hmask]
    _ = e.2 := by rw [hfixed, hpattern]

theorem Row.not_covers_of_apart {p q : Row} {w : InstrWord} (h : p.apart q = true) (hp : p.covers w = true) :
    ¬ q.covers w = true := by
  intro hq
  simp only [Row.apart, Bool.or_eq_true, bne_iff_ne] at h
  rcases h with (hfixed | hexcl) | hexcl
  · refine hfixed ?_
    rw [← (Row.covers_iff.1 hp).1, ← (Row.covers_iff.1 hq).1]
    ext j hj
    simp only [BitVec.getElem_and, BitVec.getElem_xor, BitVec.getElem_zero]
    cases p.mask[j] <;> cases q.mask[j] <;> simp
  · exact Row.not_covers_of_excludes hexcl hq hp
  · exact Row.not_covers_of_excludes hexcl hp hq

/-- Every row of the table once: B_1 stands in two groups, 26 and 27, and SWI in the second of them only. -/
def allRows : List Row := (List.range 27 ++ [28, 29, 30, 31]).flatMap rowsAt ++ [swiRow]

theorem allRows_apart : allRows.Pairwise (fun p q => p.apart q = true) := by decide

theorem rowsAt_of_le {k : Nat} (h : 32 ≤ k) : rowsAt k = [] := by
  obtain ⟨m, rfl⟩ := Nat.exists_eq_add_of_le' h
  rfl

theorem mem_allRows {k : Nat} {r : Row} (h : r ∈ rowsAt k) : r ∈ allRows := by
  have hk : k ∈ List.range 27 ++ [28, 29, 30, 31] ∨ k = 27 ∨ 32 ≤ k := by simp; omega
  rcases hk with hk | rfl | hk
  · exact List.mem_append_left _ (List.mem_flatMap.2 ⟨k, hk, h⟩)
  · rcases List.mem_pair.1 h with rfl | rfl
    · exact List.mem_append_left _ (List.mem_flatMap.2 ⟨26, by simp, List.mem_cons_self⟩)
    · exact List.mem_append_right _ List.mem_cons_self
  · rw [rowsAt_of_le hk] at h
    exact absurd h List.not_mem_nil

/-- One row at most covers a word, wherever the rows stand. -/
theorem eq_of_covers {w : InstrWord} {j k : Nat} {p q : Row} (hp : p ∈ rowsAt j) (hq : q ∈ rowsAt k)
    (hpw : p.covers w = true) (hqw : q.covers w = true) : p = q := by
  have disjoint : allRows.Pairwise (fun p q => ¬ (p.covers w = true ∧ q.covers w = true)) :=
    allRows_apart.imp fun h => not_and.2 (Row.not_covers_of_apart h)
  have symmetric : Std.Symm (fun p q : Row => ¬ (p.covers w = true ∧ q.covers w = true)) :=
    ⟨fun _ _ h both => h both.symm⟩
  by_contra hne
  exact disjoint.forall (mem_allRows hp) (mem_allRows hq) hne ⟨hpw, hqw⟩

/-- The row of a word's group that covers the word is the one that reads it. -/
theorem decode_of_covers {w : InstrWord} {r : Row} {i : Instr} (hr : r ∈ rowsAt (w.extractLsb' 11 5).toNat)
    (hcovers : r.covers w = true) (hbuild : r.build w = some i) : decode w = .ok i := by
  unfold decode
  split
  case h_1 q hq =>
    have hrow : q = r := eq_of_covers (List.mem_of_find?_eq_some hq) hr
      (List.find?_some (p := fun q : Row => q.covers w) hq) hcovers
    rw [hrow, hbuild]
  case h_2 hnone => exact absurd hcovers (List.find?_eq_none.1 hnone r hr)

/-! ## Decoding the formats left over -/

/-- As `decode_of_covers`, with the row chosen by the ten top bits of the word, which is all a row looks at. -/
theorem decode_of_head10 {w : InstrWord} {r : Row} {i : Instr} {head : BitVec 10} (hhead : w.extractLsb' 6 10 = head)
    (hr : r ∈ rowsAt (head.extractLsb' 5 5).toNat) (hcovers : r.covers (head ++ 0#6) = true)
    (hbuild : r.build w = some i) : decode w = .ok i := by
  subst hhead
  rw [extractLsb'_extractLsb' w (by decide)] at hr
  refine decode_of_covers hr ?_ hbuild
  rw [covers_eq_covers_head hr w, BitVec.extractLsb'_append_extractLsb'_eq_extractLsb' (by rfl)]
  exact hcovers

theorem readBXF_eq (f : Reg → BitVec 3 → Instr) {w : InstrWord} {m : Reg} {v : BitVec 3}
    (hHigh : w.extractLsb' 6 1 = highBit m) (hLow : w.extractLsb' 3 3 = lowBits m) (hv : w.extractLsb' 0 3 = v) :
    readBXF f w = some (f m v) := by
  rw [readBXF, h2Field, hHigh, hLow, hv, toFin_highBit_append_lowBits]

theorem decode_readBXF {head : BitVec 9} {f : Reg → BitVec 3 → Instr}
    (hrows : (rowsWith (head.extractLsb' 4 5) 7 9 head).map Row.build = [readBXF f])
    (halloc : allocatedHead head = true) (m : Reg) (v : BitVec 3) :
    decode (head ++ highBit m ++ lowBits m ++ v) = .ok (f m v) :=
  decode_of_head (by decide) rfl hrows halloc (head_append₃ ..)
    (readBXF_eq f (extractLsb'_append₃ ..) (extractLsb'_append₂ ..) BitVec.extractLsb'_append_eq_right)

theorem decode_bkpt (v : BitVec 8) : decode (0b10111110#8 ++ v) = .ok (.bkpt v) :=
  decode_of_head (by decide) rfl rowsWith_bkpt (by decide) BitVec.extractLsb'_append_eq_left
    (congrArg (fun u => some (Instr.bkpt u)) BitVec.extractLsb'_append_eq_right)

/-- The row of ADD_1 leaves out the words of MOV_2, those with `immed3 = 000` (entry 12). -/
theorem addSubRows_add1_covers : ∀ v : BitVec 3, v ≠ 0#3 →
    addSubRows[2].covers (0b0001110#7 ++ v ++ 0#6) = true := by decide

theorem top_add1 : ∀ v : BitVec 3, (0b0001110#7 ++ v).extractLsb' 5 5 = 0b00011#5 := by decide

theorem decode_add1 {v : BitVec 3} (hv : v ≠ 0#3) (y z : LowReg) :
    decode (0b0001110#7 ++ v ++ bits3 y ++ bits3 z) = .ok (.add1 v y z) := by
  have hhead : (0b0001110#7 ++ v ++ bits3 y ++ bits3 z).extractLsb' 6 10 = 0b0001110#7 ++ v :=
    (extractLsb'_append_add _ _ 3 10).trans BitVec.extractLsb'_append_eq_left
  refine decode_of_head10 (r := addSubRows[2]) hhead ?_ (addSubRows_add1_covers v hv)
    (readAS3I_eq .add1 (extractLsb'_append₃ ..) (extractLsb'_append₂ ..) BitVec.extractLsb'_append_eq_right)
  rw [top_add1]
  exact List.getElem_mem _

theorem decode_mov2 (y z : LowReg) : decode (0b0001110000#10 ++ bits3 y ++ bits3 z) = .ok (.mov2 y z) :=
  decode_of_head10 (r := addSubRows[3]) (head_append₂ ..) (List.getElem_mem (l := addSubRows) _) rfl
    (readALU_eq .mov2 (extractLsb'_append₂ ..) BitVec.extractLsb'_append_eq_right)

/-- B_1 shares the top bits of SWI, and its row leaves the words of SWI out (30_encoding.md R87, R101). -/
theorem decode_swi (v : BitVec 8) : decode (0b11011111#8 ++ v) = .ok (.swi v) := by
  have htop : (0b11011111#8 ++ v).extractLsb' 11 5 = 0b11011#5 := extractLsb'_append_add _ v 3 5
  have hcovers : swiRow.covers (0b11011111#8 ++ v) = true :=
    Row.covers_iff.2 ⟨EncodesInRow.swi v, fun _ he => absurd he List.not_mem_nil⟩
  refine decode_of_covers (r := swiRow) (htop ▸ by simp [rowsAt]) hcovers ?_
  exact congrArg (fun u => some (Instr.swi u)) BitVec.extractLsb'_append_eq_right

/-! ## Every encodable instruction -/

theorem decode_encode {i : Instr} (h : i.encodable = true) : decode (encode i) = .ok i := by
  cases i
  case lsl1 | lsr1 | asr1 | str1 | ldr1 | strb1 | ldrb1 | strh1 | ldrh1 => exact decode_readSHI rfl (by decide) ..
  case add3 | sub3 | str2 | strh2 | strb2 | ldrsb | ldr2 | ldrh2 | ldrb2 | ldrsh =>
    exact decode_readRRR rfl (by decide) ..
  case add1 v y z => exact decode_add1 (bne_iff_ne.1 h) y z
  case mov2 => exact decode_mov2 ..
  case sub1 => exact decode_readAS3I rfl (by decide) ..
  case mov1 | cmp1 | add2 | sub2 | ldr3 | str3 | ldr4 | add5 | add6 | stmia | ldmia =>
    exact decode_readRI8 rfl (by decide) ..
  case and | eor | lsl2 | lsr2 | asr2 | adc | sbc | ror | tst | neg | cmp2 | cmn | orr | mul | bic | mvn =>
    exact decode_readALU rfl (by decide) ..
  case add4 | cmp3 | mov3 => exact decode_readHI rfl (by decide) ..
  case bx | blx2 => exact decode_readBXF rfl (by decide) ..
  case add7 | sub4 => exact decode_readSP7 rfl (by decide) ..
  case push => exact decode_push ..
  case pop => exact decode_pop ..
  case bkpt => exact decode_bkpt ..
  case b1 => exact decode_b1 ..
  case swi => exact decode_swi ..
  case b2 | blxH01 | blH10 | blH11 => exact decode_readB11 rfl (by decide) ..

/-! ## What a row reads is encoded as the word it was read from -/

/-- The fields read from the words the row covers, put back under its fixed bits, are those words. -/
def Row.Rebuilds (r : Row) : Prop := ∀ w i, r.covers w = true → r.build w = some i → encode i = w

theorem Row.head_of_covers {r : Row} {w : InstrWord} {lsb len : Nat} {head : BitVec len} (h : r.covers w = true)
    (hmask : r.mask.extractLsb' lsb len = BitVec.allOnes len) (hpattern : r.pattern.extractLsb' lsb len = head) :
    w.extractLsb' lsb len = head := by
  have hfield := Row.field_of_covers h lsb len
  rwa [hmask, hpattern, BitVec.and_allOnes] at hfield

/-- A row that fixes the bits of `head` rebuilds its words when its format does. -/
theorem rebuilds_of_head {r : Row} {lsb len : Nat} {head : BitVec len}
    (hread : ∀ {w i}, w.extractLsb' lsb len = head → r.build w = some i → encode i = w)
    (hmask : r.mask.extractLsb' lsb len = BitVec.allOnes len) (hpattern : r.pattern.extractLsb' lsb len = head) :
    r.Rebuilds :=
  fun _ _ hcovers hbuild => hread (Row.head_of_covers hcovers hmask hpattern) hbuild

theorem highBit_h1Field (w : InstrWord) : highBit (h1Field w) = w.extractLsb' 7 1 := BitVec.extractLsb'_append_eq_left

theorem lowBits_h1Field (w : InstrWord) : lowBits (h1Field w) = w.extractLsb' 0 3 := BitVec.extractLsb'_append_eq_right

theorem bit1_getLsbD (w : InstrWord) (i : Nat) : bit1 (w.getLsbD i) = w.extractLsb' i 1 := by
  ext j hj
  obtain rfl : j = 0 := by omega
  simp [bit1]

/-- The fields of a word, put together again from bit 15 down. -/
theorem append_fields₃ {a b c : Nat} (w : BitVec (a + b + c)) :
    w.extractLsb' (c + b) a ++ w.extractLsb' c b ++ w.extractLsb' 0 c = w := by
  rw [BitVec.extractLsb'_append_extractLsb'_eq_extractLsb' rfl]
  exact BitVec.extractLsb'_append_extractLsb'

theorem append_fields₄ {a b c d : Nat} (w : BitVec (a + b + c + d)) :
    w.extractLsb' (d + c + b) a ++ w.extractLsb' (d + c) b ++ w.extractLsb' d c ++ w.extractLsb' 0 d = w := by
  rw [BitVec.extractLsb'_append_extractLsb'_eq_extractLsb' rfl,
    BitVec.extractLsb'_append_extractLsb'_eq_extractLsb' rfl]
  exact BitVec.extractLsb'_append_extractLsb'

theorem append_fields₅ {a b c d e : Nat} (w : BitVec (a + b + c + d + e)) :
    w.extractLsb' (e + d + c + b) a ++ w.extractLsb' (e + d + c) b ++ w.extractLsb' (e + d) c ++ w.extractLsb' e d ++
      w.extractLsb' 0 e = w := by
  rw [BitVec.extractLsb'_append_extractLsb'_eq_extractLsb' rfl,
    BitVec.extractLsb'_append_extractLsb'_eq_extractLsb' rfl,
    BitVec.extractLsb'_append_extractLsb'_eq_extractLsb' rfl]
  exact BitVec.extractLsb'_append_extractLsb'

section
variable {w : InstrWord} {i : Instr}

theorem encode_of_readSHI {f : BitVec 5 → LowReg → LowReg → Instr} {head : BitVec 5}
    (hf : ∀ v y z, encode (f v y z) = head ++ v ++ bits3 y ++ bits3 z)
    (hhead : w.extractLsb' 11 5 = head) (h : readSHI f w = some i) : encode i = w := by
  cases h
  rw [hf, ← hhead]
  exact append_fields₄ (a := 5) (b := 5) (c := 3) (d := 3) w

theorem encode_of_readRRR {f : LowReg → LowReg → LowReg → Instr} {head : BitVec 7}
    (hf : ∀ x y z, encode (f x y z) = head ++ bits3 x ++ bits3 y ++ bits3 z)
    (hhead : w.extractLsb' 9 7 = head) (h : readRRR f w = some i) : encode i = w := by
  cases h
  rw [hf, ← hhead]
  exact append_fields₄ (a := 7) (b := 3) (c := 3) (d := 3) w

theorem encode_of_readAS3I {f : BitVec 3 → LowReg → LowReg → Instr} {head : BitVec 7}
    (hf : ∀ v y z, encode (f v y z) = head ++ v ++ bits3 y ++ bits3 z)
    (hhead : w.extractLsb' 9 7 = head) (h : readAS3I f w = some i) : encode i = w := by
  cases h
  rw [hf, ← hhead]
  exact append_fields₄ (a := 7) (b := 3) (c := 3) (d := 3) w

theorem encode_of_readRI8 {f : LowReg → BitVec 8 → Instr} {head : BitVec 5}
    (hf : ∀ x v, encode (f x v) = head ++ bits3 x ++ v)
    (hhead : w.extractLsb' 11 5 = head) (h : readRI8 f w = some i) : encode i = w := by
  cases h
  rw [hf, ← hhead]
  exact append_fields₃ (a := 5) (b := 3) (c := 8) w

theorem encode_of_readALU {f : LowReg → LowReg → Instr} {head : BitVec 10}
    (hf : ∀ x y, encode (f x y) = head ++ bits3 x ++ bits3 y)
    (hhead : w.extractLsb' 6 10 = head) (h : readALU f w = some i) : encode i = w := by
  cases h
  rw [hf, ← hhead]
  exact append_fields₃ (a := 10) (b := 3) (c := 3) w

theorem encode_of_readHI {f : Reg → Reg → Instr} {head : BitVec 8}
    (hf : ∀ m d, encode (f m d) = head ++ highBit d ++ highBit m ++ lowBits m ++ lowBits d)
    (hhead : w.extractLsb' 8 8 = head) (h : readHI f w = some i) : encode i = w := by
  cases h
  rw [hf, ← hhead, highBit_h1Field, highBit_h2Field, lowBits_h2Field, lowBits_h1Field]
  exact append_fields₅ (a := 8) (b := 1) (c := 1) (d := 3) (e := 3) w

theorem encode_of_readBXF {f : Reg → BitVec 3 → Instr} {head : BitVec 9}
    (hf : ∀ m v, encode (f m v) = head ++ highBit m ++ lowBits m ++ v)
    (hhead : w.extractLsb' 7 9 = head) (h : readBXF f w = some i) : encode i = w := by
  cases h
  rw [hf, ← hhead, highBit_h2Field, lowBits_h2Field]
  exact append_fields₄ (a := 9) (b := 1) (c := 3) (d := 3) w

theorem encode_of_readSP7 {f : BitVec 7 → Instr} {head : BitVec 9} (hf : ∀ v, encode (f v) = head ++ v)
    (hhead : w.extractLsb' 7 9 = head) (h : readSP7 f w = some i) : encode i = w := by
  cases h
  rw [hf, ← hhead]
  exact BitVec.extractLsb'_append_extractLsb'

theorem encode_of_readPP {f : Bool → BitVec 8 → Instr} {head : BitVec 7}
    (hf : ∀ r v, encode (f r v) = head ++ bit1 r ++ v)
    (hhead : w.extractLsb' 9 7 = head) (h : readPP f w = some i) : encode i = w := by
  cases h
  rw [hf, ← hhead, bit1_getLsbD]
  exact append_fields₃ (a := 7) (b := 1) (c := 8) w

theorem encode_of_readI8 {f : BitVec 8 → Instr} {head : BitVec 8} (hf : ∀ v, encode (f v) = head ++ v)
    (hhead : w.extractLsb' 8 8 = head) (h : readI8 f w = some i) : encode i = w := by
  cases h
  rw [hf, ← hhead]
  exact BitVec.extractLsb'_append_extractLsb'

theorem encode_of_readB11 {f : BitVec 11 → Instr} {head : BitVec 5} (hf : ∀ v, encode (f v) = head ++ v)
    (hhead : w.extractLsb' 11 5 = head) (h : readB11 f w = some i) : encode i = w := by
  cases h
  rw [hf, ← hhead]
  exact BitVec.extractLsb'_append_extractLsb'

theorem code_of_ofCode : ∀ c : BitVec 4, ∀ cond ∈ Cond.ofCode c, cond.code = c := by decide

theorem encode_of_readBC {f : Cond → BitVec 8 → Instr} {head : BitVec 4}
    (hf : ∀ c v, encode (f c v) = head ++ c.code ++ v)
    (hhead : w.extractLsb' 12 4 = head) (h : readBC f w = some i) : encode i = w := by
  obtain ⟨cond, hcond, rfl⟩ := Option.map_eq_some_iff.1 h
  rw [hf, ← hhead, code_of_ofCode _ cond hcond]
  exact append_fields₃ (a := 4) (b := 4) (c := 8) w

end

/-! ## Every row of the table rebuilds its words -/

theorem addSubRows_rebuild : ∀ r ∈ addSubRows, r.Rebuilds := by
  have add3 := rebuilds_of_head (r := addSubRows[0]) (encode_of_readRRR fun _ _ _ => rfl) rfl rfl
  have sub3 := rebuilds_of_head (r := addSubRows[1]) (encode_of_readRRR fun _ _ _ => rfl) rfl rfl
  have add1 := rebuilds_of_head (r := addSubRows[2]) (encode_of_readAS3I fun _ _ _ => rfl) rfl rfl
  have mov2 := rebuilds_of_head (r := addSubRows[3]) (encode_of_readALU fun _ _ => rfl) rfl rfl
  have sub1 := rebuilds_of_head (r := addSubRows[4]) (encode_of_readAS3I fun _ _ _ => rfl) rfl rfl
  exact List.forall_iff_forall_mem.1 ⟨add3, sub3, add1, mov2, sub1⟩

theorem aluRows_rebuild : ∀ r ∈ aluRows, r.Rebuilds := by
  refine List.forall_iff_forall_mem.1 ?_
  unfold aluRows
  and_intros
  all_goals exact rebuilds_of_head (encode_of_readALU fun _ _ => rfl) rfl rfl

theorem highRows_rebuild : ∀ r ∈ highRows, r.Rebuilds := by
  refine List.forall_iff_forall_mem.1 ⟨?add4, ?cmp3, ?mov3, ?bx, ?blx2⟩
  case add4 | cmp3 | mov3 => exact rebuilds_of_head (encode_of_readHI fun _ _ => rfl) rfl rfl
  case bx | blx2 => exact rebuilds_of_head (encode_of_readBXF fun _ _ => rfl) rfl rfl

theorem stackRows_rebuild : ∀ r ∈ stackRows, r.Rebuilds := by
  refine List.forall_iff_forall_mem.1 ⟨?add7, ?sub4, ?push⟩
  case add7 | sub4 => exact rebuilds_of_head (encode_of_readSP7 fun _ => rfl) rfl rfl
  case push => exact rebuilds_of_head (encode_of_readPP fun _ _ => rfl) rfl rfl

theorem popRows_rebuild : ∀ r ∈ popRows, r.Rebuilds :=
  List.forall_iff_forall_mem.1 ⟨rebuilds_of_head (encode_of_readPP fun _ _ => rfl) rfl rfl,
    rebuilds_of_head (encode_of_readI8 fun _ => rfl) rfl rfl⟩

theorem conditionalRow_rebuilds : conditionalRow.Rebuilds :=
  rebuilds_of_head (encode_of_readBC fun _ _ => rfl) rfl rfl

theorem swiRow_rebuilds : swiRow.Rebuilds := rebuilds_of_head (encode_of_readI8 fun _ => rfl) rfl rfl

/-- The groups in the order of the top-level map (30_encoding.md R89). -/
theorem rowsAt_rebuild (k : Nat) : ∀ r ∈ rowsAt k, r.Rebuilds := by
  unfold rowsAt
  split
  case h_1 | h_2 | h_3 | h_13 | h_14 | h_15 | h_16 | h_17 | h_18 =>
    exact List.forall_mem_singleton.2 (rebuilds_of_head (encode_of_readSHI fun _ _ _ => rfl) rfl rfl)
  case h_5 | h_6 | h_7 | h_8 | h_10 | h_19 | h_20 | h_21 | h_22 | h_25 | h_26 =>
    exact List.forall_mem_singleton.2 (rebuilds_of_head (encode_of_readRI8 fun _ _ => rfl) rfl rfl)
  case h_29 | h_30 | h_31 | h_32 =>
    exact List.forall_mem_singleton.2 (rebuilds_of_head (encode_of_readB11 fun _ => rfl) rfl rfl)
  case h_11 | h_12 =>
    refine List.forall_iff_forall_mem.1 ⟨?_, ?_, ?_, ?_⟩
    all_goals exact rebuilds_of_head (encode_of_readRRR fun _ _ _ => rfl) rfl rfl
  case h_4 => exact addSubRows_rebuild
  case h_9 => exact List.forall_mem_append.2 ⟨aluRows_rebuild, highRows_rebuild⟩
  case h_23 => exact stackRows_rebuild
  case h_24 => exact popRows_rebuild
  case h_27 => exact List.forall_mem_singleton.2 conditionalRow_rebuilds
  case h_28 => exact List.forall_iff_forall_mem.1 ⟨conditionalRow_rebuilds, swiRow_rebuilds⟩
  case h_33 => exact fun r hr => absurd hr List.not_mem_nil

theorem encode_of_decode {w : InstrWord} {i : Instr} (h : decode w = .ok i) : encode i = w := by
  obtain ⟨r, hr, hcovers, hbuild⟩ := exists_row_of_decode h
  exact rowsAt_rebuild _ r hr w i hcovers hbuild

theorem encode_mov2 (y z : LowReg) : encode (.mov2 y z) = encode (.add1 0#3 y z) := rfl

/-- ADD_1 with `immed3 = 000` is never read: its word is MOV_2's, and is read so (entry 12). -/
theorem encodable_of_decode {w : InstrWord} {i : Instr} (h : decode w = .ok i) : i.encodable = true := by
  cases i
  case add1 v y z =>
    refine bne_iff_ne.2 fun hzero => ?_
    subst hzero
    have hword : encode (.mov2 y z) = w := (encode_mov2 y z).trans (encode_of_decode h)
    rw [← hword] at h
    exact Instr.noConfusion (Except.ok.inj ((decode_mov2 y z).symm.trans h))
  all_goals rfl

/-! ## The obligations -/

/-- Settles O1: each instruction's head picks the row of its mnemonic, which reads back the fields below the head. -/
theorem decodeReadsBackEveryEncodedInstruction : Obligations.DecodeReadsBackEveryEncodedInstruction :=
  fun _ h => decode_encode h

/-- Settles O2: the row that reads a word fixes the bits its fields leave out. -/
theorem encodeRebuildsEveryDecodedWord : Obligations.EncodeRebuildsEveryDecodedWord :=
  fun _ _ h => ⟨encode_of_decode h, encodable_of_decode h⟩

/-- Settles O3: rows that cover one word are even the same row. -/
theorem atMostOneRowCoversAWord : Obligations.AtMostOneRowCoversAWord :=
  fun _ _ _ _ _ hp hq hpw hqw => congrArg Row.mnemonic (eq_of_covers hp hq hpw hqw)

/-- Settles O5: each word is the one its instruction is encoded as. -/
theorem sampleWordsDecode : Obligations.SampleWordsDecode :=
  ⟨decode_encode (i := .adc 2 1) rfl, decode_encode (i := .add1 7 1 0) rfl, decode_encode (i := .add4 1 8) rfl,
    decode_encode (i := .and 1 0) rfl, decode_encode (i := .asr1 1 1 0) rfl, decode_encode (i := .b1 .ne 6) rfl,
    decode_encode (i := .bx 14 0) rfl, decode_encode (i := .swi 5) rfl, decode_encode (i := .push true 0x11) rfl,
    decode_encode (i := .ldrsh 2 1 0) rfl⟩

end Sys2Proof

/-! The machine's step (60_exceptions.md R273): its checks before decoding in their order, the instruction it runs, and
the invariant of Safety.lean, which every launch has and every step keeps. -/

namespace Sys2Proof.Machine

open Sys2Proof Sys2Proof.Claims

/-! ## Even addresses -/

theorem mod_two_of_even {v : Word} (h : v.getLsbD 0 = false) : v.toNat % 2 = 0 := by
  simpa [BitVec.getLsbD, Nat.testBit_zero] using h

theorem even_add {v w : Word} (hv : v.getLsbD 0 = false) (hw : w.getLsbD 0 = false) : (v + w).getLsbD 0 = false := by
  have hsum : (v + w).toNat % 2 = 0 := by
    have hv2 := mod_two_of_even hv
    have hw2 := mod_two_of_even hw
    rw [BitVec.toNat_add]
    omega
  simpa [BitVec.getLsbD, Nat.testBit_zero] using hsum

theorem even_nextPc {s : State} (h : s.pc.getLsbD 0 = false) : s.nextPc.getLsbD 0 = false := even_add h rfl

/-! ## The invariant under each effect -/

/-- The invariant speaks of the flags and the registers in no clause, and of the pc in two. -/
theorem State.Inv.of_kept {s t : State} (h : s.Inv) (hk : Kept s t) (htrap : s.trap = none)
    (hpc : t.pc.getLsbD 0 = false) : t.Inv := by
  obtain ⟨hmem, hstored, ht, hhalted, htr, hcfg⟩ := hk
  constructor
  case pc_even => exact hpc
  case trap_ret => rw [htr, htrap]; intro e he; cases he
  case cfg_wf => exact hcfg ▸ h.cfg_wf
  case mem_wf => exact hmem ▸ h.mem_wf
  case mem_admitted => rw [hmem, hcfg]; exact h.mem_admitted
  case stored_rising => exact hstored ▸ h.stored_rising
  case stored_admitted => rw [hstored, hcfg]; exact h.stored_admitted
  case stored_coherent => rw [hstored, hcfg]; exact h.stored_coherent
  case halted_hdl => rw [hhalted, hcfg]; exact h.halted_hdl
  case arm_arch => rw [ht, hcfg]; exact h.arm_arch
  case trap_arch => rw [htr, hcfg]; exact h.trap_arch

theorem State.pokeWords_eq (s : State) (a : Word) (vs : List Word) :
    s.pokeWords a vs = { s with mem := (s.pokeWords a vs).mem, stored := (s.pokeWords a vs).stored } := by
  induction vs generalizing s a with
  | nil => rfl
  | cons v vs ih => exact ih (s.poke a .word v) (a + 4#32)

/-- Memory and the stored set may grow by admitted bytes, in canonical form (20_memory.md R57, R66). -/
theorem State.Inv.of_store {s t : State} (h : s.Inv) {low high : Nat}
    (hadmitted : ∀ x, low ≤ x → x < high → s.cfg.admits x = true)
    (hrest : t = { s with mem := t.mem, stored := t.stored }) (hwf : Memory.wf t.mem)
    (hmem : ∀ c ∈ t.mem, c ∈ s.mem ∨ (low ≤ c.1 ∧ c.1 < high)) (hrising : t.stored.Pairwise (· < ·))
    (hstored : s.cfg.smc = .fault → ∀ x ∈ t.stored, x ∈ s.stored ∨ (low ≤ x ∧ x < high))
    (hcoherent : s.cfg.smc = .coherent → t.stored = s.stored) : t.Inv := by
  have cells : ∀ c ∈ t.mem, s.cfg.admits c.1 = true := fun c hc =>
    (hmem c hc).elim (h.mem_admitted c) fun hin => hadmitted c.1 hin.1 hin.2
  have addresses : ∀ x ∈ t.stored, s.cfg.admits x = true := by
    intro x hx
    cases hsmc : s.cfg.smc with
    | fault => exact (hstored hsmc x hx).elim (h.stored_admitted x) fun hin => hadmitted x hin.1 hin.2
    | coherent => exact h.stored_admitted x (hcoherent hsmc ▸ hx)
  rw [hrest]
  exact { h with
    mem_wf := hwf
    mem_admitted := cells
    stored_rising := hrising
    stored_admitted := addresses
    stored_coherent := fun hsmc => (hcoherent hsmc).trans (h.stored_coherent hsmc) }

theorem State.Inv.poke {s : State} (h : s.Inv) {a : Word} (v : Word) {n : Width} (ok : s.accessFault a n = none) :
    (s.poke a n v).Inv := by
  obtain ⟨haligned, hall⟩ := State.accessFault_eq_none.1 ok
  refine h.of_store (State.admitsAll_iff.1 hall) rfl (State.poke_wf h.mem_wf haligned) (fun c hc => ?_)
    (State.poke_stored_rising h.stored_rising) (fun hsmc x => (State.mem_poke_stored hsmc).1)
    State.poke_stored_coherent
  rw [← length_splitOrdered s.cfg.endian v n.bytes]
  exact Memory.mem_setBytes hc

theorem State.Inv.pokeWords {s : State} (h : s.Inv) {a : Word} {vs : List Word}
    (ok : s.checkBlock a vs.length = none) : (s.pokeWords a vs).Inv := by
  obtain ⟨-, haligned, hend, hadmitted⟩ := State.checkBlock_eq_none.1 ok
  exact h.of_store hadmitted (s.pokeWords_eq a vs) (State.pokeWords_wf h.mem_wf haligned)
    (fun _ => State.mem_pokeWords hend) (State.pokeWords_stored_rising h.stored_rising)
    (fun hsmc _ => (State.mem_pokeWords_stored hend hsmc).1) State.pokeWords_stored_coherent

/-- Clearing T is for the ARCH profile, which alone has ARM code to go to. -/
theorem State.Inv.with_t {s : State} (h : s.Inv) (harch : s.cfg.profile = .arch) (b : Bool) :
    ({ s with t := b } : State).Inv :=
  { h with arm_arch := fun _ => harch }

/-- Whatever a running machine's instruction does, it keeps the invariant. -/
theorem State.Inv.of_effect {s t : State} (h : s.Inv) (htrap : s.trap = none) (he : Effect s t) : t.Inv := by
  have hnext := even_nextPc h.pc_even
  cases he with
  | plain kept _ pc => exact h.of_kept kept htrap (pc ▸ hnext)
  | jump kept v pc => exact h.of_kept kept htrap (pc ▸ clearBit0_getLsbD_zero v)
  | branch kept off even pc => exact h.of_kept kept htrap (pc ▸ even_add (even_add h.pc_even h.cfg_wf.1) even)
  | exchange arch v kept pc => exact (h.with_t arch _).of_kept kept htrap (pc ▸ clearBit0_getLsbD_zero v)
  | store a v n ok kept _ pc => exact (h.poke v ok).of_kept kept htrap (pc ▸ hnext)
  | block a vs ok kept _ pc =>
    exact (h.pokeWords ok).of_kept kept ((s.pokeWords_trap a vs).trans htrap) (pc ▸ hnext)
  | trap arch _ kind imm8 eq =>
    subst eq
    exact { h with trap_arch := fun _ => arch, trap_ret := by rintro e ⟨⟩; rfl }
  | halt hdl _ eq =>
    subst eq
    exact { h.of_kept (t := { s with pc := s.nextPc }) ⟨rfl, rfl, rfl, rfl, rfl, rfl⟩ htrap hnext with
            halted_hdl := fun _ => hdl }

/-! ## Fetch -/

theorem State.fetchesStored_iff {s : State} :
    s.fetchesStored = true ↔ s.cfg.smc = .fault ∧ (s.pc.toNat ∈ s.stored ∨ s.pc.toNat + 1 ∈ s.stored) := by
  simp [State.fetchesStored]

theorem accessible_pc {s : State} (heven : s.pc.getLsbD 0 = false) (hadmitted : Admitted s s.pc.toNat 2) :
    Accessible s s.pc Width.half.bytes :=
  ⟨mod_two_of_even heven, hadmitted⟩

/-- The bytes at the pc make the instruction word in the order of the machine (30_encoding.md R81). -/
theorem State.peek_pc_half (s : State) :
    (s.peek s.pc .half).setWidth 16 =
      wordOfBytes s.cfg.endian (Memory.byteAt s.mem s.pc.toNat) (Memory.byteAt s.mem (s.pc.toNat + 1)) := by
  cases he : s.cfg.endian with
  | little => rw [State.peek_half_little _ he]; exact BitVec.setWidth_setWidth_of_le _ (by decide)
  | big => rw [State.peek_half_big _ he]; exact BitVec.setWidth_setWidth_of_le _ (by decide)

theorem State.fetch_of_fault {s : State} {f : Fault} (h : s.accessFault s.pc .half = some f) :
    s.fetch = .error f := by
  rw [State.fetch, State.memRead_of_fault h]

theorem State.fetch_of_stored {s : State} (h : Accessible s s.pc Width.half.bytes) (hs : s.fetchesStored = true) :
    s.fetch = .error (.selfModifyingCode s.pc) := by
  rw [State.fetch, State.memRead_of_accessible h]
  exact if_pos hs

/-! ## The obligations -/

/-- Settles O8: a step that goes on is an instruction's, whose eight possible effects keep each clause. -/
theorem stepKeepsInvariant : Obligations.StepKeepsInvariant := by
  intro s t hinv hstep
  obtain ⟨-, -, htrap, w, i, -, -, hexec⟩ := step_eq_next.1 hstep
  exact hinv.of_effect htrap (exec_effect hexec)

/-- Settles O6: the fetch checks pass, so the word the two bytes make is fetched and decoded. -/
theorem stepRunsTheInstructionAtThePc : Obligations.StepRunsTheInstructionAtThePc := by
  intro s i hhalted ht htrap heven hadmitted hstored hdecode
  have hfresh : s.fetchesStored = false := by
    refine Bool.eq_false_iff.2 fun h => ?_
    obtain ⟨hsmc, hmem⟩ := State.fetchesStored_iff.1 h
    obtain ⟨hfirst, hsecond⟩ := hstored hsmc
    exact hmem.elim hfirst hsecond
  have hfetch : s.fetch = .ok _ := State.fetch_eq_ok.2
    ⟨State.accessFault_eq_none_iff_accessible.2 (accessible_pc heven hadmitted), hfresh, rfl⟩
  refine step_of_decode_ok hhalted ht htrap hfetch ?_
  rw [State.peek_pc_half]
  exact hdecode

/-- Settles O7: each check is reached when those before it pass. -/
theorem stepChecksInOrder : Obligations.StepChecksInOrder := by
  intro s
  refine ⟨fun hhalted => ?halted, fun hhalted ht => ?arm, fun e hhalted ht htrap => ?trapped,
    fun hhalted ht htrap heven => ⟨fun hout => ?absent, fun hadmitted hsmc hmem => ?stored⟩⟩
  case halted => simp [step, hhalted]
  case arm => simp [step, hhalted, ht]
  case trapped => simp [step, hhalted, ht, htrap]
  case absent =>
    have hfetch := State.fetch_of_fault (State.accessFault_of_not_admitted (n := .half) (mod_two_of_even heven) hout)
    simp [step, hhalted, ht, htrap, hfetch]
  case stored =>
    have hfetch := State.fetch_of_stored (accessible_pc heven hadmitted) (State.fetchesStored_iff.2 ⟨hsmc, hmem⟩)
    simp [step, hhalted, ht, htrap, hfetch]

/-- A launch stores nothing, takes no exit and has T set, so only the parameters, the pc and memory need a reason. -/
theorem State.launch_inv {cfg : Config} {entry : Word} (regs : Vector Word 15) (flags : Flags) {mem : Memory}
    (hcfg : cfg.wf) (hentry : entry.getLsbD 0 = false) (hwf : Memory.wf mem)
    (hmem : ∀ c ∈ mem, cfg.admits c.1 = true) : (State.launch cfg entry regs flags mem).Inv where
  cfg_wf := hcfg
  pc_even := hentry
  mem_wf := hwf
  mem_admitted := hmem
  stored_rising := List.Pairwise.nil
  stored_admitted := fun _ h => absurd h List.not_mem_nil
  stored_coherent := fun _ => rfl
  halted_hdl := fun h => Bool.noConfusion h
  arm_arch := fun h => Bool.noConfusion h
  trap_arch := fun h => absurd rfl h
  trap_ret := by rintro e ⟨⟩

/-- Settles O9: reset is a launch with the default parameters and empty memory. -/
theorem launchEstablishesInvariant : Obligations.LaunchEstablishesInvariant :=
  ⟨State.launch_inv _ _ (by decide) rfl Memory.reset_wf fun _ h => absurd h List.not_mem_nil,
    fun _ _ regs flags _ hcfg hentry hwf hmem =>
      ⟨State.launch_inv regs flags hcfg hentry hwf hmem, rfl, rfl, rfl, rfl⟩⟩

end Sys2Proof.Machine

/-! Registers and addresses by number (00_scope.md R8, R9; 46_load_store.md R240), and a read after a write
(20_memory.md R63). -/

namespace Sys2Proof.Machine

open Sys2Proof Sys2Proof.Claims

/-! ## Addresses as numbers -/

theorem toNat_add_ofNat (v : Word) (n : Nat) : (v + BitVec.ofNat 32 n).toNat = (v.toNat + n) % 2 ^ 32 := by
  rw [BitVec.toNat_add, BitVec.toNat_ofNat, Nat.add_mod_mod]

theorem toNat_add_scaled {w : Nat} (v : Word) (immed : BitVec w) (scale : Nat) :
    (v + scaled immed scale).toNat = (v.toNat + immed.toNat * scale) % 2 ^ 32 := by
  rw [scaled_eq_ofNat, toNat_add_ofNat, Nat.mul_comm]

theorem State.addrPc_toNat (s : State) (immed8 : BitVec 8) :
    (s.addrPc immed8).toNat = (s.pcValue.toNat / 4 * 4 + immed8.toNat * 4) % 2 ^ 32 := by
  rw [State.addrPc, toNat_add_scaled, clearLow2_toNat]

/-! ## A read after a write -/

/-- A store leaves the checks and the value of every access that does not overlap it. -/
theorem State.memRead_poke_of_disjoint {s : State} {a b v : Word} {n m : Width}
    (h : a.toNat + n.bytes ≤ b.toNat ∨ b.toNat + m.bytes ≤ a.toNat) :
    (s.poke a n v).memRead b m = s.memRead b m := by
  have hpeek : (s.poke a n v).peek b m = s.peek b m :=
    State.peek_congr rfl fun x hlow hhigh => s.poke_byteAt_of_not_mem a v n x (by omega)
  rw [State.memRead, State.memRead, hpeek]
  rfl

/-! ## The obligations -/

/-- Settles O18: a write of 0 to 14 is to `regs` alone, one of 15 to the pc alone. -/
theorem registersReadAsWritten : Obligations.RegistersReadAsWritten := by
  intro s i j v
  exact ⟨fun hi => ⟨s.setReg_reg v hi, s.setReg_pc v hi⟩, fun hj hne => s.setReg_reg_ne v hj hne, rfl,
    clearBit0_toNat v, s.setReg_t i v, s.setReg_flags i v,
    ⟨fun a => congrArg (Memory.byteAt · a) (s.setReg_mem i v), s.setReg_stored i v⟩,
    s.setReg_halted i v, s.setReg_trap i v, s.setReg_cfg i v⟩

/-- Settles O49: each mode is a sum of words, and the PC-relative one of two multiples of 4. -/
theorem addressingModes : Obligations.AddressingModes := by
  intro s rn rm immed5 immed8
  refine ⟨toNat_add_scaled _ immed5 4, toNat_add_scaled _ immed5 2, ?byte, BitVec.toNat_add _ _, s.addrPc_toNat immed8,
    ?aligned, toNat_add_scaled _ immed8 4⟩
  case byte => rw [State.addrImmediate, toNat_add_scaled, Nat.mul_one]
  case aligned => rw [State.addrPc_toNat]; omega

/-- Settles O48: a write that succeeds is a `poke` at an aligned address. -/
theorem loadAfterStoreSeesTheStore : Obligations.LoadAfterStoreSeesTheStore := by
  intro s t a v n hwrite
  obtain ⟨hok, rfl⟩ := State.memWrite_eq_ok.1 hwrite
  have haccess := State.accessFault_eq_none_iff_accessible.1 hok
  exact ⟨State.memRead_poke v haccess, fun hwf => State.poke_wf hwf haccess.1,
    fun b m hdisjoint => State.memRead_poke_of_disjoint hdisjoint⟩

end Sys2Proof.Machine

/-! The additions and MUL (40_arithmetic.md R122 to R124, R133; 41_logical_move.md R155), and what the conditions of
Table A.1 say after a comparison. -/

namespace Sys2Proof.Machine

open Sys2Proof Sys2Proof.Claims

/-! ## Products -/

/-- The low 32 bits of a product do not depend on how its operands are read (40_arithmetic.md R133). -/
theorem mul_eq_ofInt_toInt (a b : Word) : a * b = BitVec.ofInt 32 (a.toInt * b.toInt) := by
  rw [BitVec.ofInt_mul, BitVec.ofInt_toInt, BitVec.ofInt_toInt]

theorem execMul_eq (rm rd : LowReg) (s : State) :
    execMul rm rd s = s.writeLogical rd (s.reg (lo rm) * s.reg (lo rd)) := by
  rw [execMul, State.writeLogical, BitVec.ofNat_mul, BitVec.ofNat_toNat, BitVec.ofNat_toNat, BitVec.setWidth_eq,
    BitVec.setWidth_eq]

/-! ## A sum with zero -/

/-- Adding zero neither carries nor overflows. -/
theorem addFlags_zero {a : Word} {f : Flags} (h : AddFlags a 0#32 0 f) : NZOf a f ∧ f.c = false ∧ f.v = false := by
  obtain ⟨hnz, hc, hv⟩ := h
  have hsum : a + 0#32 + BitVec.ofNat 32 0 = a := by simp
  refine ⟨hsum ▸ hnz, Bool.eq_false_iff.2 fun hcarry => ?carry, Bool.eq_false_iff.2 fun hoverflow => ?overflow⟩
  case carry =>
    have hle := hc.1 hcarry
    have hlt := a.isLt
    have hzero : (0#32).toNat = 0 := rfl
    omega
  case overflow =>
    have hout := hv.1 hoverflow
    have hlow := BitVec.le_toInt a
    have hhigh := BitVec.toInt_lt (x := a)
    have hzero : (0#32).toInt = 0 := rfl
    omega

/-! ## The conditions after a comparison (Table A.1) -/

section
variable {a b : Word} {f : Flags} (h : SubFlags a b 0 f)
include h

theorem subFlags_z_iff : f.z = true ↔ a = b := by
  obtain ⟨⟨-, hz⟩, -, -⟩ := h
  rw [hz]
  constructor
  · intro hzero
    bv_omega
  · rintro rfl
    bv_omega

theorem subFlags_c_iff : f.c = true ↔ b.toNat ≤ a.toNat := by
  obtain ⟨-, hc, -⟩ := h
  exact hc

/-- The sign of the difference is that of the exact one, unless the difference overflowed. -/
theorem subFlags_n_ne_v_iff : (f.n != f.v) = true ↔ a.toInt < b.toInt := by
  obtain ⟨⟨hn, -⟩, -, hv⟩ := h
  have hdiff : (a - b - BitVec.ofNat 32 0).toInt = (a.toInt - b.toInt).bmod (2 ^ 32) := by
    rw [← BitVec.toInt_sub]
    exact congrArg BitVec.toInt (BitVec.sub_zero _)
  have hsign : f.n = true ↔ (a.toInt - b.toInt).bmod (2 ^ 32) < 0 := by
    rw [hn, BitVec.msb_eq_toInt, hdiff, decide_eq_true_iff]
  have halow := BitVec.le_toInt a
  have hahigh := BitVec.toInt_lt (x := a)
  have hblow := BitVec.le_toInt b
  have hbhigh := BitVec.toInt_lt (x := b)
  rw [bne_iff_ne, ne_eq, Bool.eq_iff_iff, hsign, hv]
  rw [Int.bmod_def]
  split <;> omega

theorem subFlags_n_eq_v_iff : (f.n == f.v) = true ↔ b.toInt ≤ a.toInt := by
  have hlt := subFlags_n_ne_v_iff h
  rw [bne, Bool.not_eq_true'] at hlt
  rw [← not_lt, ← hlt, Bool.not_eq_false]

end

/-! ## The obligations -/

/-- Settles O19: each is a sum without carry in, and MOV_2's second operand, like ADD_1's immediate 000, is zero. -/
theorem addResults : Obligations.AddResults := by
  intro s rm rn rd immed3 immed8 hpc
  rw [ofNat_toNat_eq_immediate, ofNat_toNat_eq_immediate]
  refine ⟨decode_readRRR rfl (by decide) rm rn rd, fun hne => decode_add1 hne rn rd, decode_mov2 rn rd,
    decode_readRI8 rfl (by decide) rd immed8, State.writeSum_addInto hpc rd _ _ false,
    State.writeSum_addInto hpc rd _ _ false, ?mov2, rfl, State.writeSum_addInto hpc rd _ _ false⟩
  case mov2 =>
    obtain ⟨t, ht, hreg, hflags, hnext, hkeeps⟩ := State.writeSum_addInto hpc rd (s.reg (lo rn)) 0#32 false
    have hsum : s.reg (lo rn) + 0#32 + BitVec.ofNat 32 0 = s.reg (lo rn) := by simp
    obtain ⟨hnz, hc, hv⟩ := addFlags_zero hflags
    exact ⟨t, ht, hreg.trans hsum, hnz, hc, hv, hnext, hkeeps⟩

/-- Settles O28: MUL writes its product as a logical instruction writes its result. -/
theorem multiplyResults : Obligations.MultiplyResults := by
  intro s rm rd hpc
  refine ⟨decode_readALU rfl (by decide) rm rd, ?product⟩
  case product =>
    obtain ⟨t, ht, hlogic⟩ := State.writeLogical_logicInto hpc rd (s.reg (lo rm) * s.reg (lo rd))
    exact ⟨t, (execMul_eq rm rd s).trans ht, hlogic, hlogic.1.trans (mul_eq_ofInt_toInt _ _)⟩

/-- Settles O23: Z says equal, C not below, and N apart from V less. -/
theorem conditionsAfterCompareMeanTheirNames : Obligations.ConditionsAfterCompareMeanTheirNames := by
  intro s t rm rn hexec a b
  obtain ⟨hpc, -⟩ := State.retire_eq_next.1 (hexec : (s.setNZCV _).retire = .next t)
  obtain ⟨u, hu, hflags, -⟩ := State.compareSum_subtraction hpc a b
  obtain rfl : u = t := Host.Outcome.next.inj (hu.symm.trans hexec)
  have hz := subFlags_z_iff hflags
  have hc := subFlags_c_iff hflags
  have hlt := subFlags_n_ne_v_iff hflags
  have hge := subFlags_n_eq_v_iff hflags
  have hnat : a = b ↔ a.toNat = b.toNat := BitVec.toNat_inj.symm
  have hint : a = b ↔ a.toInt = b.toInt := BitVec.toInt_inj.symm
  simp only [conditionPassed, Bool.and_eq_true, Bool.or_eq_true, Bool.not_eq_true', ← Bool.not_eq_true, hz, hc, hlt,
    hge, ne_eq, true_and]
  refine ⟨Nat.not_le, ?hi, ?ls, ?gt, ?le⟩
  case hi | ls => rw [hnat]; omega
  case gt | le => rw [hint]; omega

end Sys2Proof.Machine

/-! The shift functions of 00_scope.md R11 as their one-bit shifts repeated. -/

namespace Sys2Proof.Machine

open Sys2Proof Sys2Proof.Claims

/-- A shift function that shifts nothing by zero, and by one more as its one-bit shift does, is that shift repeated. -/
theorem iterates_of_succ {f : Word → Nat → Shifted} {once : Word × Bool → Word × Bool}
    (hzero : ∀ v c, ((f v 0).result, (f v 0).carry.getD c) = (v, c))
    (hsucc : ∀ v n c,
      ((f v (n + 1)).result, (f v (n + 1)).carry.getD c) = once ((f v n).result, (f v n).carry.getD c)) :
    Iterates f once := by
  intro v n c
  induction n with
  | zero => exact hzero v c
  | succ n ih => rw [hsucc, ih, Function.iterate_succ_apply']

theorem lslC_iterates : Iterates lslC leftOnce := by
  refine iterates_of_succ (fun _ _ => rfl) fun v n c => Prod.ext ?_ ?_
  · rw [leftOnce, lslC_result, lslC_result, BitVec.shiftLeft_add]
  · rw [lslC_carry]
    exact Eq.trans (by simp [leftOut, leftBit, Nat.lt_succ_iff]) (lslC_getLsbD v n 31 (by decide)).symm

theorem lsrC_iterates : Iterates lsrC rightOnce := by
  refine iterates_of_succ (fun _ _ => rfl) fun v n c => Prod.ext ?_ ?_
  · rw [rightOnce, lsrC_result, lsrC_result, BitVec.shiftRight_add]
  · rw [lsrC_carry]
    exact Eq.trans (by simp [rightOut, rightBit]) (lsrC_getLsbD v n 0).symm

theorem asrC_iterates : Iterates asrC signedOnce := by
  refine iterates_of_succ (fun _ _ => rfl) fun v n c => Prod.ext ?_ ?_
  · rw [signedOnce, asrC_result, asrC_result, BitVec.sshiftRight_add]
  · rw [asrC_carry]
    exact Eq.trans (by simp [signedOut, signedBit]) (asrC_getLsbD v n 0 (by decide)).symm

/-- A rotation by one more is one more rotation by one. -/
theorem rorC_succ (v : Word) (n : Nat) : (rorC v (n + 1)).result = (rorC v n).result.rotateRight 1 := by
  rw [← rorC_result _ 1]
  refine BitVec.eq_of_getLsbD_eq fun j hj => ?_
  rw [rorC_getLsbD v _ j hj, rorC_getLsbD _ 1 j hj, rotatedBit, rotatedBit, rorC_getLsbD v n _ (by omega), rotatedBit]
  congr 1
  omega

theorem rorC_iterates : Iterates rorC rotateOnce := by
  refine iterates_of_succ (fun _ _ => rfl) fun v n c => Prod.ext ?_ ?_
  · exact rorC_succ v n
  · rw [rorC_carry]
    exact Eq.trans (by simp [rotatedOut, rotatedBit]) (rorC_getLsbD v n 0 (by decide)).symm

/-- Settles O32: each shift by one more is one more single shift, in the value and in the bit that leaves. -/
theorem shiftsIterateTheOneBitShift : Obligations.ShiftsIterateTheOneBitShift :=
  ⟨lslC_iterates, lsrC_iterates, asrC_iterates, rorC_iterates⟩

end Sys2Proof.Machine

/-! The branch and exchange instructions (43_branch.md R194, R196, R197) and the system instructions (44_system.md): the
states an exchange, a trap and the halt leave, and what the HDL profile lacks (30_encoding.md R109). -/

namespace Sys2Proof.Machine

open Sys2Proof Sys2Proof.Claims

/-! ## Cleared bits as numbers -/

theorem clearBit0_eq_ofNat (v : Word) : clearBit0 v = BitVec.ofNat 32 (v.toNat / 2 * 2) := by
  rw [← clearBit0_toNat, BitVec.ofNat_toNat, BitVec.setWidth_eq]

theorem clearLow2_even (v : Word) : (clearLow2 v).getLsbD 0 = false := by
  rw [clearLow2_getLsbD]; exact Bool.and_false _

/-- A multiple of 4 has no bit 0 to drop. -/
theorem clearBit0_clearLow2 (v : Word) : clearBit0 (clearLow2 v) = clearLow2 v := by
  refine BitVec.eq_of_toNat_eq ?_
  rw [clearBit0_toNat, clearLow2_toNat]
  omega

/-! ## The states an exchange leaves -/

theorem State.setReg_sameRegs (s : State) (d : Reg) (v : Word) : SameRegs s (s.setReg d v) [d] :=
  fun _ hi hne => s.setReg_reg_ne v hi (List.ne_of_not_mem_cons hne)

/-- The frame of the registers is said of the field `regs` alone. -/
theorem sameRegs_of_regs_eq {s t u : State} {dests : List Reg} (h : SameRegs s t dests) (hu : u.regs = t.regs) :
    SameRegs s u dests :=
  fun i hi hne => (State.reg_congr hu hi).trans (h i hi hne)

theorem State.branchExchange_exchangesTo (s : State) (v : Word) :
    ∃ t, s.branchExchange v = .next t ∧ ExchangesTo s (clearBit0 v) (v.getLsbD 0) [] t :=
  ⟨_, rfl, rfl, rfl, rfl, fun _ hi _ => State.reg_congr rfl hi, ⟨fun _ => rfl, rfl⟩, rfl, rfl, rfl⟩

/-- A linking exchange writes the link value like a moved value, and T and the pc besides. -/
theorem State.link_exchangesTo (s : State) (v : Word) :
    ∃ t, (s.setReg lrReg s.linkValue).branchExchange v = .next t ∧
      ExchangesTo s (clearBit0 v) (v.getLsbD 0) [lrReg] t ∧ t.reg lrReg = (s.pc + 2#32) ||| 1#32 := by
  refine ⟨_, rfl, ⟨rfl, rfl, s.setReg_flags lrReg s.linkValue, ?regs,
    ⟨fun a => congrArg (Memory.byteAt · a) (s.setReg_mem lrReg s.linkValue), s.setReg_stored lrReg s.linkValue⟩,
    s.setReg_halted lrReg s.linkValue, s.setReg_trap lrReg s.linkValue, s.setReg_cfg lrReg s.linkValue⟩, ?link⟩
  case regs => exact sameRegs_of_regs_eq (s.setReg_sameRegs lrReg s.linkValue) rfl
  case link =>
    have hlink : (s.setReg lrReg s.linkValue).reg lrReg = s.linkValue := s.setReg_reg _ lrReg_ne_pcReg
    exact (State.reg_congr rfl lrReg_ne_pcReg).trans hlink

/-! ## The meanings past their checks -/

section
variable {s : State}

theorem execBx_of_arch (harch : s.cfg.profile = .arch) (rm : Reg) :
    execBx rm 0#3 s = s.branchExchange (s.reg rm) :=
  State.archOnly_arch harch

theorem execBlx2_of_v5 (hv5 : s.cfg.tvariant = .v5) (harch : s.cfg.profile = .arch) {rm : Reg} (hrm : rm ≠ lrReg) :
    execBlx2 rm 0#3 s = (s.setReg lrReg s.linkValue).branchExchange (s.reg rm) :=
  (State.fromV5_v5 hv5).trans ((State.archOnly_arch harch).trans (if_neg hrm))

theorem execBlxH01_of_v5 (hv5 : s.cfg.tvariant = .v5) (harch : s.cfg.profile = .arch) (o : BitVec 11) :
    execBlxH01 o s = (s.setReg lrReg s.linkValue).branchExchange (clearLow2 (s.blTarget o)) :=
  (State.fromV5_v5 hv5).trans (State.archOnly_arch harch)

theorem branchExchange_of_execBx {t : State} {rm : Reg} {sbz : BitVec 3} (h : execBx rm sbz s = .next t) :
    s.branchExchange (s.reg rm) = .next t := by
  obtain ⟨-, h⟩ := State.archOnly_eq_next.1 h
  split at h
  · simp at h
  · exact h

theorem link_of_execBlx2 {t : State} {rm : Reg} {sbz : BitVec 3} (h : execBlx2 rm sbz s = .next t) :
    (s.setReg lrReg s.linkValue).branchExchange (s.reg rm) = .next t := by
  obtain ⟨-, h⟩ := State.fromV5_eq_next.1 h
  obtain ⟨-, h⟩ := State.archOnly_eq_next.1 h
  split at h
  · simp at h
  · split at h
    · simp at h
    · exact h

theorem link_of_execBlxH01 {t : State} {o : BitVec 11} (h : execBlxH01 o s = .next t) :
    (s.setReg lrReg s.linkValue).branchExchange (clearLow2 (s.blTarget o)) = .next t := by
  obtain ⟨-, h⟩ := State.fromV5_eq_next.1 h
  exact (State.archOnly_eq_next.1 h).2

theorem execBkpt_of_v5 (hv5 : s.cfg.tvariant = .v5) (harch : s.cfg.profile = .arch) (v : BitVec 8) :
    execBkpt v s = s.takeTrap .breakpoint v :=
  (State.fromV5_v5 hv5).trans (State.archOnly_arch harch)

theorem execSwi_of_arch (harch : s.cfg.profile = .arch) (v : BitVec 8) :
    execSwi v s = s.takeTrap .softwareInterrupt v := by rw [execSwi, harch]

theorem execSwi_of_hdl (hhdl : s.cfg.profile = .hdl) (v : BitVec 8) : execSwi v s = s.halt := by rw [execSwi, hhdl]

theorem execBx_of_hdl (hhdl : s.cfg.profile = .hdl) (rm : Reg) (sbz : BitVec 3) :
    execBx rm sbz s = .refused (.notImplementedInHDL "BX") :=
  State.archOnly_hdl hhdl

theorem execBlx2_of_hdl (hv5 : s.cfg.tvariant = .v5) (hhdl : s.cfg.profile = .hdl) (rm : Reg) (sbz : BitVec 3) :
    execBlx2 rm sbz s = .refused (.notImplementedInHDL "BLX_2") :=
  (State.fromV5_v5 hv5).trans (State.archOnly_hdl hhdl)

theorem execBlxH01_of_hdl (hv5 : s.cfg.tvariant = .v5) (hhdl : s.cfg.profile = .hdl) (o : BitVec 11) :
    execBlxH01 o s = .refused (.notImplementedInHDL "BLX_H01") :=
  (State.fromV5_v5 hv5).trans (State.archOnly_hdl hhdl)

theorem execBkpt_of_hdl (hv5 : s.cfg.tvariant = .v5) (hhdl : s.cfg.profile = .hdl) (v : BitVec 8) :
    execBkpt v s = .refused (.notImplementedInHDL "BKPT") :=
  (State.fromV5_v5 hv5).trans (State.archOnly_hdl hhdl)

end

/-- BLX_H01 links and goes to a multiple of 4, an even address, so T is cleared (43_branch.md R194). -/
theorem blxH01_gives {s : State} (hv5 : s.cfg.tvariant = .v5) (harch : s.cfg.profile = .arch) {o : BitVec 11}
    {off : Word} (hoff : s.blLow o = off) :
    Gives (.blxH01 o) s (fun t =>
      ExchangesTo s (BitVec.ofNat 32 ((s.reg lrReg + off).toNat / 4 * 4)) false [lrReg] t ∧
      t.reg lrReg = (s.pc + 2#32) ||| 1#32) := by
  obtain ⟨t, ht, hexchange, hlink⟩ := s.link_exchangesTo (clearLow2 (s.reg lrReg + off))
  rw [clearBit0_clearLow2, clearLow2_even, clearLow2_eq_ofNat] at hexchange
  refine ⟨t, (execBlxH01_of_v5 hv5 harch o).trans ?_, hexchange, hlink⟩
  rw [State.blTarget, hoff, ht]

/-! ## Traps and the halt -/

/-- A running machine stops at the step after a trap, with that trap (entry 8). -/
theorem step_of_trap {s : State} {e : Trap} (hhalted : s.halted = false) (ht : s.t = true) (htrap : s.trap = some e) :
    step s = .refused (.trapped e) := by
  obtain ⟨-, -, htrapped, -⟩ := stepChecksInOrder s
  exact htrapped e hhalted ht htrap

theorem State.takeTrap_of_ne {s : State} {kind : TrapKind} {v : BitVec 8} (hpc : s.pc ≠ topPc) :
    ∃ t, s.takeTrap kind v = .next t ∧ t.trap = some ⟨kind, v, s.pc + 2#32⟩ ∧ { t with trap := s.trap } = s ∧
      (s.halted = false → s.t = true → step t = .refused (.trapped ⟨kind, v, s.pc + 2#32⟩)) :=
  ⟨_, State.unlessTop_of_ne hpc, rfl, rfl, fun hhalted ht => step_of_trap hhalted ht rfl⟩

theorem State.halt_of_ne {s : State} (hpc : s.pc ≠ topPc) :
    ∃ t, s.halt = .next t ∧ t.halted = true ∧ t.pc = s.pc + 2#32 ∧ { t with halted := s.halted, pc := s.pc } = s ∧
      step t = .fault .halted :=
  ⟨_, State.unlessTop_of_ne hpc, rfl, rfl, rfl, rfl⟩

/-- Resuming from a trap taken with none pending goes on after the trapping instruction (entry 32). -/
theorem State.resumeFromTrap_of_takeTrap {s t : State} {kind : TrapKind} {v : BitVec 8} (hnone : s.trap = none)
    (h : s.takeTrap kind v = .next t) : t.resumeFromTrap = { s with pc := s.pc + 2#32 } := by
  obtain ⟨-, rfl⟩ := State.takeTrap_eq_next.1 h
  simp only [State.resumeFromTrap, ← hnone]
  rfl

/-! ## The obligations -/

/-- Settles O37: past its two checks it is a linking exchange to a multiple of 4. -/
theorem branchLinkExchangeImmediateResults : Obligations.BranchLinkExchangeImmediateResults := by
  intro s o
  refine ⟨decode_readB11 rfl (by decide) o, fun hv4 => State.fromV5_v4 hv4,
    fun hv5 hhdl => execBlxH01_of_hdl hv5 hhdl o, fun hv5 harch => ?_⟩
  cases hext : s.cfg.blLowExt with
  | zero => exact blxH01_gives hv5 harch (State.blLow_zero hext o)
  | sign => exact blxH01_gives hv5 harch (State.blLow_sign hext o)

/-- Settles O38: past its four checks it is a linking exchange to Rm, read before LR is written. -/
theorem branchLinkExchangeRegisterResults : Obligations.BranchLinkExchangeRegisterResults := by
  intro s rm sbz
  refine ⟨decode_readBXF rfl (by decide) rm sbz, fun hv4 => State.fromV5_v4 hv4,
    fun hv5 hhdl => execBlx2_of_hdl hv5 hhdl rm sbz, fun hv5 harch =>
    ⟨fun hsbz => execBlx2_sbz harch rm hsbz hv5, execBlx2_lrReg harch hv5, fun hrm => ?exchange⟩⟩
  case exchange =>
    obtain ⟨t, ht, hexchange⟩ := s.link_exchangesTo (s.reg rm)
    rw [clearBit0_eq_ofNat] at hexchange
    exact ⟨t, (execBlx2_of_v5 hv5 harch hrm).trans ht, hexchange⟩

/-- Settles O39: past its two checks it is an exchange to Rm. -/
theorem branchExchangeResults : Obligations.BranchExchangeResults := by
  intro s rm sbz
  refine ⟨decode_readBXF rfl (by decide) rm sbz, fun hhdl => execBx_of_hdl hhdl rm sbz, fun harch =>
    ⟨fun hsbz => execBx_sbz harch rm hsbz, ?exchange⟩⟩
  case exchange =>
    obtain ⟨t, ht, hexchange⟩ := s.branchExchange_exchangesTo (s.reg rm)
    rw [clearBit0_eq_ofNat] at hexchange
    exact ⟨t, (execBx_of_arch harch rm).trans ht, hexchange⟩

/-- Settles O40: past its two checks it is a trap, refused at 0xFFFFFFFE. -/
theorem breakpointResults : Obligations.BreakpointResults := by
  intro s v
  refine ⟨decode_bkpt v, fun hv4 => State.fromV5_v4 hv4, fun hv5 hhdl => execBkpt_of_hdl hv5 hhdl v,
    fun hv5 harch => ?_⟩
  have hexec : exec (.bkpt v) s = s.takeTrap .breakpoint v := execBkpt_of_v5 hv5 harch v
  rw [Gives, hexec]
  exact ⟨State.unlessTop_top, State.takeTrap_of_ne⟩

theorem execSwi_top {s : State} (hpc : s.pc = topPc) (v : BitVec 8) :
    execSwi v s = .refused (.unpredictable .pcWrap) := by
  cases hprofile : s.cfg.profile with
  | arch => exact (execSwi_of_arch hprofile v).trans (State.unlessTop_top hpc)
  | hdl => exact (execSwi_of_hdl hprofile v).trans (State.unlessTop_top hpc)

/-- Settles O41: a trap in one profile and the halt in the other, both refused at 0xFFFFFFFE. -/
theorem softwareInterruptResults : Obligations.SoftwareInterruptResults := by
  intro s v
  refine ⟨decode_swi v, fun hpc => execSwi_top hpc v, fun harch hpc => ?trap, fun hhdl hpc => ?halt⟩
  case trap =>
    obtain ⟨t, ht, htrapped⟩ := State.takeTrap_of_ne (kind := .softwareInterrupt) (v := v) hpc
    exact ⟨t, (execSwi_of_arch harch v).trans ht, htrapped⟩
  case halt =>
    obtain ⟨t, ht, hhalted⟩ := State.halt_of_ne hpc
    exact ⟨t, (execSwi_of_hdl hhdl v).trans ht, hhalted⟩

/-- Settles O43: SWI and BKPT end, in the ARCH profile, in the trap the environment resumes from. -/
theorem trapReturnResumesAfterTheTrap : Obligations.TrapReturnResumesAfterTheTrap := by
  intro s t v hnone harch hexec
  rcases hexec with hswi | hbkpt
  · exact State.resumeFromTrap_of_takeTrap hnone ((execSwi_of_arch harch v).symm.trans hswi)
  · obtain ⟨hv5, htrap⟩ := State.fromV5_eq_next.1 (hbkpt : execBkpt v s = .next t)
    obtain ⟨-, htrap⟩ := State.archOnly_eq_next.1 htrap
    exact State.resumeFromTrap_of_takeTrap hnone htrap

/-- Settles O45: the check of the profile is the first of the six forms, and the second of the three with a version. -/
theorem hdlProfileRefusesWhatItLacks : Obligations.HdlProfileRefusesWhatItLacks := by
  intro s rm rd rn list v o sbz hhdl
  exact ⟨State.archOnly_hdl hhdl, execBx_of_hdl hhdl rm sbz, State.archOnly_hdl hhdl, State.archOnly_hdl hhdl,
    State.archOnly_hdl hhdl, State.archOnly_hdl hhdl, fun hv5 =>
    ⟨execBkpt_of_hdl hv5 hhdl v, execBlxH01_of_hdl hv5 hhdl o, execBlx2_of_hdl hv5 hhdl rm sbz⟩⟩

end Sys2Proof.Machine

/-! The BL and BLX pairs taken together (43_branch.md R195): the sum of the two parts of the offset, the state after
both halves, and the targets the assembler's split reaches (30_encoding.md R105). -/

namespace Sys2Proof.Machine

open Sys2Proof Sys2Proof.Claims

/-! ## The offset of a pair -/

/-- With the low part zero-extended the two fields are one signed number of 23 bits. -/
theorem signExtend_pair (hi low : BitVec 11) :
    (hi ++ low ++ 0#1).signExtend 32 = blHigh hi + BitVec.ofNat 32 (2 * low.toNat) := by
  have hvalue : (hi ++ low ++ 0#1).toInt = 4096 * hi.toInt + (2 * low.toNat : Nat) := by
    rw [BitVec.toInt_append_zero, BitVec.toInt_append]
    simp only [show ((11 : Nat) == 0) = false from rfl, Bool.false_eq_true, if_false]
    omega
  rw [BitVec.signExtend, hvalue, BitVec.ofInt_add, blHigh_eq_ofInt, BitVec.ofInt_natCast]

theorem blHigh_even (o : BitVec 11) : (blHigh o).getLsbD 0 = false := by
  rw [blHigh, BitVec.getLsbD_signExtend, BitVec.getLsbD_append]
  simp

theorem State.blLow_even (s : State) (o : BitVec 11) : (s.blLow o).getLsbD 0 = false := by
  unfold State.blLow
  cases s.cfg.blLowExt with
  | zero => rw [BitVec.getLsbD_setWidth, BitVec.getLsbD_append]; simp
  | sign => rw [BitVec.getLsbD_signExtend, BitVec.getLsbD_append]; simp

theorem clearBit0_of_even {v : Word} (h : v.getLsbD 0 = false) : clearBit0 v = v := by
  refine BitVec.eq_of_toNat_eq ?_
  have hmod := mod_two_of_even h
  rw [clearBit0_toNat]
  omega

/-- The assembler's split of an even distance within 23 bits, put together again (30_encoding.md R105). -/
theorem signExtend_split {d : Word} (heven : d.getLsbD 0 = false) (hlow : -2 ^ 22 ≤ d.toInt)
    (hhigh : d.toInt ≤ 2 ^ 22 - 2) : (d.extractLsb' 12 11 ++ d.extractLsb' 1 11 ++ 0#1).signExtend 32 = d := by
  have hbit : (0#1 : BitVec 1) = d.extractLsb' 0 1 := by
    refine BitVec.eq_of_getLsbD_eq fun j hj => ?_
    obtain rfl : j = 0 := by omega
    rw [BitVec.getLsbD_extractLsb', heven]
    rfl
  have hjoin : d.extractLsb' 12 11 ++ d.extractLsb' 1 11 ++ 0#1 = d.setWidth 23 := by
    rw [hbit, BitVec.extractLsb'_append_extractLsb'_eq_extractLsb' (by rfl),
      BitVec.extractLsb'_append_extractLsb'_eq_extractLsb' (by rfl)]
    exact BitVec.ofNat_toNat 23 d
  have hvalue : (d.setWidth 23).toInt = d.toInt := by
    have hd := BitVec.toInt_eq_toNat_bmod d
    rw [BitVec.toInt_setWidth]
    rw [Int.bmod_def] at hd ⊢
    omega
  rw [hjoin, BitVec.signExtend, hvalue, BitVec.ofInt_toInt]

/-! ## The two halves -/

theorem keeps_trans {s t u : State} {dests : List Reg} (h : Keeps s t dests) (k : Keeps t u dests) :
    Keeps s u dests := by
  obtain ⟨hregs, ⟨hmem, hstored⟩, ht, hhalted, htrap, hcfg⟩ := h
  obtain ⟨kregs, ⟨kmem, kstored⟩, kt, khalted, ktrap, kcfg⟩ := k
  exact ⟨fun i hi hne => (kregs i hi hne).trans (hregs i hi hne),
    ⟨fun a => (kmem a).trans (hmem a), kstored.trans hstored⟩, kt.trans ht, khalted.trans hhalted,
    ktrap.trans htrap, kcfg.trans hcfg⟩

/-- An answer known to be the next state `t` has what is known of that answer. -/
theorem of_gives {r : Result} {t : State} {P : State → Prop} (h : ∃ u, r = .next u ∧ P u) (ht : r = .next t) : P t := by
  obtain ⟨u, hu, hP⟩ := h
  exact Host.Outcome.next.inj (hu.symm.trans ht) ▸ hP

section
variable {s t u : State} {hi low : BitVec 11} {offset : Word}

/-- After the first half LR holds PCval plus the high part. -/
theorem blH10_moveInto (h : exec (.blH10 hi) s = .next t) : MoveInto s lrReg (s.pcValue + blHigh hi) t := by
  have hback : s.writeBack lrReg (s.pcValue + blHigh hi) = .next t := h
  have hretire := hback
  rw [State.writeBack_of_ne _ lrReg_ne_pcReg, State.retire_eq_next, State.setReg_pc _ _ lrReg_ne_pcReg] at hretire
  exact of_gives (State.writeBack_moveInto _ lrReg_ne_pcReg hretire.1) hback

variable (hread : s.cfg.pcReadOffset = 4#32) (hfirst : MoveInto s lrReg (s.pcValue + blHigh hi) t)
  (hoffset : blHigh hi + t.blLow low = offset)
include hread hfirst hoffset

theorem blTarget_pair : t.blTarget low = s.pc + 4#32 + offset := by
  obtain ⟨hlr, -⟩ := hfirst
  rw [State.blTarget, hlr, State.pcValue, hread, BitVec.add_assoc (s.pc + 4#32), hoffset]

theorem blxPair_call (h : exec (.blxH01 low) t = .next u) :
    u.reg lrReg = (s.pc + 4#32) ||| 1#32 ∧ u.pc.toNat = (s.pc + 4#32 + offset).toNat / 4 * 4 ∧ u.t = false ∧
      u.flags = s.flags := by
  obtain ⟨⟨hpc, ht, hflags, -⟩, hlink⟩ := of_gives (t.link_exchangesTo _) (link_of_execBlxH01 h)
  rw [clearBit0_clearLow2, blTarget_pair hread hfirst hoffset] at hpc
  obtain ⟨-, hflags', hnext, -⟩ := hfirst
  rw [hnext, BitVec.add_assoc] at hlink
  exact ⟨hlink, hpc ▸ clearLow2_toNat _, ht.trans (clearLow2_even _), hflags.trans hflags'⟩

variable (heven : s.pc.getLsbD 0 = false)
include heven

theorem blTarget_pair_even : (t.blTarget low).getLsbD 0 = false := by
  rw [blTarget_pair hread hfirst hoffset, ← hoffset]
  exact even_add (even_add heven rfl) (even_add (blHigh_even hi) (t.blLow_even low))

theorem blPair_call (h : exec (.blH11 low) t = .next u) :
    u.reg lrReg = (s.pc + 4#32) ||| 1#32 ∧ u.pc = s.pc + 4#32 + offset ∧ u.flags = s.flags ∧
      Keeps s u [lrReg] := by
  obtain ⟨hlink, hpc, hflags, hkeeps⟩ := of_gives (t.call_branchesTo (clearBit0 (t.blTarget low))) h
  have htarget := blTarget_pair hread hfirst hoffset
  rw [clearBit0_of_even (blTarget_pair_even hread hfirst hoffset heven), htarget] at hpc
  obtain ⟨-, hflags', hnext, hkeeps'⟩ := hfirst
  rw [hnext, BitVec.add_assoc] at hlink
  exact ⟨hlink, hpc, hflags.trans hflags', keeps_trans hkeeps' hkeeps⟩

end

/-! ## The obligation -/

/-- Settles O36: the halves add the high and the low part to PCval, and the assembler's fields are the two parts of the
distance. -/
theorem branchWithLinkPairReachesItsTarget : Obligations.BranchWithLinkPairReachesItsTarget := by
  intro s t u hi low hread heven hexec
  have hfirst := blH10_moveInto hexec
  have hcfg : t.cfg = s.cfg := by
    obtain ⟨-, -, -, -, -, -, -, -, hcfg⟩ := hfirst
    exact hcfg
  cases hext : s.cfg.blLowExt with
  | zero =>
    have hoffset : blHigh hi + t.blLow low = (hi ++ low ++ 0#1).signExtend 32 := by
      rw [State.blLow_zero (hcfg ▸ hext), signExtend_pair]
    refine ⟨blPair_call hread hfirst hoffset heven, blxPair_call hread hfirst hoffset,
      fun target hd hlow hhigh _ hhi hlo hcall => ?reached⟩
    obtain ⟨-, hpc, -⟩ := blPair_call hread hfirst hoffset heven hcall
    rw [hpc, hhi, hlo, signExtend_split hd hlow hhigh, BitVec.add_comm]
    exact BitVec.sub_add_cancel ..
  | sign =>
    have hoffset : blHigh hi + t.blLow low = BitVec.ofInt 32 (4096 * hi.toInt + 2 * low.toInt) := by
      rw [State.blLow_sign (hcfg ▸ hext), blHigh_eq_ofInt, BitVec.ofInt_add]
    exact ⟨blPair_call hread hfirst hoffset heven, blxPair_call hread hfirst hoffset,
      fun _ _ _ _ hzero => LowExt.noConfusion hzero⟩

end Sys2Proof.Machine

/-! What an instruction leaves as it was, by the table of each component: the registers above R7, the flags, the pc of
an instruction that does not branch, T, memory and the exits (10_state.md R21, R26, R33, R34; 43_branch.md R198). -/

namespace Sys2Proof.Machine

open Sys2Proof Sys2Proof.Claims

/-! ## The frame of an instruction -/

/-- The registers above R7 that an instruction writes (10_state.md R21, R23; 43_branch.md R198). -/
def highDests : Instr → List Reg
  | .add4 _ rd | .mov3 _ rd => [rd]
  | .blH10 .. | .blH11 .. | .blxH01 .. | .blx2 .. => [lrReg]
  | .add7 .. | .sub4 .. | .push .. | .pop .. => [spReg]
  | _ => []

/-- The flags that the table of 10_state.md R34 does not give to `i` are in `f` as in `s`. -/
structure KeepsFlags (i : Instr) (s : State) (f : Flags) : Prop where
  nz : writesNZ i = false → f.n = s.flags.n ∧ f.z = s.flags.z
  c : writesC i = false → f.c = s.flags.c
  v : writesV i = false → f.v = s.flags.v

/-- Every register above R7 but those `i` names is in `t` as in `s`. -/
def KeepsHigh (i : Instr) (s t : State) : Prop :=
  ∀ r : Reg, 8 ≤ r.val → r ≠ pcReg → r ∉ highDests i → t.reg r = s.reg r

/-- What `i` may have changed between `s` and `t`, and the pc when it does not branch. -/
structure Frame (i : Instr) (s t : State) : Prop where
  high : KeepsHigh i s t
  flags : KeepsFlags i s t.flags
  pc : branchesIn s i = false → s.pc ≠ topPc ∧ t.pc = if trapsIn s i then s.pc else s.nextPc
  t_eq : t.t = s.t ∨ (∃ rm z, i = .bx rm z) ∨ (∃ rm z, i = .blx2 rm z) ∨ (∃ o, i = .blxH01 o)
  mem_eq : t.mem = s.mem ∨ storing i = true
  halted_eq : t.halted = s.halted ∨ s.cfg.profile = .hdl ∧ ∃ v, i = .swi v
  trap_eq : t.trap = s.trap ∨ s.cfg.profile = .arch ∧ ((∃ v, i = .swi v) ∨ (∃ v, i = .bkpt v))

section
variable {i : Instr} {s t u : State}

theorem KeepsFlags.of_eq (h : t.flags = s.flags) : KeepsFlags i s t.flags :=
  ⟨fun _ => ⟨by rw [h], by rw [h]⟩, fun _ => by rw [h], fun _ => by rw [h]⟩

theorem KeepsFlags.of_setNZCV (hv : writesV i = true) (hnz : writesNZ i = true) (r : Sum) :
    KeepsFlags i s (u.setNZCV r).flags :=
  ⟨fun h => absurd h (by simp [hnz]), fun h => absurd h (by simp [writesC, hv]), fun h => absurd h (by simp [hv])⟩

theorem KeepsHigh.of_regs_eq (h : u.regs = s.regs) : KeepsHigh i s u :=
  fun _ _ hr _ => State.reg_congr h hr

theorem lo_ne_of_high {r : Reg} (hr : 8 ≤ r.val) (rd : LowReg) : r ≠ lo rd := by
  rintro rfl
  exact absurd rd.isLt (Nat.not_lt.2 hr)

theorem KeepsHigh.setReg_lo (rd : LowReg) (v : Word) : KeepsHigh i s (s.setReg (lo rd) v) :=
  fun _ hr hpc _ => s.setReg_reg_ne v hpc (lo_ne_of_high hr rd)

theorem KeepsHigh.setReg_dest {d : Reg} (hd : d ∈ highDests i) (v : Word) : KeepsHigh i s (s.setReg d v) :=
  fun _ _ hpc hr => s.setReg_reg_ne v hpc (ne_of_mem_of_not_mem hd hr).symm

theorem KeepsHigh.setRegs_listRegs (list : BitVec 8) (ws : List Word) :
    KeepsHigh i s (s.setRegs ((listRegs list).zip ws)) := by
  intro r hr hpc _
  refine State.setRegs_zip_reg_ne s _ ws hpc fun hmem => ?_
  obtain ⟨j, -, rfl⟩ := mem_listRegs.1 hmem
  exact lo_ne_of_high hr j rfl

theorem KeepsHigh.trans (h : KeepsHigh i s t) (k : KeepsHigh i t u) : KeepsHigh i s u :=
  fun r hr hpc hne => (k r hr hpc hne).trans (h r hr hpc hne)

theorem Frame.of_kept (hk : Kept s t) (high : KeepsHigh i s t) (flags : KeepsFlags i s t.flags)
    (pc : branchesIn s i = false → s.pc ≠ topPc ∧ t.pc = if trapsIn s i then s.pc else s.nextPc) : Frame i s t :=
  ⟨high, flags, pc, .inl hk.t_eq, .inl hk.mem_eq, .inl hk.halted_eq, .inl hk.trap_eq⟩

theorem pc_of_retire (h : u.retire = .next t) (hpc : u.pc = s.pc) (htraps : trapsIn s i = false) :
    s.pc ≠ topPc ∧ t.pc = if trapsIn s i then s.pc else s.nextPc := by
  obtain ⟨htop, rfl⟩ := State.retire_eq_next.1 h
  rw [htraps, ← hpc]
  exact ⟨htop, congrArg (· + 2#32) hpc⟩

theorem Frame.of_retire (h : u.retire = .next t) (hk : Kept s u) (hpc : u.pc = s.pc) (high : KeepsHigh i s u)
    (flags : KeepsFlags i s u.flags) (htraps : trapsIn s i = false) : Frame i s t := by
  have hnext := pc_of_retire h hpc htraps
  obtain ⟨-, rfl⟩ := State.retire_eq_next.1 h
  exact .of_kept (hk.trans ⟨rfl, rfl, rfl, rfl, rfl, rfl⟩) (high.trans (.of_regs_eq rfl)) flags fun _ => hnext

/-! ## The frame of each shared ending -/

variable (htraps : trapsIn s i = false)
include htraps

theorem Frame.of_writeSum {rd : LowReg} {r : Sum} (hv : writesV i = true) (hnz : writesNZ i = true)
    (h : s.writeSum rd r = .next t) : Frame i s t :=
  .of_retire h ((Kept.setReg s _ _).trans ⟨rfl, rfl, rfl, rfl, rfl, rfl⟩) (by simp)
    ((KeepsHigh.setReg_lo rd _).trans (.of_regs_eq rfl)) (.of_setNZCV hv hnz r) htraps

theorem Frame.of_compareSum {r : Sum} (hv : writesV i = true) (hnz : writesNZ i = true)
    (h : s.compareSum r = .next t) : Frame i s t :=
  .of_retire h ⟨rfl, rfl, rfl, rfl, rfl, rfl⟩ rfl (.of_regs_eq rfl) (.of_setNZCV hv hnz r) htraps

theorem Frame.of_writeLogical {rd : LowReg} {r : Word} (hnz : writesNZ i = true)
    (h : s.writeLogical rd r = .next t) : Frame i s t :=
  .of_retire h ((Kept.setReg s _ _).trans ⟨rfl, rfl, rfl, rfl, rfl, rfl⟩) (by simp)
    ((KeepsHigh.setReg_lo rd _).trans (.of_regs_eq rfl))
    ⟨fun h => absurd h (by simp [hnz]), fun _ => by simp, fun _ => by simp⟩ htraps

theorem Frame.of_writeShifted {rd : LowReg} {r : Shifted} (hc : writesC i = true) (hnz : writesNZ i = true)
    (h : s.writeShifted rd r = .next t) : Frame i s t :=
  .of_retire h ((Kept.setReg s _ _).trans ⟨rfl, rfl, rfl, rfl, rfl, rfl⟩) (by simp)
    ((KeepsHigh.setReg_lo rd _).trans (.of_regs_eq rfl))
    ⟨fun h => absurd h (by simp [hnz]), fun h => absurd h (by simp [hc]), fun _ => by simp⟩ htraps

/-- A write of register 15 is a branch, so an instruction that does not branch writes another. -/
theorem Frame.of_writeBack {d : Reg} {v : Word} (hd : KeepsHigh i s (s.setReg d v))
    (hbranch : d = pcReg → branchesIn s i = true) (h : s.writeBack d v = .next t) : Frame i s t := by
  by_cases hpc : d = pcReg
  · subst hpc
    rw [State.writeBack_pcReg] at h
    cases h
    exact .of_kept ⟨rfl, rfl, rfl, rfl, rfl, rfl⟩ (.of_regs_eq rfl) (.of_eq rfl)
      fun hnot => absurd (hbranch rfl) (by simp [hnot])
  · rw [State.writeBack_of_ne v hpc] at h
    exact .of_retire h (Kept.setReg s d v) (s.setReg_pc v hpc) hd (.of_eq (s.setReg_flags d v)) htraps

theorem Frame.of_loadInto {rd : LowReg} {a : Word} {n : Width} {w : Word → Word}
    (h : s.loadInto rd a n w = .next t) : Frame i s t := by
  obtain ⟨-, hretire⟩ := State.loadInto_eq_next.1 h
  exact .of_retire hretire (Kept.setReg s _ _) (by simp) (.setReg_lo rd _) (.of_eq (by simp)) htraps

theorem Frame.of_storeFrom {rd : LowReg} {a : Word} {n : Width} (hstores : storing i = true)
    (h : s.storeFrom rd a n = .next t) : Frame i s t := by
  obtain ⟨-, hretire⟩ := State.storeFrom_eq_next.1 h
  have hnext := pc_of_retire hretire (State.poke_pc ..) htraps
  obtain ⟨-, rfl⟩ := State.retire_eq_next.1 hretire
  exact ⟨.of_regs_eq rfl, .of_eq rfl, fun _ => hnext, .inl rfl, .inr hstores, .inl rfl, .inl rfl⟩

/-- An instruction that loads the registers of a list, writes `base` besides and goes on. -/
theorem Frame.of_loads {list : BitVec 8} {ws : List Word} {base : Reg} {v : Word} (hpc : base ≠ pcReg)
    (hbase : ∀ u : State, KeepsHigh i u (u.setReg base v))
    (h : ((s.setRegs ((listRegs list).zip ws)).setReg base v).retire = .next t) : Frame i s t := by
  refine .of_retire h ((Kept.setRegs s _).trans (Kept.setReg _ _ _)) ?_
    ((KeepsHigh.setRegs_listRegs list ws).trans (hbase _)) (.of_eq (by simp)) htraps
  rw [State.setReg_pc _ _ hpc, State.setRegs_zip_pc _ _ _ pcReg_not_mem_listRegs]

/-- An instruction that stores a block, writes `base` and goes on. -/
theorem Frame.of_block {a : Word} {vs : List Word} {base : Reg} {v : Word} (hpc : base ≠ pcReg)
    (hbase : ∀ u : State, KeepsHigh i u (u.setReg base v)) (hstores : storing i = true)
    (h : ((s.pokeWords a vs).setReg base v).retire = .next t) : Frame i s t := by
  have hnext := pc_of_retire h (by simp [hpc]) htraps
  obtain ⟨-, rfl⟩ := State.retire_eq_next.1 h
  have hstored : KeepsHigh i s (s.pokeWords a vs) := .of_regs_eq (s.pokeWords_regs a vs)
  exact ⟨(hstored.trans (hbase _)).trans (.of_regs_eq rfl), .of_eq (by simp), fun _ => hnext, .inl (by simp),
    .inr hstores, .inl (by simp), .inl (by simp)⟩

end

/-! ## The frame of each meaning with checks of its own -/

section
variable {s t : State}

theorem execB1_frame {cond : Cond} {d : BitVec 8} (h : execB1 cond d s = .next t) : Frame (.b1 cond d) s t := by
  cases hpass : tablePasses cond s.flags with
  | false =>
    rw [execB1_not_taken hpass] at h
    exact .of_retire h (Kept.refl s) rfl (.of_regs_eq rfl) (.of_eq rfl) rfl
  | true =>
    unfold execB1 at h
    split at h
    · cases h
    · rw [← tablePasses_eq_conditionPassed, if_pos hpass] at h
      cases h
      exact .of_kept ⟨rfl, rfl, rfl, rfl, rfl, rfl⟩ (.of_regs_eq rfl) (.of_eq rfl)
        fun hnot => absurd hpass (by simp [branchesIn] at hnot; simp [hnot])

theorem branchExchange_frame {i : Instr} {u : State} {v : Word} (hk : Kept s u) (high : KeepsHigh i s u)
    (hflags : u.flags = s.flags) (hbranch : branchesIn s i = true)
    (hexchange : (∃ rm z, i = .bx rm z) ∨ (∃ rm z, i = .blx2 rm z) ∨ (∃ o, i = .blxH01 o))
    (h : u.branchExchange v = .next t) : Frame i s t := by
  cases h
  exact ⟨high.trans (.of_regs_eq rfl), .of_eq hflags, fun hnot => absurd hbranch (by simp [hnot]), .inr hexchange,
    .inl hk.mem_eq, .inl hk.halted_eq, .inl hk.trap_eq⟩

theorem link_frame {i : Instr} {v : Word} (hdest : lrReg ∈ highDests i) (hbranch : branchesIn s i = true)
    (hexchange : (∃ rm z, i = .bx rm z) ∨ (∃ rm z, i = .blx2 rm z) ∨ (∃ o, i = .blxH01 o))
    (h : (s.setReg lrReg s.linkValue).branchExchange v = .next t) : Frame i s t :=
  branchExchange_frame (Kept.setReg s _ _) (.setReg_dest hdest _) (s.setReg_flags _ _) hbranch hexchange h

theorem execBx_frame {rm : Reg} {sbz : BitVec 3} (h : execBx rm sbz s = .next t) : Frame (.bx rm sbz) s t :=
  branchExchange_frame (Kept.refl s) (.of_regs_eq rfl) rfl rfl (.inl ⟨rm, sbz, rfl⟩) (branchExchange_of_execBx h)

theorem execBlx2_frame {rm : Reg} {sbz : BitVec 3} (h : execBlx2 rm sbz s = .next t) : Frame (.blx2 rm sbz) s t :=
  link_frame List.mem_cons_self rfl (.inr (.inl ⟨rm, sbz, rfl⟩)) (link_of_execBlx2 h)

theorem execBlxH01_frame {o : BitVec 11} (h : execBlxH01 o s = .next t) : Frame (.blxH01 o) s t :=
  link_frame List.mem_cons_self rfl (.inr (.inr ⟨o, rfl⟩)) (link_of_execBlxH01 h)

theorem takeTrap_frame {i : Instr} {kind : TrapKind} {v : BitVec 8} (harch : s.cfg.profile = .arch)
    (hsystem : (∃ v, i = .swi v) ∨ (∃ v, i = .bkpt v)) (htraps : trapsIn s i = true)
    (h : s.takeTrap kind v = .next t) : Frame i s t := by
  obtain ⟨htop, rfl⟩ := State.takeTrap_eq_next.1 h
  exact ⟨.of_regs_eq rfl, .of_eq rfl, fun _ => ⟨htop, by rw [htraps]; rfl⟩, .inl rfl, .inl rfl, .inl rfl,
    .inr ⟨harch, hsystem⟩⟩

theorem execBkpt_frame {v : BitVec 8} (h : execBkpt v s = .next t) : Frame (.bkpt v) s t := by
  obtain ⟨-, h⟩ := State.fromV5_eq_next.1 h
  obtain ⟨harch, h⟩ := State.archOnly_eq_next.1 h
  exact takeTrap_frame harch (.inr ⟨v, rfl⟩) rfl h

theorem execSwi_frame {v : BitVec 8} (h : execSwi v s = .next t) : Frame (.swi v) s t := by
  cases hprofile : s.cfg.profile with
  | arch =>
    rw [execSwi_of_arch hprofile] at h
    exact takeTrap_frame hprofile (.inl ⟨v, rfl⟩) (by simp [trapsIn, hprofile]) h
  | hdl =>
    rw [execSwi_of_hdl hprofile] at h
    obtain ⟨htop, rfl⟩ := State.halt_eq_next.1 h
    exact ⟨.of_regs_eq rfl, .of_eq rfl, fun _ => ⟨htop, by simp [trapsIn, hprofile]⟩, .inl rfl, .inl rfl,
      .inr ⟨hprofile, v, rfl⟩, .inl rfl⟩

theorem execLdmia_frame {rn : LowReg} {list : BitVec 8} (h : execLdmia rn list s = .next t) :
    Frame (.ldmia rn list) s t := by
  obtain ⟨-, h⟩ := State.archOnly_eq_next.1 h
  dsimp only at h
  split at h
  · simp at h
  · split at h
    · simp at h
    · obtain ⟨-, h⟩ := afterCheck_eq_next.1 h
      exact .of_loads rfl (lo_ne_pcReg rn) (fun _ => .setReg_lo rn _) h

theorem execStmia_frame {rn : LowReg} {list : BitVec 8} (h : execStmia rn list s = .next t) :
    Frame (.stmia rn list) s t := by
  obtain ⟨-, h⟩ := State.archOnly_eq_next.1 h
  dsimp only at h
  split at h
  · simp at h
  · split at h
    · simp at h
    · obtain ⟨-, h⟩ := afterCheck_eq_next.1 h
      exact .of_block rfl (lo_ne_pcReg rn) (fun _ => .setReg_lo rn _) rfl h

theorem execPush_frame {r : Bool} {list : BitVec 8} (h : execPush r list s = .next t) : Frame (.push r list) s t := by
  have hpush : ∃ regs, s.pushRegs regs = .next t := by
    cases hprofile : s.cfg.profile with
    | arch => exact ⟨_, by rwa [execPush, hprofile] at h⟩
    | hdl => exact ⟨_, by rwa [execPush, hprofile] at h⟩
  obtain ⟨regs, hregs⟩ := hpush
  obtain ⟨-, h⟩ := afterCheck_eq_next.1 hregs
  exact .of_block rfl spReg_ne_pcReg (fun _ => .setReg_dest List.mem_cons_self _) rfl h

theorem low_of_mem_listRegs {list : BitVec 8} {x : Reg} (h : x ∈ listRegs list) : x.val < 8 := by
  obtain ⟨j, -, rfl⟩ := mem_listRegs.1 h
  exact j.isLt

/-- POP writes SP and registers that are low. -/
theorem loadBlock_frame {r : Bool} {list : BitVec 8} {regs : List Reg} {k : Nat} {next : Word}
    (hlow : ∀ x ∈ regs, x.val < 8)
    (pc : branchesIn s (.pop r list) = false → s.pc ≠ topPc ∧ next = s.nextPc) :
    Frame (.pop r list) s (s.loadBlock spReg regs k next) := by
  obtain ⟨hregs, -⟩ := State.loadBlock_keeps (s := s) (base := spReg) (regs := regs) (k := k) (next := next)
  refine .of_kept (by constructor <;> simp [State.loadBlock]) (fun x hx hpc hne => hregs x hpc ?_) (.of_eq (by simp)) pc
  intro hmem
  rcases List.mem_cons.1 hmem with hsp | hin
  · exact hne (List.mem_singleton.2 hsp)
  · exact absurd (hlow x hin) (Nat.not_lt.2 hx)

theorem execPop_frame {r : Bool} {list : BitVec 8} (h : execPop r list s = .next t) : Frame (.pop r list) s t := by
  cases hprofile : s.cfg.profile with
  | arch =>
    cases r with
    | false =>
      rw [execPop_false_eq hprofile, afterCheck_eq_next, State.unlessTop_eq_next] at h
      obtain ⟨-, htop, ⟨⟩⟩ := h
      exact loadBlock_frame (fun _ => low_of_mem_listRegs) fun _ => ⟨htop, rfl⟩
    | true =>
      rw [execPop_true_eq hprofile, afterCheck_eq_next] at h
      obtain ⟨-, h⟩ := h
      dsimp only at h
      split at h
      · cases h
        exact loadBlock_frame (fun _ => low_of_mem_listRegs) fun hnot => by simp [branchesIn, hprofile] at hnot
      · simp at h
  | hdl =>
    by_cases hempty : list = 0#8
    · rw [hempty, execPop_hdl_empty hprofile] at h
      cases h
    · obtain ⟨i, hi⟩ := exists_firstListed hempty
      rw [execPop_hdl_eq hprofile r hi, afterCheck_eq_next, State.unlessTop_eq_next] at h
      obtain ⟨-, htop, ⟨⟩⟩ := h
      exact loadBlock_frame (fun x hx => List.mem_singleton.1 hx ▸ i.isLt) fun _ => ⟨htop, rfl⟩

end

/-- Whatever an instruction does, it leaves its frame. -/
theorem exec_frame {i : Instr} {s t : State} (h : exec i s = .next t) : Frame i s t := by
  cases i
  case adc | add1 | add2 | add3 | mov2 | neg | sbc | sub1 | sub2 | sub3 => exact .of_writeSum rfl rfl rfl h
  case cmn | cmp1 | cmp2 => exact .of_compareSum rfl rfl rfl h
  case cmp3 =>
    obtain ⟨-, h⟩ := State.archOnly_eq_next.1 h
    split at h
    · simp at h
    · exact .of_compareSum rfl rfl rfl h
  case and | bic | eor | mov1 | mvn | orr | mul => exact .of_writeLogical rfl rfl h
  case tst =>
    exact .of_retire h ⟨rfl, rfl, rfl, rfl, rfl, rfl⟩ rfl (.of_regs_eq rfl)
      ⟨fun h => Bool.noConfusion h, fun _ => rfl, fun _ => rfl⟩ rfl
  case asr1 | asr2 | lsl1 | lsl2 | lsr1 | lsr2 | ror => exact .of_writeShifted rfl rfl rfl h
  case add4 rm rd =>
    obtain ⟨-, h⟩ := State.archOnly_eq_next.1 h
    exact .of_writeBack rfl (.setReg_dest List.mem_cons_self _) (fun hd => beq_iff_eq.2 hd) h
  case mov3 rm rd =>
    obtain ⟨-, h⟩ := State.archOnly_eq_next.1 h
    split at h
    · simp at h
    · exact .of_writeBack rfl (.setReg_dest List.mem_cons_self _) (fun hd => beq_iff_eq.2 hd) h
  case add5 rd _ | add6 rd _ => exact .of_writeBack rfl (.setReg_lo rd _) (fun hd => absurd hd (lo_ne_pcReg rd)) h
  case add7 | sub4 =>
    exact .of_writeBack rfl (.setReg_dest List.mem_cons_self _) (fun hd => absurd hd spReg_ne_pcReg) h
  case blH10 => exact .of_writeBack rfl (.setReg_dest List.mem_cons_self _) (fun hd => absurd hd lrReg_ne_pcReg) h
  case ldr1 | ldr2 | ldr3 | ldr4 | ldrb1 | ldrb2 | ldrh1 | ldrh2 | ldrsb | ldrsh => exact .of_loadInto rfl h
  case str1 | str2 | str3 | strb1 | strb2 | strh1 | strh2 => exact .of_storeFrom rfl rfl h
  case b1 => exact execB1_frame h
  case b2 =>
    cases h
    exact .of_kept ⟨rfl, rfl, rfl, rfl, rfl, rfl⟩ (.of_regs_eq rfl) (.of_eq rfl) fun hnot => Bool.noConfusion hnot
  case blH11 =>
    cases h
    exact .of_kept ((Kept.setReg s _ _).trans ⟨rfl, rfl, rfl, rfl, rfl, rfl⟩)
      ((KeepsHigh.setReg_dest List.mem_cons_self s.linkValue).trans (.of_regs_eq rfl)) (.of_eq (s.setReg_flags _ _))
      fun hnot => Bool.noConfusion hnot
  case blxH01 => exact execBlxH01_frame h
  case blx2 => exact execBlx2_frame h
  case bx => exact execBx_frame h
  case bkpt => exact execBkpt_frame h
  case swi => exact execSwi_frame h
  case ldmia => exact execLdmia_frame h
  case stmia => exact execStmia_frame h
  case push => exact execPush_frame h
  case pop => exact execPop_frame h

/-- A register above R7 that changed is SP, LR after a link, or the named destination of ADD_4 or MOV_3. -/
theorem mem_highDests {i : Instr} {r : Reg} (h : r ∈ highDests i) :
    r = spReg ∨ (r = lrReg ∧ ((∃ o, i = .blH10 o) ∨ (∃ o, i = .blH11 o) ∨ (∃ o, i = .blxH01 o) ∨
      (∃ rm z, i = .blx2 rm z))) ∨ (∃ rm, i = .add4 rm r) ∨ (∃ rm, i = .mov3 rm r) := by
  unfold highDests at h
  split at h
  all_goals simp_all

theorem mem_highDests_of_changed {i : Instr} {s t : State} {r : Reg} (h : exec i s = .next t) (hr : 8 ≤ r.val)
    (hpc : r ≠ pcReg) (hne : t.reg r ≠ s.reg r) : r ∈ highDests i := by
  by_contra hnot
  exact hne ((exec_frame h).high r hr hpc hnot)

theorem arch_of_named_dest {i : Instr} {s t : State} {r : Reg} (h : exec i s = .next t)
    (hnamed : (∃ rm, i = .add4 rm r) ∨ (∃ rm, i = .mov3 rm r)) : s.cfg.profile = .arch := by
  rcases hnamed with ⟨rm, rfl⟩ | ⟨rm, rfl⟩
  · exact (State.archOnly_eq_next.1 h).1
  · exact (State.archOnly_eq_next.1 h).1

/-! ## Bytes that a store changes -/

/-- A byte that reads differently is one of a store's, whose checks find it in `MEM`. -/
theorem admits_of_changed {s t : State} (he : Effect s t) {a : Nat}
    (hne : Memory.byteAt t.mem a ≠ Memory.byteAt s.mem a) : s.cfg.admits a = true := by
  have unchanged {u : State} (hk : Kept u t) (hu : u.mem = s.mem) : s.cfg.admits a = true :=
    absurd (congrArg (Memory.byteAt · a) (hk.mem_eq.trans hu)) hne
  cases he with
  | plain kept | jump kept | branch kept => exact unchanged kept rfl
  | exchange _ _ kept => exact unchanged kept rfl
  | trap _ _ _ _ eq => exact absurd (by rw [eq]) hne
  | halt _ _ eq => exact absurd (by rw [eq]) hne
  | store b v n ok kept =>
    obtain ⟨-, hall⟩ := State.accessFault_eq_none.1 ok
    rw [kept.mem_eq] at hne
    by_contra hout
    refine hne (s.poke_byteAt_of_not_mem b v n a ?_)
    by_contra hin
    exact hout (State.admitsAll_iff.1 hall a (by omega) (by omega))
  | block b vs ok kept =>
    obtain ⟨-, -, hend, hadmitted⟩ := State.checkBlock_eq_none.1 ok
    rw [kept.mem_eq] at hne
    by_contra hout
    refine hne (s.pokeWords_byteAt_of_not_mem b vs a hend ?_)
    by_contra hin
    exact hout (hadmitted a (by omega) (by omega))

theorem exec_cfg {i : Instr} {s t : State} (h : exec i s = .next t) : t.cfg = s.cfg := by
  cases exec_effect h with
  | plain kept | jump kept | branch kept => exact kept.cfg_eq
  | exchange _ _ kept => exact kept.cfg_eq
  | store _ _ _ _ kept => exact kept.cfg_eq
  | block a vs _ kept => exact kept.cfg_eq.trans (s.pokeWords_cfg a vs)
  | trap _ _ _ _ eq => rw [eq]
  | halt _ _ eq => rw [eq]

/-! ## Flags that an instruction of their row leaves or clears -/

theorem immediate_msb (v : BitVec 8) : (immediate v).msb = false := by
  rw [immediate, BitVec.msb_eq_getLsbD_last, BitVec.getLsbD_setWidth, BitVec.getLsbD_of_ge v _ (by decide)]
  exact Bool.and_false _

/-- A shift that answers no carry leaves C. -/
theorem State.writeShifted_keeps_c {s t : State} {rd : LowReg} {r : Shifted} (hcarry : r.carry = none)
    (h : s.writeShifted rd r = .next t) : t.flags.c = s.flags.c := by
  obtain ⟨-, rfl⟩ := State.retire_eq_next.1 h
  simp [hcarry]

/-! ## The obligations -/

/-- Settles O10: what does not branch ends in `retire` or, when it traps, leaves the pc. -/
theorem nonBranchesAdvanceThePc : Obligations.NonBranchesAdvanceThePc := by
  intro i s t h
  have hpc := (exec_frame h).pc
  refine ⟨fun hbranch htraps => ?next, fun htraps => ?trap⟩
  case next => rw [(hpc hbranch).2, htraps]; rfl
  case trap =>
    have hbranch : branchesIn s i = false := by
      cases i
      case bkpt | swi => rfl
      all_goals exact Bool.noConfusion htraps
    rw [(hpc hbranch).2, htraps]; rfl

/-- Settles O12: the frame gives T to the three exchanging forms. -/
theorem onlyExchangesWriteT : Obligations.OnlyExchangesWriteT :=
  fun _ _ _ h hne => (exec_frame h).t_eq.resolve_left hne

/-- Settles O15: the frame gives the flags an instruction does not write and T, and the shared endings the rest. -/
theorem flagsAreWrittenAsTheTableSays : Obligations.FlagsAreWrittenAsTheTableSays := by
  intro i s t h
  obtain ⟨-, hflags, hpc, ht, -⟩ := exec_frame h
  refine ⟨hflags.nz, hflags.c, hflags.v, ?mov1, ?mov2, ?lsl1, ?shifts, ?blxH01, ?exchange, ?t⟩
  case mov1 =>
    rintro rd v rfl
    obtain ⟨-, ⟨hn, -⟩, -⟩ := of_gives (State.writeLogical_logicInto (hpc rfl).1 rd (immediate v)) h
    exact hn.trans (immediate_msb v)
  case mov2 =>
    rintro rn rd rfl
    obtain ⟨-, hsum, -⟩ := of_gives (State.writeSum_addInto (hpc rfl).1 rd (s.reg (lo rn)) 0#32 false) h
    exact (addFlags_zero hsum).2
  case lsl1 =>
    rintro rm rd rfl
    exact State.writeShifted_keeps_c rfl h
  case shifts =>
    rintro rs rd hi hzero
    have hamount : registerAmount (s.reg (lo rs)) = 0 := hzero
    rcases hi with rfl | rfl | rfl | rfl
    all_goals exact State.writeShifted_keeps_c (by rw [hamount]; rfl) h
  case blxH01 =>
    rintro o rfl
    obtain ⟨⟨-, ht, -⟩, -⟩ := of_gives (s.link_exchangesTo _) (link_of_execBlxH01 h)
    exact ht.trans (clearLow2_even _)
  case exchange =>
    rintro rm z (rfl | rfl)
    · obtain ⟨-, ht, -⟩ := of_gives (s.branchExchange_exchangesTo _) (branchExchange_of_execBx h)
      exact ht
    · obtain ⟨⟨-, ht, -⟩, -⟩ := of_gives (s.link_exchangesTo _) (link_of_execBlx2 h)
      exact ht
  case t =>
    intro hregister himmediate
    rcases ht with ht | ⟨rm, z, hbx⟩ | ⟨rm, z, hblx⟩ | ⟨o, hblx⟩
    · exact ht
    · exact absurd hbx (hregister rm z).1
    · exact absurd hblx (hregister rm z).2
    · exact absurd hblx (himmediate o)

/-- Settles O13: such a register is neither SP nor LR. -/
theorem highRegistersChangeOnlyByName : Obligations.HighRegistersChangeOnlyByName := by
  intro i s t r h hlow hhigh hne
  have hpc : r ≠ pcReg := by rintro rfl; exact absurd hhigh (by decide)
  have hnamed : (∃ rm, i = .add4 rm r) ∨ (∃ rm, i = .mov3 rm r) := by
    rcases mem_highDests (mem_highDests_of_changed h hlow hpc hne) with rfl | ⟨rfl, -⟩ | hnamed
    · exact absurd hhigh (by decide)
    · exact absurd hhigh (by decide)
    · exact hnamed
  exact ⟨arch_of_named_dest h hnamed, hnamed⟩

/-- Settles O14: LR is not SP, so a link or a named destination is left. -/
theorem linkRegisterChangesOnlyByCalls : Obligations.LinkRegisterChangesOnlyByCalls := by
  intro i s t h hne
  rcases mem_highDests (mem_highDests_of_changed h (by decide) lrReg_ne_pcReg hne) with
    hsp | ⟨-, hfirst | hsecond | himmediate | hregister⟩ | hnamed
  · exact absurd hsp lrReg_ne_spReg
  · exact .inl hfirst
  · exact .inr (.inl hsecond)
  · exact .inr (.inr (.inl himmediate))
  · exact .inr (.inr (.inr (.inl hregister)))
  · exact .inr (.inr (.inr (.inr hnamed)))

/-- Settles O17: only what stores changes memory, and the checks of a store find its bytes in `MEM`. -/
theorem memoryChangesOnlyByStoresInsideMem : Obligations.MemoryChangesOnlyByStoresInsideMem := by
  intro i s t h
  refine ⟨exec_cfg h, fun a hne => ⟨?stores, admits_of_changed (exec_effect h) hne⟩⟩
  case stores =>
    rcases (exec_frame h).mem_eq with hmem | hstores
    · exact absurd (by rw [hmem]) hne
    · exact hstores

/-- Settles O42: the frame gives the halt to SWI in HDL, and the trap to SWI and BKPT in ARCH. -/
theorem exitsAreTakenOnlyBySystemInstructions : Obligations.ExitsAreTakenOnlyBySystemInstructions :=
  fun _ _ _ h => ⟨(exec_frame h).halted_eq.resolve_left, (exec_frame h).trap_eq.resolve_left⟩

end Sys2Proof.Machine

/-! The last address of the address space (10_state.md R28; 60_exceptions.md R273, line 11): every ending that goes on
to the next instruction is refused there once the checks before it pass. -/

namespace Sys2Proof.Machine

open Sys2Proof Sys2Proof.Claims

section
variable {s : State} (htop : s.pc = topPc)
include htop

/-! ## The shared endings at 0xFFFFFFFE -/

theorem State.retire_of_top {u : State} (hpc : u.pc = s.pc) : u.retire = .refused (.unpredictable .pcWrap) :=
  State.retire_top (hpc.trans htop)

theorem State.writeSum_top (rd : LowReg) (r : Sum) : s.writeSum rd r = .refused (.unpredictable .pcWrap) :=
  State.retire_of_top htop (s.setReg_pc _ (lo_ne_pcReg rd))

theorem State.compareSum_top (r : Sum) : s.compareSum r = .refused (.unpredictable .pcWrap) :=
  State.retire_of_top htop rfl

theorem State.writeLogical_top (rd : LowReg) (r : Word) : s.writeLogical rd r = .refused (.unpredictable .pcWrap) :=
  State.retire_of_top htop (s.setReg_pc _ (lo_ne_pcReg rd))

theorem State.writeShifted_top (rd : LowReg) (r : Shifted) :
    s.writeShifted rd r = .refused (.unpredictable .pcWrap) :=
  State.retire_of_top htop (s.setReg_pc _ (lo_ne_pcReg rd))

theorem State.writeBack_top {d : Reg} (hd : d ≠ pcReg) (v : Word) :
    s.writeBack d v = .refused (.unpredictable .pcWrap) := by
  rw [State.writeBack_of_ne v hd]
  exact State.retire_of_top htop (s.setReg_pc v hd)

theorem State.loadInto_top {a : Word} {n : Width} (h : Accessible s a n.bytes) (rd : LowReg) (w : Word → Word) :
    s.loadInto rd a n w = .refused (.unpredictable .pcWrap) := by
  rw [State.loadInto, State.memRead_of_accessible h]
  exact State.retire_of_top htop (s.setReg_pc _ (lo_ne_pcReg rd))

theorem State.storeFrom_top {a : Word} {n : Width} (h : Accessible s a n.bytes) (rd : LowReg) :
    s.storeFrom rd a n = .refused (.unpredictable .pcWrap) := by
  rw [State.storeFrom, State.memWrite_of_accessible _ h]
  exact State.retire_of_top htop rfl

/-- A block transfer that goes on is refused when its checks pass. -/
theorem wraps_of_checks {i : Instr} {t : State} {check : Option Stop}
    (h : exec i s = afterCheck check (s.unlessTop (.next t))) (hcheck : check = none) : Wraps i s := by
  rw [Wraps, h, hcheck, afterCheck_none, State.unlessTop_top htop]

/-! ## The instructions that go on -/

theorem wraps_of_plain {i : Instr} (h : plain i = true) : Wraps i s := by
  cases i
  case adc | add1 | add2 | add3 | mov2 | neg | sbc | sub1 | sub2 | sub3 => exact State.writeSum_top htop _ _
  case cmn | cmp1 | cmp2 => exact State.compareSum_top htop _
  case and | bic | eor | mov1 | mvn | orr | mul => exact State.writeLogical_top htop _ _
  case tst => exact State.retire_of_top htop rfl
  case asr1 | asr2 | lsl1 | lsl2 | lsr1 | lsr2 | ror => exact State.writeShifted_top htop _ _
  case add5 | add6 => exact State.writeBack_top htop (lo_ne_pcReg _) _
  case add7 | sub4 => exact State.writeBack_top htop spReg_ne_pcReg _
  case blH10 => exact State.writeBack_top htop lrReg_ne_pcReg _
  all_goals exact Bool.noConfusion h

theorem wraps_of_access {i : Instr} {a : Word} {n : Width} (hi : accessIn s i = some (a, n))
    (h : Accessible s a n.bytes) : Wraps i s := by
  cases i
  case ldr1 | ldr2 | ldr3 | ldr4 | ldrb1 | ldrb2 | ldrh1 | ldrh2 | ldrsb | ldrsh =>
    cases hi
    exact State.loadInto_top htop h _ _
  case str1 | str2 | str3 | strb1 | strb2 | strh1 | strh2 =>
    cases hi
    exact State.storeFrom_top htop h _
  all_goals cases hi

theorem wraps_of_push {i : Instr} {regs : List Reg} (hexec : exec i s = s.pushRegs regs)
    (hroom : 4 * regs.length ≤ (s.reg spReg).toNat)
    (hblock : BlockOk s (s.reg spReg - blockBytes regs.length) regs.length) : Wraps i s := by
  refine wraps_of_checks htop (hexec.trans (State.pushRegs_eq regs)) ?_
  rw [State.checkPush_of_room hblock.1 hroom, State.checkBlock_of_blockOk hblock]

theorem wraps_ldmia (harch : s.cfg.profile = .arch) {rn : LowReg} {list : BitVec 8}
    (hblock : BlockOk s (s.reg (lo rn)) (size list)) (hbase : list.getLsbD rn.val = false) :
    Wraps (.ldmia rn list) s := by
  have hne : list ≠ 0#8 := fun h => hblock.1 (size_eq_zero_iff.2 h)
  exact wraps_of_checks htop (execLdmia_eq harch hne hbase) (State.checkBlock_of_blockOk hblock)

theorem wraps_stmia (harch : s.cfg.profile = .arch) {rn : LowReg} {list : BitVec 8}
    (hblock : BlockOk s (s.reg (lo rn)) (size list)) (hbase : list.getLsbD rn.val = false ∨ rank list rn.val = 0) :
    Wraps (.stmia rn list) s := by
  have hne : list ≠ 0#8 := fun h => hblock.1 (size_eq_zero_iff.2 h)
  have hplaced : ¬ (list.getLsbD rn.val = true ∧ rank list rn.val ≠ 0) := by
    rintro ⟨hlisted, hrank⟩
    rcases hbase with hnot | hzero
    · exact Bool.noConfusion (hlisted.symm.trans hnot)
    · exact hrank hzero
  rw [← length_listRegs] at hblock
  exact wraps_of_checks htop (execStmia_eq harch hne hplaced) (State.checkBlock_of_blockOk hblock)

end

/-! ## The obligation -/

/-- Settles O11: an instruction that completes without branching has a pc below the last, and one that goes on ends in
the check for it. -/
theorem sequentialExecutionDoesNotWrap : Obligations.SequentialExecutionDoesNotWrap := by
  intro s htop
  refine ⟨fun i t h => ?completes, fun i => wraps_of_plain htop, fun cond d hfail => ?notTaken, execSwi_top htop,
    fun i a n => wraps_of_access htop, fun harch => ⟨fun v hv5 => ?bkpt, fun rm rd hd => ?add4,
      fun rm rd hhigh => ⟨?cmp3, fun hd => ?mov3⟩,
      fun rn list hblock => ⟨wraps_ldmia htop harch hblock, wraps_stmia htop harch hblock⟩,
      fun list hblock => ?pop, fun r list hroom hblock => ?push⟩,
    fun hhdl r list hne => ⟨fun hblock => ?popHdl, fun hroom hblock => ?pushHdl⟩⟩
  case completes =>
    by_contra hnot
    exact ((exec_frame h).pc (Bool.eq_false_iff.2 hnot)).1 htop
  case notTaken => exact (execB1_not_taken hfail d).trans (State.retire_top htop)
  case bkpt => exact (execBkpt_of_v5 hv5 harch v).trans (State.unlessTop_top htop)
  case add4 => exact (State.archOnly_arch harch).trans (State.writeBack_top htop hd _)
  case cmp3 =>
    have notLow : ¬ (rd.val < 8 ∧ rm.val < 8) := by omega
    exact (State.archOnly_arch harch).trans ((if_neg notLow).trans (State.compareSum_top htop _))
  case mov3 => exact (execMov3_of_high harch hhigh).trans (State.writeBack_top htop hd _)
  case pop => exact wraps_of_checks htop (execPop_false_eq harch) (State.checkBlock_of_blockOk hblock)
  case push =>
    rw [← length_listRegsWith list r lrReg] at hroom hblock
    exact wraps_of_push htop (exec_push_arch harch r) hroom hblock
  case popHdl =>
    obtain ⟨i, hi⟩ := exists_firstListed hne
    exact wraps_of_checks htop (execPop_hdl_eq hhdl r hi) (State.checkBlock_of_blockOk hblock)
  case pushHdl =>
    obtain ⟨i, hi⟩ := exists_firstListed hne
    exact wraps_of_push htop (exec_push_hdl hhdl r hi) hroom hblock

end Sys2Proof.Machine

/-! The flags carried along (10_state.md R35): each shared ending that writes no flag ends, with other flags in the
state, as it did, with those flags in its next state. -/

namespace Sys2Proof.Machine

open Sys2Proof Sys2Proof.Claims

/-- The result with the flags `f` in a next state. -/
def reflag (f : Flags) : Result → Result
  | .next t => .next { t with flags := f }
  | .fault r => .fault r
  | .refused r => .refused r

section
variable {s : State} {f : Flags}

theorem State.setReg_reflag (d : Reg) (v : Word) :
    ({ s with flags := f } : State).setReg d v = { s.setReg d v with flags := f } := by
  unfold State.setReg
  split <;> rfl

theorem State.setRegs_reflag (l : List (Reg × Word)) :
    ({ s with flags := f } : State).setRegs l = { s.setRegs l with flags := f } := by
  induction l generalizing s with
  | nil => rfl
  | cons p l ih => rw [State.setRegs, State.setRegs, State.setReg_reflag, ih]

theorem State.pokeWords_reflag (a : Word) (vs : List Word) :
    ({ s with flags := f } : State).pokeWords a vs = { s.pokeWords a vs with flags := f } := by
  induction vs generalizing s a with
  | nil => rfl
  | cons v vs ih => exact ih (s := s.poke a .word v) (a + 4#32)

theorem State.unlessTop_reflag {k k' : Result} (hk : k' = reflag f k) :
    ({ s with flags := f } : State).unlessTop k' = reflag f (s.unlessTop k) := by
  subst hk
  by_cases htop : s.pc = topPc
  · rw [State.unlessTop_top htop, State.unlessTop_top (s := { s with flags := f }) htop]; rfl
  · rw [State.unlessTop_of_ne htop, State.unlessTop_of_ne (s := { s with flags := f }) htop]

theorem State.retire_reflag : ({ s with flags := f } : State).retire = reflag f s.retire :=
  State.unlessTop_reflag rfl

theorem State.archOnly_reflag {m : String} {k k' : Result} (hk : k' = reflag f k) :
    ({ s with flags := f } : State).archOnly m k' = reflag f (s.archOnly m k) := by
  subst hk
  unfold State.archOnly
  cases s.cfg.profile <;> rfl

theorem State.fromV5_reflag {w : InstrWord} {k k' : Result} (hk : k' = reflag f k) :
    ({ s with flags := f } : State).fromV5 w k' = reflag f (s.fromV5 w k) := by
  subst hk
  unfold State.fromV5
  cases s.cfg.tvariant <;> rfl

theorem afterCheck_reflag (check : Option Stop) {k k' : Result} (hk : k' = reflag f k) :
    afterCheck check k' = reflag f (afterCheck check k) := by
  subst hk
  rcases check with _ | _ | _ <;> rfl

theorem ite_reflag {c : Prop} [Decidable c] {r r' k k' : Result} (hr : r' = reflag f r) (hk : k' = reflag f k) :
    (if c then r' else k') = reflag f (if c then r else k) := by
  rw [hr, hk, apply_ite (reflag f)]

theorem State.writeBack_reflag (d : Reg) (v : Word) :
    ({ s with flags := f } : State).writeBack d v = reflag f (s.writeBack d v) := by
  unfold State.writeBack
  rw [State.setReg_reflag]
  exact ite_reflag rfl State.retire_reflag

theorem State.loadInto_reflag (rd : LowReg) (a : Word) (n : Width) (w : Word → Word) :
    ({ s with flags := f } : State).loadInto rd a n w = reflag f (s.loadInto rd a n w) := by
  have hread : ({ s with flags := f } : State).memRead a n = s.memRead a n := rfl
  unfold State.loadInto
  rw [hread]
  cases s.memRead a n with
  | error e => rfl
  | ok v => exact (congrArg State.retire (State.setReg_reflag (lo rd) (w v))).trans State.retire_reflag

theorem State.storeFrom_reflag (rd : LowReg) (a : Word) (n : Width) :
    ({ s with flags := f } : State).storeFrom rd a n = reflag f (s.storeFrom rd a n) := by
  unfold State.storeFrom State.memWrite
  have hcheck : ({ s with flags := f } : State).accessFault a n = s.accessFault a n := rfl
  rw [hcheck]
  cases s.accessFault a n with
  | some e => rfl
  | none => exact State.retire_reflag (s := s.poke a n (s.reg (lo rd)))

/-- The end of a transfer that loads registers, and of one that stores them. -/
theorem loads_reflag (l : List (Reg × Word)) (d : Reg) (v : Word) :
    ((({ s with flags := f } : State).setRegs l).setReg d v) = { (s.setRegs l).setReg d v with flags := f } := by
  rw [State.setRegs_reflag, State.setReg_reflag]

theorem stores_reflag (a : Word) (vs : List Word) (d : Reg) (v : Word) :
    ((({ s with flags := f } : State).pokeWords a vs).setReg d v) =
      { (s.pokeWords a vs).setReg d v with flags := f } := by
  rw [State.pokeWords_reflag, State.setReg_reflag]

theorem State.pushRegs_reflag (regs : List Reg) :
    ({ s with flags := f } : State).pushRegs regs = reflag f (s.pushRegs regs) :=
  afterCheck_reflag _ ((congrArg State.retire (stores_reflag _ _ _ _)).trans State.retire_reflag)

theorem State.popBlock_reflag (r : Bool) (list : BitVec 8) :
    ({ s with flags := f } : State).popBlock r list = reflag f (s.popBlock r list) := by
  refine afterCheck_reflag _ (ite_reflag (ite_reflag ?_ rfl) ?_)
  · exact congrArg (fun u : State => u.branchTo _) (loads_reflag _ _ _)
  · exact (congrArg State.retire (loads_reflag _ _ _)).trans State.retire_reflag

theorem State.popSingle_reflag (list : BitVec 8) :
    ({ s with flags := f } : State).popSingle list = reflag f (s.popSingle list) := by
  unfold State.popSingle
  cases firstListed list with
  | none => rfl
  | some i =>
    refine afterCheck_reflag _ ?_
    exact (congrArg State.retire (loads_reflag [(i, _)] _ _)).trans State.retire_reflag

end

end Sys2Proof.Machine

/-! Which flags an instruction reads (10_state.md R35). Sums and comparisons write all four over them, logical results
and shifts write the flags of their result over them, and everything else carries them along. -/

namespace Sys2Proof.Machine

open Sys2Proof Sys2Proof.Claims

section
variable {i : Instr} {s : State} {f : Flags}

/-! ## Three ways not to read a flag -/

theorem sameButFlags_refl (r : Result) : SameButFlags r r := by
  cases r <;> rfl

theorem sameButFlags_reflag (f : Flags) (r : Result) : SameButFlags r (reflag f r) := by
  cases r <;> rfl

/-- Every flag is written over: both runs end in the same state. -/
theorem blindTo_of_eq (h : exec i { s with flags := f } = exec i s) : BlindTo i s f := by
  rw [BlindTo, h]
  refine ⟨sameButFlags_refl _, fun t u ht hu => ?_⟩
  obtain rfl : t = u := Host.Outcome.next.inj (ht.symm.trans hu)
  exact ⟨fun _ => ⟨rfl, rfl⟩, fun _ _ => rfl, fun _ => rfl⟩

/-- What writes C writes N and Z. -/
theorem not_writesC_or_writesNZ (i : Instr) : (!writesC i || writesNZ i) = true := by
  cases i <;> rfl

theorem writesC_of_writesNZ_false (hnz : writesNZ i = false) : writesC i = false := by
  simpa [hnz] using not_writesC_or_writesNZ i

theorem writesV_of_writesNZ_false (hnz : writesNZ i = false) : writesV i = false :=
  (Bool.or_eq_false_iff.1 (writesC_of_writesNZ_false hnz)).1

/-- No flag is written: each run keeps its own. -/
theorem blindTo_of_reflag (hnz : writesNZ i = false) (h : exec i { s with flags := f } = reflag f (exec i s)) :
    BlindTo i s f := by
  rw [BlindTo, h, hnz, writesC_of_writesNZ_false hnz, writesV_of_writesNZ_false hnz]
  exact ⟨sameButFlags_reflag f _, fun _ _ _ _ => ⟨nofun, nofun, nofun⟩⟩

/-- Some flags are written: N and Z by the result, C unless the instruction shifts by zero, V not. -/
theorem blindTo_of_retire {u : State} {g g' : Flags} (hs : exec i s = ({ u with flags := g } : State).retire)
    (hf : exec i { s with flags := f } = ({ u with flags := g' } : State).retire) (hn : g.n = g'.n) (hz : g.z = g'.z)
    (hc : writesC i = true → shiftsByZero s i = false → g.c = g'.c) (hv : writesV i = false) : BlindTo i s f := by
  have hreflag : ({ u with flags := g' } : State).retire = reflag g' ({ u with flags := g } : State).retire :=
    State.retire_reflag (s := { u with flags := g })
  rw [BlindTo, hs, hf]
  refine ⟨hreflag ▸ sameButFlags_reflag g' _, fun t t' ht ht' => ?_⟩
  obtain ⟨-, rfl⟩ := State.retire_eq_next.1 ht
  obtain ⟨-, rfl⟩ := State.retire_eq_next.1 ht'
  exact ⟨fun _ => ⟨hn, hz⟩, hc, fun h => absurd h (by simp [hv])⟩

/-! ## The shared endings that write flags -/

theorem State.writeSum_reflag (rd : LowReg) (r : Sum) :
    ({ s with flags := f } : State).writeSum rd r = s.writeSum rd r := by
  unfold State.writeSum
  rw [State.setReg_reflag]
  rfl

theorem blindTo_of_writeLogical {rd : LowReg} {r : Word} (hs : exec i s = s.writeLogical rd r)
    (hf : exec i { s with flags := f } = ({ s with flags := f } : State).writeLogical rd r)
    (hc : writesC i = false) (hv : writesV i = false) : BlindTo i s f := by
  rw [State.writeLogical, State.setReg_reflag] at hf
  exact blindTo_of_retire hs hf rfl rfl (fun h => absurd h (by simp [hc])) hv

theorem blindTo_of_writeShifted {rd : LowReg} {r : Shifted} (hs : exec i s = s.writeShifted rd r)
    (hf : exec i { s with flags := f } = ({ s with flags := f } : State).writeShifted rd r)
    (hcarry : shiftsByZero s i = false → ∃ c, r.carry = some c) (hv : writesV i = false) : BlindTo i s f := by
  rw [State.writeShifted, State.setReg_reflag] at hf
  refine blindTo_of_retire hs hf rfl rfl (fun _ hzero => ?_) hv
  obtain ⟨c, hc⟩ := hcarry hzero
  simp only [hc, Option.getD_some]

/-! ## A shift by a nonzero amount answers a carry -/

theorem exists_lslC_carry {n : Nat} (hn : n ≠ 0) (v : Word) : ∃ c, (lslC v n).carry = some c := by
  rw [lslC, if_neg hn]
  split_ifs <;> exact ⟨_, rfl⟩

theorem exists_lsrC_carry {n : Nat} (hn : n ≠ 0) (v : Word) : ∃ c, (lsrC v n).carry = some c := by
  rw [lsrC, if_neg hn]
  split_ifs <;> exact ⟨_, rfl⟩

theorem exists_asrC_carry {n : Nat} (hn : n ≠ 0) (v : Word) : ∃ c, (asrC v n).carry = some c := by
  rw [asrC, if_neg hn]
  split_ifs <;> exact ⟨_, rfl⟩

theorem exists_rorC_carry {n : Nat} (hn : n ≠ 0) (v : Word) : ∃ c, (rorC v n).carry = some c := by
  rw [rorC, if_neg hn]
  split_ifs <;> exact ⟨_, rfl⟩

theorem rightAmount_ne_zero (immed5 : BitVec 5) : rightAmount immed5 ≠ 0 := by
  unfold rightAmount
  split
  case isTrue => decide
  case isFalse h => exact fun hzero => h (BitVec.eq_of_toNat_eq hzero)

theorem registerAmount_ne_zero {w : Word} (h : (w.toNat % 256 == 0) = false) : registerAmount w ≠ 0 := by
  rw [registerAmount_eq_mod]
  exact ne_of_beq_false h

theorem toNat_ne_zero {immed5 : BitVec 5} (h : (immed5 == 0#5) = false) : immed5.toNat ≠ 0 :=
  fun hzero => ne_of_beq_false h (BitVec.eq_of_toNat_eq hzero)

/-! ## PUSH, POP and SWI in both profiles -/

theorem execPush_reflag (r : Bool) (list : BitVec 8) :
    execPush r list { s with flags := f } = reflag f (execPush r list s) := by
  unfold execPush
  cases s.cfg.profile
  case arch => exact State.pushRegs_reflag _
  case hdl => exact State.pushRegs_reflag _

theorem execPop_reflag (r : Bool) (list : BitVec 8) :
    execPop r list { s with flags := f } = reflag f (execPop r list s) := by
  unfold execPop
  cases s.cfg.profile
  case arch => exact State.popBlock_reflag r list
  case hdl => exact State.popSingle_reflag list

theorem execSwi_reflag (v : BitVec 8) : execSwi v { s with flags := f } = reflag f (execSwi v s) := by
  unfold execSwi
  cases s.cfg.profile
  case arch => exact State.unlessTop_reflag rfl
  case hdl => exact State.retire_reflag (s := { s with halted := true })

/-! ## The instructions, by what they do with the flags -/

/-- What writes no flag and reads none carries the flags along. -/
theorem exec_reflag (hnz : writesNZ i = false) (hb1 : ∀ cond d, i ≠ .b1 cond d) :
    exec i { s with flags := f } = reflag f (exec i s) := by
  cases i
  case add4 => exact State.archOnly_reflag (State.writeBack_reflag _ _)
  case mov3 => exact State.archOnly_reflag (ite_reflag rfl (State.writeBack_reflag _ _))
  case add5 | add6 => exact State.writeBack_reflag _ _
  case add7 | sub4 => exact State.writeBack_reflag spReg _
  case blH10 => exact State.writeBack_reflag lrReg _
  case ldr1 | ldr2 | ldr3 | ldr4 | ldrb1 | ldrb2 | ldrh1 | ldrh2 | ldrsb | ldrsh => exact State.loadInto_reflag _ _ _ _
  case str1 | str2 | str3 | strb1 | strb2 | strh1 | strh2 => exact State.storeFrom_reflag _ _ _
  case ldmia =>
    refine State.archOnly_reflag (ite_reflag rfl (ite_reflag rfl (afterCheck_reflag _ ?_)))
    exact (congrArg State.retire (loads_reflag _ _ _)).trans State.retire_reflag
  case stmia =>
    refine State.archOnly_reflag (ite_reflag rfl (ite_reflag rfl (afterCheck_reflag _ ?_)))
    exact (congrArg State.retire (stores_reflag _ _ _ _)).trans State.retire_reflag
  case push => exact execPush_reflag _ _
  case pop => exact execPop_reflag _ _
  case bkpt => exact State.fromV5_reflag (State.archOnly_reflag (State.unlessTop_reflag rfl))
  case swi => exact execSwi_reflag _
  case b2 => rfl
  case blH11 => exact congrArg (fun u : State => u.branchTo _) (State.setReg_reflag _ _)
  case bx => exact State.archOnly_reflag (ite_reflag rfl rfl)
  case blx2 =>
    refine State.fromV5_reflag (State.archOnly_reflag (ite_reflag rfl (ite_reflag rfl ?_)))
    exact congrArg (fun u : State => u.branchExchange _) (State.setReg_reflag _ _)
  case blxH01 =>
    refine State.fromV5_reflag (State.archOnly_reflag ?_)
    exact congrArg (fun u : State => u.branchExchange _) (State.setReg_reflag _ _)
  case b1 cond d => exact absurd rfl (hb1 cond d)
  all_goals cases hnz

theorem execB1_reflag {cond : Cond} {d : BitVec 8} (h : tablePasses cond f = tablePasses cond s.flags) :
    exec (.b1 cond d) { s with flags := f } = reflag f (exec (.b1 cond d) s) := by
  rw [tablePasses_eq_conditionPassed, tablePasses_eq_conditionPassed] at h
  refine ite_reflag rfl ?_
  rw [h]
  exact ite_reflag rfl State.retire_reflag

/-- What writes all four flags reads none, ADC and SBC apart. -/
theorem exec_of_writesV (hv : writesV i = true) (hcarry : ∀ rm rd, i ≠ .adc rm rd ∧ i ≠ .sbc rm rd) :
    exec i { s with flags := f } = exec i s := by
  cases i
  case adc rm rd => exact absurd rfl (hcarry rm rd).1
  case sbc rm rd => exact absurd rfl (hcarry rm rd).2
  case add1 | add2 | add3 | mov2 | neg | sub1 | sub2 | sub3 => exact State.writeSum_reflag _ _
  case cmn | cmp1 | cmp2 | cmp3 => rfl
  all_goals cases hv

/-- ADC and SBC read the carry in, and no other flag. -/
theorem State.writeSum_carryIn (hc : f.c = s.flags.c) (rd : LowReg) (a b : Word) :
    ({ s with flags := f } : State).writeSum rd (addWithCarry a b f.c) =
      s.writeSum rd (addWithCarry a b s.flags.c) := by
  rw [State.writeSum_reflag, hc]

/-- What writes some flags reads none of them. -/
theorem blindTo_of_writesNZ (hnz : writesNZ i = true) (hv : writesV i = false) : BlindTo i s f := by
  cases i
  case and | bic | eor | mov1 | mvn | orr | mul => exact blindTo_of_writeLogical rfl rfl rfl hv
  case tst => exact blindTo_of_retire rfl rfl rfl rfl nofun hv
  case lsl1 => exact blindTo_of_writeShifted rfl rfl (fun h => exists_lslC_carry (toNat_ne_zero h) _) hv
  case lsr1 => exact blindTo_of_writeShifted rfl rfl (fun _ => exists_lsrC_carry (rightAmount_ne_zero _) _) hv
  case asr1 => exact blindTo_of_writeShifted rfl rfl (fun _ => exists_asrC_carry (rightAmount_ne_zero _) _) hv
  case lsl2 => exact blindTo_of_writeShifted rfl rfl (fun h => exists_lslC_carry (registerAmount_ne_zero h) _) hv
  case lsr2 => exact blindTo_of_writeShifted rfl rfl (fun h => exists_lsrC_carry (registerAmount_ne_zero h) _) hv
  case asr2 => exact blindTo_of_writeShifted rfl rfl (fun h => exists_asrC_carry (registerAmount_ne_zero h) _) hv
  case ror => exact blindTo_of_writeShifted rfl rfl (fun h => exists_rorC_carry (registerAmount_ne_zero h) _) hv
  case adc | add1 | add2 | add3 | mov2 | neg | sbc | sub1 | sub2 | sub3 | cmn | cmp1 | cmp2 | cmp3 => cases hv
  all_goals cases hnz

end

/-- Settles O16: by the flags the instruction writes, all four (a sum or comparison), some (a logical result or shift)
or none. -/
theorem flagsAreReadOnlyAsTheTableSays : Obligations.FlagsAreReadOnlyAsTheTableSays := by
  refine ⟨fun i s f hcarry hb1 => ?others, fun s f rm rd hc => ⟨?adc, ?sbc⟩, fun s f cond d h => ?b1⟩
  case others =>
    cases hnz : writesNZ i with
    | false => exact blindTo_of_reflag hnz (exec_reflag hnz hb1)
    | true =>
      cases hv : writesV i with
      | false => exact blindTo_of_writesNZ hnz hv
      | true => exact blindTo_of_eq (exec_of_writesV hv hcarry)
  case adc => exact blindTo_of_eq (State.writeSum_carryIn hc _ _ _)
  case sbc => exact blindTo_of_eq (State.writeSum_carryIn hc _ _ _)
  case b1 => exact blindTo_of_reflag rfl (execB1_reflag h)

end Sys2Proof.Machine

/-! A POP of the list a PUSH stored (45_load_store_multiple.md R222, R223): the block loaded is the block stored, so
each register finds its own word at its own place. -/

namespace Sys2Proof.Machine

open Sys2Proof Sys2Proof.Claims

section
variable {s t u : State} {list : BitVec 8} {r : Bool}

/-- A PUSH that completes has stored its block below SP. -/
theorem eq_storeBlock_of_push (harch : s.cfg.profile = .arch) (h : exec (.push r list) s = .next t) :
    let regs := listRegsWith list r lrReg
    let start := s.reg spReg - blockBytes regs.length
    BlockOk s start regs.length ∧ t = s.storeBlock spReg regs start start := by
  rw [exec_push_arch harch, State.pushRegs_eq] at h
  obtain ⟨hcheck, h⟩ := afterCheck_eq_next.1 h
  obtain ⟨-, h⟩ := State.unlessTop_eq_next.1 h
  obtain ⟨-, -, hblock⟩ := State.checkPush_eq_none.1 hcheck
  exact ⟨State.checkBlock_eq_none.1 hblock, (Host.Outcome.next.inj h).symm⟩

/-- A POP that completes has loaded its block from SP on, and with `R = 1` goes to the odd address of the word after the
registers. -/
theorem eq_loadBlock_of_pop (harch : s.cfg.profile = .arch) (h : exec (.pop r list) s = .next u) :
    (∃ next, u = s.loadBlock spReg (listRegs list) (size list + r.toNat) next) ∧
      (r = true → (s.peek (wordAddr (s.reg spReg) (size list)) .word).getLsbD 0 = true ∧
        u.pc = clearBit0 (s.peek (wordAddr (s.reg spReg) (size list)) .word)) := by
  cases r with
  | false =>
    obtain ⟨-, h⟩ := afterCheck_eq_next.1 ((execPop_false_eq harch).symm.trans h)
    obtain ⟨-, h⟩ := State.unlessTop_eq_next.1 h
    exact ⟨⟨_, (Host.Outcome.next.inj h).symm⟩, nofun⟩
  | true =>
    obtain ⟨-, h⟩ := afterCheck_eq_next.1 ((execPop_true_eq harch).symm.trans h)
    by_cases hodd : (s.peek (wordAddr (s.reg spReg) (size list)) .word).getLsbD 0 = true
    · rw [if_pos hodd] at h
      obtain rfl := Host.Outcome.next.inj h
      exact ⟨⟨_, rfl⟩, fun _ => ⟨hodd, rfl⟩⟩
    · rw [if_neg hodd] at h
      cases h

/-- The word at place `j` of a block just stored, whatever the registers are set to afterwards. -/
theorem State.peek_storeBlock_withRegs {base : Reg} {regs : List Reg} {start v : Word} (after : Vector Word 15)
    (hblock : BlockOk s start regs.length) {j : Nat} {x : Reg} (hj : regs[j]? = some x) :
    ({ s.storeBlock base regs start v with regs := after } : State).peek (wordAddr start j) .word = s.reg x := by
  obtain ⟨-, hread⟩ := State.memRead_eq_ok.1 (State.memRead_storeBlock (base := base) (v := v) hblock hj)
  exact hread.symm

end

/-- Settles O57: the POP starts at the address the PUSH left in SP, and the words of its block stand at the places of
the registers stored there. -/
theorem popUndoesPush : Obligations.PopUndoesPush := by
  intro s t u r list after harch hpush hsp hpop
  obtain ⟨hblock, rfl⟩ := eq_storeBlock_of_push harch hpush
  set pushed := listRegsWith list r lrReg
  set start := s.reg spReg - blockBytes pushed.length
  set v : State := { s.storeBlock spReg pushed start start with regs := after }
  have hlength : pushed.length = size list + r.toNat := length_listRegsWith list r lrReg
  have hvsp : v.reg spReg = start := hsp.trans (State.storeBlock_base spReg_ne_pcReg)
  have hvarch : v.cfg.profile = .arch := (congrArg Config.profile s.storeBlock_cfg).trans harch
  obtain ⟨⟨next, rfl⟩, hpc⟩ := eq_loadBlock_of_pop hvarch hpop
  refine ⟨?sp, fun i hi => ?registers, ?memory, ?flags, ?pc⟩
  case sp =>
    rw [State.loadBlock_base spReg_ne_pcReg, hvsp, ← hlength]
    exact BitVec.sub_add_cancel _ _
  case registers =>
    have hk : (listRegs list).length ≤ size list + r.toNat := (length_listRegs list).trans_le (Nat.le_add_right _ _)
    rw [State.loadBlock_reg (listRegs_nodup list) pcReg_not_mem_listRegs spReg_not_mem_listRegs hk
      (getElem?_listRegs_rank hi), hvsp]
    exact State.peek_storeBlock_withRegs after hblock (getElem?_listRegsWith_rank r lrReg hi)
  case memory =>
    obtain ⟨-, ⟨hmem, -⟩, -⟩ := State.loadBlock_keeps (s := v) (next := next)
    exact hmem
  case flags => exact State.loadBlock_flags.trans State.storeBlock_flags
  case pc =>
    rintro rfl
    obtain ⟨hodd, htarget⟩ := hpc rfl
    have hlr : v.peek (wordAddr (v.reg spReg) (size list)) .word = s.reg lrReg := by
      rw [hvsp]
      exact State.peek_storeBlock_withRegs after hblock (getElem?_listRegsWith_size list lrReg)
    rw [hlr] at hodd htarget
    refine ⟨hodd, ?_⟩
    rw [htarget, clearBit0_eq_sub_one hodd]
    exact BitVec.sub_add_cancel _ _

end Sys2Proof.Machine
